-- ==== Sys2Proof/Word.lean ====
section
/-!
DEFINITION. The words of the GDEP display engine and its two-valued enumerations (00_scope.md rules R12, R13, R15).
-/

namespace Sys2Proof

/-- A byte: the value one frame carries and one cell of the framebuffer (R15, R50). -/
abbrev Byte := BitVec 8

/-- The 9-bit frame word (discriminator, value), R80. -/
abbrev FrameWord := BitVec 9

/-- The 3-bit operation selector `OP`, R21. -/
abbrev OpCode := BitVec 3

/-- One host operand register: `OPW = 16` bits, two's complement (R12, R21). -/
abbrev Operand := BitVec 16

/-- The result register `RES`: `2 * OPW + 4 = 36` bits, two's complement (R21, R119). -/
abbrev Result := BitVec 36

/-- A GPIO level, the two-valued enumeration of R13. -/
inductive Level where
  | low
  | high
  deriving DecidableEq, Repr, Inhabited

/-- `lvl(b)`: HIGH when the bit is 1, else LOW (R15). -/
def Level.ofBit : Bool → Level
  | true => .high
  | false => .low

/-- The other level (R11: `CS_INACTIVE` is the other level). -/
def Level.other : Level → Level
  | .low => .high
  | .high => .low

/-- A pixel colour, the two-valued enumeration of R15. -/
inductive Color where
  | white
  | black
  deriving DecidableEq, Repr, Inhabited

end Sys2Proof
end

