-- ==== Sys2Proof/Config.lean ====
section
/-!
DEFINITION. What is fixed when the Display Device is constructed (00_scope.md rules R6 to R11, 10_state.md rule R28), and the
free values: constants without a body, which stand for what the spec leaves open.
-/

namespace Sys2Proof

/-- The transport mode, chosen once per build (R7). -/
inductive Mode where
  | hw4
  | hw3
  | sw4
  | sw3
  deriving DecidableEq, Repr, Inhabited

/-- `is_sw(MODE)` (R7). -/
def Mode.isSw : Mode → Bool
  | .hw4 | .hw3 => false
  | .sw4 | .sw3 => true

/-- `is_3wire(MODE)` (R7). -/
def Mode.is3wire : Mode → Bool
  | .hw4 | .sw4 => false
  | .hw3 | .sw3 => true

/-- The encoding of `CFG.MODE` (R28, D5): bit 1 is `is_sw`, bit 0 is `is_3wire`. -/
def Mode.code : Mode → BitVec 2
  | .hw4 => 0b00#2
  | .hw3 => 0b01#2
  | .sw4 => 0b10#2
  | .sw3 => 0b11#2

/-- The logical pins (R8). -/
inductive Pin where
  | busy
  | rst
  | dc
  | sda
  | sck
  | cs
  deriving DecidableEq, Repr, Inhabited

/-- The five delay parameters (R10). -/
inductive Delay where
  | tRstLow
  | tRstHigh
  | tRefresh
  | tPoll
  | tBit
  deriving DecidableEq, Repr, Inhabited

/-- The pin identifiers of the device record: opaque tokens; the last three exist only with software transport (R8, R28). -/
structure PinIds where
  busy : Nat
  rst  : Nat
  dc   : Nat
  sda  : Option Nat
  sck  : Option Nat
  cs   : Option Nat
  deriving DecidableEq, Repr

/-- Which capabilities are bound (R28: three always, `CAP_TX` only with hardware transport). -/
structure Caps where
  gw  : Bool
  gr  : Bool
  dly : Bool
  tx  : Bool
  deriving DecidableEq, Repr

/-- The five durations, in microseconds (R10). DESIGN CHOICE: whole microseconds; the spec gives the unit and not whether a duration
may be a fraction of it, so a `T_BIT` below one microsecond stands as 0 or rounded up (log 31). -/
structure Durations where
  rstLow  : Nat
  rstHigh : Nat
  refresh : Nat
  poll    : Nat
  bit     : Nat
  deriving DecidableEq, Repr

/-- The configuration record `CFG` (R28): constants bound at construction. No operation writes it. -/
structure Cfg where
  width       : Nat
  height      : Nat
  mode        : Mode
  pins        : PinIds
  caps        : Caps
  pwrPayload  : List Byte
  psrByte     : Byte
  resHH       : Byte
  resHL       : Byte
  resVH       : Byte
  resVL       : Byte
  p15Payload  : List Byte
  cdiA        : Byte
  cdiB        : Byte
  tconPayload : List Byte
  durations   : Durations
  readyLevel  : Level
  csActive    : Level
  deriving DecidableEq, Repr

/-- `N`, the framebuffer's length in bytes (R6). -/
def Cfg.n (c : Cfg) : Nat := c.width * c.height / 8

/-- The duration a delay parameter stands for (R10). -/
def Cfg.duration (c : Cfg) : Delay → Nat
  | .tRstLow => c.durations.rstLow
  | .tRstHigh => c.durations.rstHigh
  | .tRefresh => c.durations.refresh
  | .tPoll => c.durations.poll
  | .tBit => c.durations.bit

/-! ### Free values

No body, so nothing can be proved of their values. The counter argument is `env.free` of the state. -/

/-- FREE VALUE (log 1): what framebuffer byte `a` holds at reset: "an arbitrary value (a draw), not zero" (R30, U7). -/
opaque Config.fbReset (a : Nat) : Byte

/-- FREE VALUE (log 2): the level of an output pin at reset: "the pins hold whatever the host platform's pin initialisation left"
(R30, U7, U15). -/
opaque Config.pinReset (p : Pin) : Level

/-- FREE VALUE (log 5): the answer to an unscripted `GR(BUSY)` (R13, U8). -/
opaque Config.busyLevel (k : Nat) : Level

/-- FREE VALUE (log 5): whether an unscripted `TX` reports success (R13, U8). -/
opaque Config.txOk (k : Nat) : Bool

/-- FREE VALUE (log 9): `SHR` outside a `write_byte` (R23). -/
opaque Config.shrAfter (k : Nat) : BitVec 9

/-- FREE VALUE (log 9): `BITN` outside a `write_byte` (R23). -/
opaque Config.bitnAfter (k : Nat) : BitVec 4

/-- FREE VALUE (log 9): line register number `r` outside a `draw_line` (R22). -/
opaque Config.lineAfter (k r : Nat) : Int

/-- FREE VALUE (log 10): `RES` after a `map_value` that divided by zero (R236, U3). -/
opaque Config.resAfter (k : Nat) : Result

/-- FREE CONSTANT (log 3): `READY_LEVEL` of the device as constructed; OPEN, no default (R11, R161, U9). -/
opaque Config.readyLevel : Level

/-- FREE CONSTANT (log 3): the durations of the device as constructed; no number is given (R10, U11). -/
opaque Config.duration (d : Delay) : Nat

/-- The device as constructed, what `State.reset` holds (log 3): the reference panel 800x480 (R6) in mode HW4, with the payloads
the spec suggests (R9, G5) and the resolution bytes of R92. DESIGN CHOICE and PRESUMED; claims quantify over `Cfg`. -/
def Cfg.reference : Cfg where
  width := 800
  height := 480
  mode := .hw4
  pins := { busy := 0, rst := 1, dc := 2, sda := none, sck := none, cs := none }
  caps := { gw := true, gr := true, dly := true, tx := true }
  pwrPayload := [0x07#8, 0x07#8, 0x3F#8, 0x3F#8]
  psrByte := 0x1F#8
  resHH := 0x03#8
  resHL := 0x20#8
  resVH := 0x01#8
  resVL := 0xE0#8
  p15Payload := [0x00#8]
  cdiA := 0x10#8
  cdiB := 0x07#8
  tconPayload := [0x22#8]
  durations :=
    { rstLow := Config.duration .tRstLow
      rstHigh := Config.duration .tRstHigh
      refresh := Config.duration .tRefresh
      poll := Config.duration .tPoll
      bit := Config.duration .tBit }
  readyLevel := Config.readyLevel
  csActive := .low

end Sys2Proof
end

