-- ==== Sys2Proof/Syntax.lean ====
section
/-!
DEFINITION. The instructions: one constructor for each row of spec/opcode_table.json, and the two kinds of code word that
name them (30_encoding.md rules R80, R89, R94).
-/

namespace Sys2Proof

/-- One constructor a row of spec/opcode_table.json. The frames are what the microprogram sends; the host operations read their
operands from the request registers, so they carry none. -/
inductive Instr where
  /-- `PANEL_SET`, command frame 0x00 (R200). -/
  | panelSet
  /-- `PWR_SET`, command frame 0x01 (R201). -/
  | pwrSet
  /-- `PWR_OFF`, command frame 0x02 (R202). -/
  | pwrOff
  /-- `PWR_ON`, command frame 0x04 (R203). -/
  | pwrOn
  /-- `DEEP_SLEEP`, command frame 0x07 (R204). -/
  | deepSleep
  /-- `DATA_OLD`, command frame 0x10 (R205). -/
  | dataOld
  /-- `REFRESH`, command frame 0x12 (R206). -/
  | refresh
  /-- `DATA_NEW`, command frame 0x13 (R207). -/
  | dataNew
  /-- `PANEL_SET2`, command frame 0x15 (R208). -/
  | panelSet2
  /-- `VCOM_CDI`, command frame 0x50 (R209). -/
  | vcomCdi
  /-- `TCON_SET`, command frame 0x60 (R210). -/
  | tconSet
  /-- `RES_SET`, command frame 0x61 (R211). -/
  | resSet
  /-- `STATUS`, command frame 0x71 (R212). -/
  | status
  /-- `DATA`, the data frame of byte `d` (R213). -/
  | data (d : Byte)
  /-- `set_pixel x, y, color`, `OP = 0b000` (R110). -/
  | setPixel
  /-- `draw_line x1, y1, x2, y2, color`, `OP = 0b001` (R113). -/
  | drawLine
  /-- `fill color`, `OP = 0b010` (R116). -/
  | fill
  /-- `map_value value, in_lo, in_hi, out_lo, out_hi`, `OP = 0b011` (R118). -/
  | mapValue
  /-- `update_screen`, `OP = 0b100` (R170). -/
  | updateScreen
  /-- `clean_screen`, `OP = 0b101` (R171). -/
  | cleanScreen
  /-- The reserved code `OP = 0b110` (R95). -/
  | reserved6
  /-- The reserved code `OP = 0b111` (R95). -/
  | reserved7
  deriving DecidableEq, Repr

/-- A code word: a 9-bit frame word, fetched from the microprogram, or a 3-bit host operation code, fetched from the request
port. The two tables of the spec are separate code spaces (R80, R94). -/
inductive Code where
  | frame (fw : FrameWord)
  | host (op : OpCode)
  deriving DecidableEq, Repr

end Sys2Proof
end

