-- ==== Sys2Proof/Machine/State.lean ====
section
/-!
DEFINITION. The state of the block (10_state.md rule R20), the environment beside it, the reasons a step can stop, the state
after reset, and one named update for each field. Plain data throughout.
-/

namespace Sys2Proof.Machine

/-- The framebuffer: (address, byte) pairs, addresses strictly rising. An address not listed holds no value the model names
(R30, log 1). -/
abbrev Memory := List Host.Cell

/-- The host request record (OP, A[0..4], C), R21 and R93. -/
structure Request where
  op : OpCode
  a0 : Operand
  a1 : Operand
  a2 : Operand
  a3 : Operand
  a4 : Operand
  c  : BitVec 1
  deriving DecidableEq, Repr

/-- `SRC`: what step 21 sends (R24). -/
inductive Src where
  | fb
  | white
  deriving DecidableEq, Repr

/-- The sequence position (UPC, CNT, SRC) of an update or clean in flight (R24). -/
structure SeqPos where
  upc : Nat
  cnt : Nat
  src : Src
  deriving DecidableEq, Repr

/-- The working registers of draw_line, exact integers (R22). -/
structure LineRegs where
  x   : Int
  y   : Int
  x2  : Int
  y2  : Int
  dxa : Int
  dya : Int
  sx  : Int
  sy  : Int
  err : Int
  deriving DecidableEq, Repr

/-- The pin latches `PINL[p]`, one for each output pin (R26). -/
structure PinLatches where
  rst : Level
  dc  : Level
  sda : Level
  sck : Level
  cs  : Level
  deriving DecidableEq, Repr

/-- The capability events (R13). A delay carries its parameter as a label, and the duration that parameter stands for (R272,
log 19); a busy read carries the level it answered. -/
inductive Event where
  | gw (pin : Pin) (level : Level)
  | gr (pin : Pin) (level : Level)
  | dly (which : Delay) (us : Nat)
  | tx8 (bits : Byte)
  | tx9 (bits : FrameWord)
  deriving DecidableEq, Repr

/-- How a capability call that does not return normally ends (R238). -/
inductive CapEnd where
  | aborts
  | neverReturns
  deriving DecidableEq, Repr

/-- What stands outside the block: the recorded events and what the host and the platform will answer (R13, R29). -/
structure Env where
  trace    : List Event
  requests : List Request
  busyIn   : List Level
  txIn     : List Bool
  capFail  : Option (Nat × CapEnd)
  free     : Nat
  deriving DecidableEq, Repr

/-- The complete state of the block (R20), and its environment. -/
structure State where
  cfg      : Cfg
  fb       : Memory
  txerr    : Bool
  inflight : Bool
  req      : Request
  res      : Result
  seq      : Option SeqPos
  line     : LineRegs
  shr      : BitVec 9
  bitn     : BitVec 4
  pinl     : PinLatches
  env      : Env
  deriving DecidableEq, Repr

/-- The outcomes of R230 that end a run with a fault. The state each leaves is given, since the block may be used again. -/
inductive Fault where
  /-- Raised by any operation that calls a capability, when that call does not return normally (R181, R238). `left` is the state
  the abort leaves. Safe: the run stops where the block would accept a next operation. -/
  | aborted (left : State)
  /-- Raised by any operation that calls a capability, when that call never returns (R238, U13). `left` is the state at that call.
  Safe: the block does nothing more. -/
  | stuck (left : State)
  /-- Raised by `map_value` when `in_hi = in_lo` (R118, R236). `left` is the state after it, `RES` being a free value. Safe: the run
  stops where the block would accept a next operation. -/
  | mapDivideByZero (left : State)
  deriving DecidableEq, Repr

/-- The reasons a request or an instruction is not accepted. -/
inductive Refusal where
  /-- Raised by `exec` for an instruction that has no meaning yet. Safe. -/
  | notModelled (mnemonic : String)
  /-- Raised by every host operation while `INFLIGHT = 1` (R237, R268). Safe: nothing changes. -/
  | busy
  /-- Raised by the two reserved host codes (R95, R237). Safe: nothing changes. -/
  | reservedOp (op : OpCode)
  /-- Raised by every host operation when `CFG` is not a legal configuration (R6, R28, U5). Safe: nothing changes. -/
  | illegalCfg
  /-- Raised by `step` when a fetched code word is no instruction; the microprogram holds none (R95). Safe. -/
  | undecodable (code : Code)
  /-- Raised by `step` when `INFLIGHT = 1` and there is no sequence position, a state no run reaches (R24, log 20). Safe. -/
  | lostSequence
  deriving DecidableEq, Repr

/-! ### One update for each field -/

def State.setFb (s : State) (m : Memory) : State := { s with fb := m }
def State.setTxerr (s : State) (b : Bool) : State := { s with txerr := b }
def State.setInflight (s : State) (b : Bool) : State := { s with inflight := b }
def State.setReq (s : State) (r : Request) : State := { s with req := r }
def State.setRes (s : State) (v : Result) : State := { s with res := v }
def State.setSeq (s : State) (q : Option SeqPos) : State := { s with seq := q }
def State.setLine (s : State) (l : LineRegs) : State := { s with line := l }
def State.setShr (s : State) (v : BitVec 9) : State := { s with shr := v }
def State.setBitn (s : State) (v : BitVec 4) : State := { s with bitn := v }
def State.setPinl (s : State) (p : PinLatches) : State := { s with pinl := p }
def State.setTrace (s : State) (es : List Event) : State := { s with env := { s.env with trace := es } }
def State.setRequests (s : State) (rs : List Request) : State := { s with env := { s.env with requests := rs } }
def State.setBusyIn (s : State) (ls : List Level) : State := { s with env := { s.env with busyIn := ls } }
def State.setTxIn (s : State) (bs : List Bool) : State := { s with env := { s.env with txIn := bs } }
def State.setCapFail (s : State) (f : Option (Nat × CapEnd)) : State := { s with env := { s.env with capFail := f } }
def State.setFree (s : State) (k : Nat) : State := { s with env := { s.env with free := k } }

/-! ### Reset -/

/-- The request record with every register 0: the reset value of OP, A and C (DESIGN CHOICE, log 2). -/
def Request.zero : Request where
  op := 0#3
  a0 := 0#16
  a1 := 0#16
  a2 := 0#16
  a3 := 0#16
  a4 := 0#16
  c := 0#1

/-- The state right after construction (R30, R260): flags 0, sequence idle, no event emitted, the framebuffer unspecified (nothing
listed), the pin latches at free levels (U7). The registers for which R30 says "unspecified" or "don't care" hold 0 (DESIGN CHOICE,
log 2); `cfg` is what was bound (log 3). -/
def State.reset : State where
  cfg := Cfg.reference
  fb := []
  txerr := false
  inflight := false
  req := Request.zero
  res := 0#36
  seq := none
  line := { x := 0, y := 0, x2 := 0, y2 := 0, dxa := 0, dya := 0, sx := 0, sy := 0, err := 0 }
  shr := 0#9
  bitn := 0#4
  pinl :=
    { rst := Config.pinReset .rst
      dc := Config.pinReset .dc
      sda := Config.pinReset .sda
      sck := Config.pinReset .sck
      cs := Config.pinReset .cs }
  env := { trace := [], requests := [], busyIn := [], txIn := [], capFail := none, free := 0 }

end Sys2Proof.Machine
end

