-- ==== Sys2Proof/Machine/Ops.lean ====
section
/-!
DEFINITION. The named operations over the framebuffer, the event trace and the platform's answers; ending an operation with an
outcome other than Completed (60_exceptions.md rules R236, R238); sequencing.
-/

namespace Sys2Proof.Machine

/-- The answer of a step or of a part of one. -/
abbrev Answer := Host.Outcome State Fault Refusal

/-- `a`, then `f` on its next state; a fault or a refusal ends it (R60: one thing after another). -/
def andThen (a : Answer) (f : State → Answer) : Answer :=
  match a with
  | .next s => f s
  | .fault r => .fault r
  | .refused r => .refused r

/-! ### The framebuffer memory (R50, R56) -/

/-- The byte listed at an address, if one is. -/
def memLookup : Memory → Nat → Option Byte
  | [], _ => none
  | (k, b) :: m, a => if k = a then some b else memLookup m a

/-- `MemRead(a, 1)`: the byte written last, or that address's free reset value (R16, R30, log 1). -/
def memRead (m : Memory) (a : Nat) : Byte := (memLookup m a).getD (Config.fbReset a)

/-- `MemWrite(a, 1, v)`: one byte, keeping addresses strictly rising (R16). -/
def memWrite : Memory → Nat → Byte → Memory
  | [], a, v => [(a, v)]
  | (k, b) :: m, a, v =>
    if a < k then (a, v) :: (k, b) :: m
    else if a = k then (a, v) :: m
    else (k, b) :: memWrite m a v

/-- The bytes `0 .. n-1` all set to `v`; other addresses keep what they hold (the byte fill of R116). -/
def memFill (m : Memory) (n : Nat) (v : Byte) : Memory :=
  (List.range n).map (fun a => (a, v)) ++ m.filter (fun cell => n ≤ cell.1)

/-- The canonical form: addresses strictly rising. -/
def memWf : Memory → Bool
  | [] => true
  | [_] => true
  | (k, _) :: (k', b') :: m => decide (k < k') && memWf ((k', b') :: m)

/-- Every listed address is one of `0 .. n-1` (R50, R56). -/
def memBelow (n : Nat) (m : Memory) : Bool := m.all fun cell => decide (cell.1 < n)

/-! ### Events (R13, R26) -/

/-- The latch of the written pin takes the written level; `BUSY` is an input and has none (R26). -/
def latch (p : PinLatches) : Event → PinLatches
  | .gw .rst l => { p with rst := l }
  | .gw .dc l => { p with dc := l }
  | .gw .sda l => { p with sda := l }
  | .gw .sck l => { p with sck := l }
  | .gw .cs l => { p with cs := l }
  | .gw .busy _ => p
  | .gr _ _ => p
  | .dly _ _ => p
  | .tx8 _ => p
  | .tx9 _ => p

/-- `emit` of a list of events: appended to the trace in order, the pin latches updated (R16, R60). -/
def record (es : List Event) (s : State) : State :=
  (s.setPinl (es.foldl latch s.pinl)).setTrace (s.env.trace ++ es)

/-! ### Free values -/

/-- The next free value's number is used up. -/
def bumpFree (s : State) : State := s.setFree (s.env.free + 1)

/-- `SHR` and `BITN` have no value outside a `write_byte` (R23, log 9). -/
def dropShift (s : State) : State :=
  bumpFree ((s.setShr (Config.shrAfter s.env.free)).setBitn (Config.bitnAfter s.env.free))

/-- The line registers have no value outside a `draw_line` (R22, log 9). -/
def dropLine (s : State) : State :=
  bumpFree (s.setLine
    { x := Config.lineAfter s.env.free 0
      y := Config.lineAfter s.env.free 1
      x2 := Config.lineAfter s.env.free 2
      y2 := Config.lineAfter s.env.free 3
      dxa := Config.lineAfter s.env.free 4
      dya := Config.lineAfter s.env.free 5
      sx := Config.lineAfter s.env.free 6
      sy := Config.lineAfter s.env.free 7
      err := Config.lineAfter s.env.free 8 })

/-! ### Ending an operation without completing it (60_exceptions.md) -/

/-- TAKING AN ABORT (R181, R238): `INFLIGHT <- 0`, the sequence position discarded; the framebuffer, `TXERR`, the latches and the
trace stay as they are; the working registers have no value any more (R23); the failing call has been used up (log 7). The return from
it is the next `update_screen` or `clean_screen`, which begins at step 0 (R181, R243). -/
def abortState (s : State) : State :=
  dropShift (((s.setInflight false).setSeq none).setCapFail none)

/-- A capability call that does not return normally ends the operation `Aborted`; one that never returns leaves the run stuck at
that event (R238). -/
def capFault (how : CapEnd) (s : State) : Answer :=
  match how with
  | .aborts => .fault (.aborted (abortState s))
  | .neverReturns => .fault (.stuck s)

/-- `MapDivideByZero` (R236): `RES` becomes unspecified, no other state changes. -/
def mapFault (s : State) : Answer :=
  .fault (.mapDivideByZero (bumpFree (s.setRes (Config.resAfter s.env.free))))

/-! ### Calling capabilities (R13, R60, R238) -/

/-- A run of capability calls, one event each, in order. With `capFail = some (k, how)` the first `k` calls return normally and the
next one does not: the trace then ends after the `k` events (R181, log 8). -/
def callAll (es : List Event) (s : State) : Answer :=
  match s.env.capFail with
  | none => .next (record es s)
  | some (k, how) =>
    if es.length ≤ k then .next ((record es s).setCapFail (some (k - es.length, how)))
    else capFault how ((record (es.take k) s).setCapFail (some (0, how)))

/-- The level the next `GR(BUSY)` answers: scripted, or a free value (R13, U8, log 5). -/
def busyAnswer (s : State) : Level :=
  match s.env.busyIn with
  | l :: _ => l
  | [] => Config.busyLevel s.env.free

/-- That answer is used up. -/
def dropBusy (s : State) : State :=
  match s.env.busyIn with
  | _ :: rest => s.setBusyIn rest
  | [] => bumpFree s

/-- Whether the next `TX` reports success: scripted, or a free value (R13, U8, log 5). -/
def txAnswer (s : State) : Bool :=
  match s.env.txIn with
  | ok :: _ => ok
  | [] => Config.txOk s.env.free

/-- That answer is used up. -/
def dropTx (s : State) : State :=
  match s.env.txIn with
  | _ :: rest => s.setTxIn rest
  | [] => bumpFree s

/-- The event of a delay parameter (R10, R272). -/
def delayEvent (c : Cfg) (d : Delay) : Event := .dly d (c.duration d)

end Sys2Proof.Machine
end

