-- ==== Sys2Proof/Machine/Operands.lean ====
section
/-!
DEFINITION. The operand forms of the host operations (30_encoding.md rule R94), the pixel address (20_memory.md R53), the legal
configurations (10_state.md R28), and the gate every host operation passes (R237, R268).
-/

namespace Sys2Proof.Machine

/-- Host operand register `A[i]` read as a signed integer (R16, R21). -/
def operand (s : State) : Fin 5 → Int
  | 0 => s.req.a0.toInt
  | 1 => s.req.a1.toInt
  | 2 => s.req.a2.toInt
  | 3 => s.req.a3.toInt
  | 4 => s.req.a4.toInt

/-- A colour code: 0 WHITE, 1 BLACK (R15, R21). -/
def colorOfBit (b : BitVec 1) : Color := if b = 1#1 then .black else .white

/-- Host operand register `C` (R21). -/
def colorOperand (s : State) : Color := colorOfBit s.req.c

/-- The bit a colour is stored as: "1 denotes the 'black' color, 0 denotes 'white'" (R52, R91). -/
def colorBit : Color → Bool
  | .black => true
  | .white => false

/-- The byte that eight pixels of one colour make (R116). -/
def colorByte : Color → Byte
  | .black => 0xFF#8
  | .white => 0x00#8

/-- Whether `(x, y)` lies in `[0, WIDTH) × [0, HEIGHT)` (R56, R110). -/
def inRange (c : Cfg) (x y : Int) : Bool :=
  decide (0 ≤ x) && decide (x < c.width) && decide (0 ≤ y) && decide (y < c.height)

/-- The byte index of an in-range pixel (R53). -/
def pixelIdx (c : Cfg) (x y : Int) : Nat := y.toNat * (c.width / 8) + x.toNat / 8

/-- The bit number of a pixel inside its byte; 7 is the most significant (R53). -/
def pixelBit (x : Int) : Nat := 7 - x.toNat % 8

/-- A byte with bit `i` set to `b` and the other seven kept (R57). -/
def setBit (v : Byte) (i : Nat) (b : Bool) : Byte :=
  if b then v ||| (1#8 <<< i) else v &&& ~~~(1#8 <<< i)

/-- `pixel(x, y)` (R53). -/
def pixel (s : State) (x y : Int) : Bool := (memRead s.fb (pixelIdx s.cfg x y)).getLsbD (pixelBit x)

/-! ### Legal configurations (R6, R8, R28, R92) -/

/-- `WIDTH` and `HEIGHT` (R6). -/
def geometryLegal (c : Cfg) : Bool :=
  decide (0 < c.width) && decide (c.width % 8 = 0) && decide (c.width < 65536) &&
    decide (0 < c.height) && decide (c.height < 65536)

/-- The identifiers the device holds: six with software transport, three with hardware transport (R8). -/
def pinList (p : PinIds) : List Nat :=
  [p.busy, p.rst, p.dc] ++ p.sda.toList ++ p.sck.toList ++ p.cs.toList

/-- Pin identifiers are pairwise distinct; `SDA`, `SCK`, `CS` exist only when `is_sw(MODE)` (R8, R28). -/
def pinsLegal (c : Cfg) : Bool :=
  decide (pinList c.pins).Nodup && c.pins.sda.isSome == c.mode.isSw && c.pins.sck.isSome == c.mode.isSw &&
    c.pins.cs.isSome == c.mode.isSw

/-- Three capabilities are always bound, `CAP_TX` only when hardware transport is selected (R28). -/
def capsLegal (c : Cfg) : Bool := c.caps.gw && c.caps.gr && c.caps.dly && c.caps.tx == !c.mode.isSw

/-- The resolution bytes are `WIDTH` and `HEIGHT` as 16-bit values, high byte first (R92). -/
def resolutionLegal (c : Cfg) : Bool :=
  c.resHH == (BitVec.ofNat 16 c.width).extractLsb' 8 8 && c.resHL == (BitVec.ofNat 16 c.width).extractLsb' 0 8 &&
    c.resVH == (BitVec.ofNat 16 c.height).extractLsb' 8 8 && c.resVL == (BitVec.ofNat 16 c.height).extractLsb' 0 8

/-- A legal `CFG` (R28, U5). -/
def cfgLegal (c : Cfg) : Bool := geometryLegal c && pinsLegal c && capsLegal c && resolutionLegal c

/-- The gate of every host operation: refused while one is in flight (R237, R268), refused on a configuration that is not legal
(U5). -/
def hostGate (s : State) (go : State → Answer) : Answer :=
  if s.inflight then .refused .busy
  else if cfgLegal s.cfg then go s
  else .refused .illegalCfg

/-- The idle state in which the block accepts a host operation (R237, R268, U5). -/
def Accepts (s : State) : Prop := s.inflight = false ∧ cfgLegal s.cfg = true

end Sys2Proof.Machine
end

