-- ==== Sys2Proof/Machine/Framebuffer.lean ====
section
/-!
DEFINITION. The framebuffer operations and `map_value` (40_framebuffer.md). None calls a capability, so none emits an event.
-/

namespace Sys2Proof.Machine

/-- `set_pixel(x, y, color)` on the framebuffer: one bit of one byte, or nothing out of range (R110). -/
def setPixelAt (x y : Int) (col : Color) (s : State) : State :=
  if inRange s.cfg x y then
    s.setFb (memWrite s.fb (pixelIdx s.cfg x y)
      (setBit (memRead s.fb (pixelIdx s.cfg x y)) (pixelBit x) (colorBit col)))
  else s

/-! ### The Bresenham loop (R113) -/

/-- The step direction: `+1` when the start lies below the end, else `-1` (R113, D8). -/
def lineSign (a b : Int) : Int := if a < b then 1 else -1

/-- The line registers as draw_line loads them (R113). -/
def lineStart (x1 y1 x2 y2 : Int) : LineRegs where
  x := x1
  y := y1
  x2 := x2
  y2 := y2
  dxa := (x2 - x1).natAbs
  dya := (y2 - y1).natAbs
  sx := lineSign x1 x2
  sy := lineSign y1 y2
  err := ((x2 - x1).natAbs : Int) - (y2 - y1).natAbs

/-- The current point is the end point. -/
def lineAtEnd (l : LineRegs) : Bool := decide (l.x = l.x2) && decide (l.y = l.y2)

/-- The x advance: `if E2 > -DYA then ERR <- ERR - DYA; X <- X + SX`. -/
def lineAdvanceX (e2 : Int) (l : LineRegs) : LineRegs :=
  if -l.dya < e2 then { l with err := l.err - l.dya, x := l.x + l.sx } else l

/-- The y advance: `if E2 < DXA then ERR <- ERR + DXA; Y <- Y + SY`. -/
def lineAdvanceY (e2 : Int) (l : LineRegs) : LineRegs :=
  if e2 < l.dxa then { l with err := l.err + l.dxa, y := l.y + l.sy } else l

/-- One advancing iteration: both tests use the same `E2`, computed before either update (R113). -/
def lineAdvance (l : LineRegs) : LineRegs := lineAdvanceY (2 * l.err) (lineAdvanceX (2 * l.err) l)

/-- The loop, on the line registers of the state: draw, test the end, step (R113). -/
def lineLoop (col : Color) : Nat → State → State
  | 0, s => s
  | n + 1, s =>
    let t := setPixelAt s.line.x s.line.y col s
    if lineAtEnd t.line then t else lineLoop col n (t.setLine (lineAdvance t.line))

/-- How many points a line has: `max(DXA, DYA) + 1`, which bounds the loop (R114, log 24). -/
def lineCount (l : LineRegs) : Nat := (max l.dxa l.dya).toNat + 1

/-- `draw_line(x1, y1, x2, y2, color)`: load the registers, run the loop; afterwards the registers have no value (R22, R113). -/
def drawLineAt (x1 y1 x2 y2 : Int) (col : Color) (s : State) : State :=
  dropLine (lineLoop col (lineCount (lineStart x1 y1 x2 y2)) (s.setLine (lineStart x1 y1 x2 y2)))

/-! ### fill (R116) -/

/-- `fill(color)` as a byte fill of `FB[0..N-1]` (R116, C6, log 23). -/
def fillBytes (col : Color) (s : State) : State := s.setFb (memFill s.fb s.cfg.n (colorByte col))

/-- The pixels of one row from `x = 0` to `w - 1`, through `set_pixel`. -/
def fillRow (col : Color) (y : Nat) (w : Nat) (s : State) : State :=
  (List.range w).foldl (fun t (x : Nat) => setPixelAt (x : Int) (y : Int) col t) s

/-- `fill` as R116 writes it: rows outer, columns inner, every pixel through `set_pixel`. Not what `exec` runs; the claim that the
byte fill equals it is an obligation. -/
def fillPixels (col : Color) (s : State) : State :=
  (List.range s.cfg.height).foldl (fun t (y : Nat) => fillRow col y s.cfg.width t) s

/-! ### map_value (R118) -/

/-- `((value - in_lo) * (out_hi - out_lo)) div (in_hi - in_lo) + out_lo`: the exact product, one division truncating toward zero,
then the addition (R15, R118). -/
def mapFormula (value inLo inHi outLo outHi : Int) : Int :=
  ((value - inLo) * (outHi - outLo)).tdiv (inHi - inLo) + outLo

/-! ### The meanings -/

/-- `set_pixel x, y, color` (R110): `A[0]`, `A[1]`, `C`. -/
def execSetPixel (s : State) : Answer :=
  hostGate s fun s => .next (setPixelAt (operand s 0) (operand s 1) (colorOperand s) s)

/-- `draw_line x1, y1, x2, y2, color` (R113): `A[0]` to `A[3]`, `C`. -/
def execDrawLine (s : State) : Answer :=
  hostGate s fun s =>
    .next (drawLineAt (operand s 0) (operand s 1) (operand s 2) (operand s 3) (colorOperand s) s)

/-- `fill color` (R116): `C`. -/
def execFill (s : State) : Answer := hostGate s fun s => .next (fillBytes (colorOperand s) s)

/-- `map_value value, in_lo, in_hi, out_lo, out_hi` (R118): `A[0]` to `A[4]`; only `RES` is written. -/
def execMapValue (s : State) : Answer :=
  hostGate s fun s =>
    if operand s 2 = operand s 1 then mapFault s
    else .next (s.setRes (BitVec.ofInt 36
      (mapFormula (operand s 0) (operand s 1) (operand s 2) (operand s 3) (operand s 4))))

end Sys2Proof.Machine
end

