-- ==== Sys2Proof/WellFormed.lean ====
section
/-!
DEFINITION. Which instructions are well formed: all but the two reserved host codes (30_encoding.md rule R95). The data frame's
byte may be any of the 256 values, which its type says already.
-/

namespace Sys2Proof

/-- An instruction the block gives an effect: not one of the reserved host codes (R95 (a)). -/
def Instr.wf : Instr → Bool
  | .reserved6 => false
  | .reserved7 => false
  | .panelSet | .pwrSet | .pwrOff | .pwrOn | .deepSleep | .dataOld | .refresh | .dataNew | .panelSet2 => true
  | .vcomCdi | .tconSet | .resSet | .status => true
  | .data _ => true
  | .setPixel | .drawLine | .fill | .mapValue | .updateScreen | .cleanScreen => true

/-- The panel command frames: the thirteen rows with D = 0 (R89). -/
def Instr.isCommand : Instr → Bool
  | .panelSet | .pwrSet | .pwrOff | .pwrOn | .deepSleep | .dataOld | .refresh | .dataNew | .panelSet2 => true
  | .vcomCdi | .tconSet | .resSet | .status => true
  | .data _ => false
  | .setPixel | .drawLine | .fill | .mapValue | .updateScreen | .cleanScreen | .reserved6 | .reserved7 => false

end Sys2Proof
end

