-- ==== Sys2Proof/Decode.lean ====
section
/-!
DEFINITION. The decoder, written from the opcode maps of 30_encoding.md (R80, R89, R94), and after it the encoder.
Decoding is total: a command frame whose code is not one of the thirteen is refused (R95 (b)).
-/

namespace Sys2Proof

/-- The opcode map of the panel commands: code and instruction, sorted by code (R89). -/
def commandTable : List (Byte × Instr) :=
  [ (0x00#8, .panelSet),
    (0x01#8, .pwrSet),
    (0x02#8, .pwrOff),
    (0x04#8, .pwrOn),
    (0x07#8, .deepSleep),
    (0x10#8, .dataOld),
    (0x12#8, .refresh),
    (0x13#8, .dataNew),
    (0x15#8, .panelSet2),
    (0x50#8, .vcomCdi),
    (0x60#8, .tconSet),
    (0x61#8, .resSet),
    (0x71#8, .status) ]

/-- The host operation codes (R94, R95). -/
def hostTable : List (OpCode × Instr) :=
  [ (0b000#3, .setPixel),
    (0b001#3, .drawLine),
    (0b010#3, .fill),
    (0b011#3, .mapValue),
    (0b100#3, .updateScreen),
    (0b101#3, .cleanScreen),
    (0b110#3, .reserved6),
    (0b111#3, .reserved7) ]

/-- The discriminator bit D of a frame word: bit 8 (R80). -/
def frameD (fw : FrameWord) : Bool := fw.getLsbD 8

/-- The value byte of a frame word: bits 7 to 0 (R80). -/
def frameValue (fw : FrameWord) : Byte := fw.extractLsb' 0 8

/-- Frame assembly: the complement of `is_command`, then the byte (R80, R90). -/
def frameWord (value : Byte) (isCommand : Bool) : FrameWord := BitVec.ofBool (!isCommand) ++ value

/-- A frame word: D = 1 is a data byte, D = 0 one of the thirteen command codes (R89, R95). -/
def decodeFrame (fw : FrameWord) : Option Instr :=
  if frameD fw then some (.data (frameValue fw)) else commandTable.lookup (frameValue fw)

/-- A host operation code (R94). -/
def decodeHost (op : OpCode) : Option Instr := hostTable.lookup op

/-- The decoder, on either kind of code word. -/
def decode : Code → Option Instr
  | .frame fw => decodeFrame fw
  | .host op => decodeHost op

/-- The code word of an instruction (R89, R94). -/
def encode : Instr → Code
  | .panelSet => .frame 0b000000000#9
  | .pwrSet => .frame 0b000000001#9
  | .pwrOff => .frame 0b000000010#9
  | .pwrOn => .frame 0b000000100#9
  | .deepSleep => .frame 0b000000111#9
  | .dataOld => .frame 0b000010000#9
  | .refresh => .frame 0b000010010#9
  | .dataNew => .frame 0b000010011#9
  | .panelSet2 => .frame 0b000010101#9
  | .vcomCdi => .frame 0b001010000#9
  | .tconSet => .frame 0b001100000#9
  | .resSet => .frame 0b001100001#9
  | .status => .frame 0b001110001#9
  | .data d => .frame (frameWord d false)
  | .setPixel => .host 0b000#3
  | .drawLine => .host 0b001#3
  | .fill => .host 0b010#3
  | .mapValue => .host 0b011#3
  | .updateScreen => .host 0b100#3
  | .cleanScreen => .host 0b101#3
  | .reserved6 => .host 0b110#3
  | .reserved7 => .host 0b111#3

/-- The code word that a row of spec/opcode_table.json writes as the number `w` in `nbits` bits: the HOST rows have 3 bits (one
byte), the FRAME9 rows 9 bits (two bytes); bits above the row's own must be 0 (log 18). -/
def tableCode (nbits w : Nat) : Option Code :=
  if nbits ≤ 8 then
    if w < 8 then some (.host (BitVec.ofNat 3 w)) else none
  else
    if w < 512 then some (.frame (BitVec.ofNat 9 w)) else none

/-- The instruction the decoder reads from a word numbered as spec/opcode_table.json numbers it. -/
def decodeTableWord (nbits w : Nat) : Option Instr := (tableCode nbits w).bind decode

/-- The byte buffer of a 9-bit transfer: two bytes, left-aligned (R86, D14). -/
def packFrame (fw : FrameWord) : List Byte :=
  [fw.extractLsb' 1 8, fw.extractLsb' 0 1 ++ 0b0000000#7]

end Sys2Proof
end

