-- ==== Sys2Proof/Machine/Flags.lean ====
section
/-!
DEFINITION. The two flags (10_state.md rule R25) and the sequence position that INFLIGHT goes with (R24). There are no condition
codes.
-/

namespace Sys2Proof.Machine

/-- `TXERR <- 1` on a failed `TX`, sticky; nothing else (R25, R137, R232). -/
def noteTx (s : State) : State := (dropTx s).setTxerr (s.txerr || !txAnswer s)

/-- Acceptance of an update or a clean: `INFLIGHT <- 1; SRC <- src; UPC <- 0` (R170, R171). -/
def acceptScreen (src : Src) (s : State) : State :=
  (s.setInflight true).setSeq (some { upc := 0, cnt := 0, src := src })

/-- Completion: `INFLIGHT <- 0`, the sequence position discarded (R180). -/
def complete (s : State) : State := (s.setInflight false).setSeq none

/-- The terminal index of the microprogram (R24, R172). -/
def terminalUpc : Nat := 31

/-- A microprogram step is complete: `UPC <- UPC + 1`, `CNT` back to 0; at 31 the operation is complete (R24, R180). With nothing
in flight there is no position to move. -/
def advance (s : State) : State :=
  match s.seq with
  | none => s
  | some q => if q.upc + 1 < terminalUpc then s.setSeq (some { q with upc := q.upc + 1, cnt := 0 }) else complete s

/-- One data byte of a step with `len` bytes is sent: `CNT` counts up by one, and the step completes at its length (R24). -/
def advanceByte (len : Nat) (s : State) : State :=
  match s.seq with
  | none => s
  | some q => if q.cnt + 1 < len then s.setSeq (some { q with cnt := q.cnt + 1 }) else advance s

end Sys2Proof.Machine
end

