-- ==== Sys2Proof/Machine/Transport.lean ====
section
/-!
DEFINITION. Transport: `write_byte` in the four modes (41_transport.md), over the working registers SHR and BITN (R23).
-/

namespace Sys2Proof.Machine

/-- `SHR` and `BITN` loaded for one byte: 9 bits {D, value} in 3-wire modes, the 8 bits of the value in 4-wire modes, where D
travels out of band (R23, R81, R82). DESIGN CHOICE: the frame stands right-aligned in `SHR` (log 22), and in 4-wire modes, where R23
gives `SHR` 8 bits and no value for the ninth, bit 8 of the field is 0, for a command and for a data byte (log 30). -/
def loadFrame (value : Byte) (isCommand : Bool) (s : State) : State :=
  if s.cfg.mode.is3wire then (s.setShr (frameWord value isCommand)).setBitn 9#4
  else (s.setShr (0#1 ++ value)).setBitn 8#4

/-- The bit cell: clock LOW, data, clock HIGH, each phase held for `T_BIT` (R131). -/
def cell (c : Cfg) (b : Bool) : List Event :=
  [ .gw .sck .low, delayEvent c .tBit,
    .gw .sda (Level.ofBit b), delayEvent c .tBit,
    .gw .sck .high, delayEvent c .tBit ]

/-- One bit sent: the cell of the most significant bit left in `SHR`, which is bit `BITN - 1` (R54); then one bit fewer is left
(R23). DESIGN CHOICE: `BITN` counts down after the last event of the cell (log 22). -/
def sendBit (s : State) : Answer :=
  andThen (callAll (cell s.cfg (s.shr.getLsbD (s.bitn.toNat - 1))) s) fun t => .next (t.setBitn (t.bitn - 1#4))

/-- `n` bits sent, one after another. -/
def sendBits : Nat → State → Answer
  | 0, s => .next s
  | n + 1, s => andThen (sendBit s) (sendBits n)

/-- The events of a software-mode byte: chip-select asserted, one cell for each bit `BITN` counts, chip-select deasserted (R134,
R135, R140). -/
def softByte (s : State) : Answer :=
  andThen (callAll [.gw .cs s.cfg.csActive] s) fun t =>
    andThen (sendBits t.bitn.toNat t) fun u => callAll [.gw .cs u.cfg.csActive.other] u

/-- The event of a hardware-mode byte: an 8-bit or a 9-bit transfer (R85, R86, R132, R133). -/
def hardEvent (s : State) : Event :=
  if s.cfg.mode.is3wire then .tx9 s.shr else .tx8 (frameValue s.shr)

/-- A hardware-mode byte: one `TX`, whose failure sets TXERR (R132, R133, R137). The SPI engine counts its own bits, so `BITN` keeps
the number it was loaded with until the `TX` returns (log 22). -/
def hardByte (s : State) : Answer :=
  andThen (callAll [hardEvent s] s) fun t => .next (noteTx t)

/-- `write_byte(value, is_command)` (R130): the frame is loaded, then sent by one `TX` (R132, R133) or bit by bit (R134, R135).
Afterwards `SHR` and `BITN` have no value (R23). -/
def writeByte (value : Byte) (isCommand : Bool) (s : State) : Answer :=
  let l := loadFrame value isCommand s
  andThen (if l.cfg.mode.isSw then softByte l else hardByte l) fun t => .next (dropShift t)

end Sys2Proof.Machine
end

