-- ==== Sys2Proof/Machine/CommandChannel.lean ====
section
/-!
DEFINITION. Command Channel: `write_command` and `write_data` (42_command_channel.md).
-/

namespace Sys2Proof.Machine

/-- The data/command-select write of the 4-wire modes; 3-wire modes never write `DC` (R150, R151, R152). -/
def selectDc (level : Level) (s : State) : Answer :=
  if s.cfg.mode.is3wire then .next s else callAll [.gw .dc level] s

/-- `write_command(byte)`: `DC` LOW in 4-wire modes, then the byte (R150). -/
def writeCommand (b : Byte) (s : State) : Answer :=
  andThen (selectDc .low s) (writeByte b true)

/-- `write_data(byte)`: `DC` HIGH in 4-wire modes, then the byte (R151). -/
def writeData (b : Byte) (s : State) : Answer :=
  andThen (selectDc .high s) (writeByte b false)

end Sys2Proof.Machine
end

