-- ==== Sys2Proof/Machine/Sequencer.lean ====
section
/-!
DEFINITION. The fixed microprogram of the Protocol State Machine (44_protocol_fsm.md rule R172) and its own moves: the steps that
send no frame.
-/

namespace Sys2Proof.Machine

/-- The data bytes of a step. -/
inductive Payload where
  /-- A list of constants (R9, R88). -/
  | bytes (l : List Byte)
  /-- `N` bytes of `0x00` (steps 19 and, for a clean, 21). -/
  | zeros (n : Nat)
  /-- The framebuffer, `FB[0]` to `FB[N-1]` (step 21 of an update). -/
  | image (n : Nat)
  deriving DecidableEq, Repr

/-- What one row of the microprogram does. -/
inductive Micro where
  | drive (l : Level)
  | delay (d : Delay)
  | command (code : Byte)
  | payload (p : Payload)
  | wait
  | terminal
  deriving DecidableEq, Repr

/-- The data bytes of step 21: the live framebuffer, or white (R172, R171, D29). -/
def imagePayload (c : Cfg) : Src → Payload
  | .fb => .image c.n
  | .white => .zeros c.n

/-- The microprogram (R172). -/
def micro (c : Cfg) (src : Src) : Nat → Micro
  | 0 => .drive .low
  | 1 => .delay .tRstLow
  | 2 => .drive .high
  | 3 => .delay .tRstHigh
  | 4 => .command 0x01#8
  | 5 => .payload (.bytes c.pwrPayload)
  | 6 => .command 0x04#8
  | 7 => .wait
  | 8 => .command 0x00#8
  | 9 => .payload (.bytes [c.psrByte])
  | 10 => .command 0x61#8
  | 11 => .payload (.bytes [c.resHH, c.resHL, c.resVH, c.resVL])
  | 12 => .command 0x15#8
  | 13 => .payload (.bytes c.p15Payload)
  | 14 => .command 0x50#8
  | 15 => .payload (.bytes [c.cdiA, c.cdiB])
  | 16 => .command 0x60#8
  | 17 => .payload (.bytes c.tconPayload)
  | 18 => .command 0x10#8
  | 19 => .payload (.zeros c.n)
  | 20 => .command 0x13#8
  | 21 => .payload (imagePayload c src)
  | 22 => .command 0x12#8
  | 23 => .delay .tRefresh
  | 24 => .wait
  | 25 => .command 0x50#8
  | 26 => .payload (.bytes [0xF7#8])
  | 27 => .command 0x02#8
  | 28 => .wait
  | 29 => .command 0x07#8
  | 30 => .payload (.bytes [0xA5#8])
  | _ => .terminal

/-- The length of a payload (R24). -/
def payloadLen : Payload → Nat
  | .bytes l => l.length
  | .zeros n => n
  | .image n => n

/-- Byte `i` of a payload; an image byte is read from the framebuffer now (R63, D32). -/
def payloadByte (m : Memory) (i : Nat) : Payload → Byte
  | .bytes l => l.getD i 0x00#8
  | .zeros _ => 0x00#8
  | .image _ => memRead m i

/-- How many data bytes the current step has; none outside a payload step. -/
def stepLen (s : State) : Nat :=
  match s.seq with
  | none => 0
  | some q =>
    match micro s.cfg q.src q.upc with
    | .payload p => payloadLen p
    | .drive _ | .delay _ | .command _ | .wait | .terminal => 0

/-- A step of one event that is no frame: the reset pin's level, or a delay (steps 0 to 3 and 23). -/
def ownEvent (e : Event) (s : State) : Answer :=
  andThen (callAll [e] s) fun t => .next (advance t)

/-- A command step: `write_command(code)`, and the step is complete (R172, R199). -/
def sendCommand (code : Byte) (s : State) : Answer :=
  andThen (writeCommand code s) fun t => .next (advance t)

/-- One data byte of a payload step: `write_data(byte)`, and `CNT` moves on (R24, R199). -/
def sendData (b : Byte) (s : State) : Answer :=
  andThen (writeData b s) fun t => .next (advanceByte (stepLen s) t)

/-- One poll of `wait_ready` (R160): the status command, the busy read; ready ends the step, not ready asks for `DLY(T_POLL)` and
stays at the step, with no bound (R162). -/
def pollBusy (code : Byte) (s : State) : Answer :=
  andThen (writeCommand code s) fun t =>
    andThen (callAll [.gr .busy (busyAnswer t)] t) fun u =>
      let v := dropBusy u
      let ready := decide (busyAnswer t = v.cfg.readyLevel)
      andThen (callAll (if ready then [] else [delayEvent v.cfg .tPoll]) v) fun w =>
        .next (if ready then advance w else w)

end Sys2Proof.Machine
end

