-- ==== Sys2Proof/Machine/PanelCommands.lean ====
section
/-!
DEFINITION. The meanings of the frames: the thirteen panel command bytes (45_panel_commands.md) and the data frame. Each sends its
one frame and moves the sequence position on; the payload of a command is the step after it, whose bytes go out as data frames
(R172, R199).
-/

namespace Sys2Proof.Machine

/-- `PANEL_SET`: `C 00` (R200). -/
def execPanelSet (s : State) : Answer := sendCommand 0x00#8 s

/-- `PWR_SET`: `C 01` (R201). -/
def execPwrSet (s : State) : Answer := sendCommand 0x01#8 s

/-- `PWR_OFF`: `C 02` (R202). -/
def execPwrOff (s : State) : Answer := sendCommand 0x02#8 s

/-- `PWR_ON`: `C 04` (R203). -/
def execPwrOn (s : State) : Answer := sendCommand 0x04#8 s

/-- `DEEP_SLEEP`: `C 07` (R204). -/
def execDeepSleep (s : State) : Answer := sendCommand 0x07#8 s

/-- `DATA_OLD`: `C 10` (R205). -/
def execDataOld (s : State) : Answer := sendCommand 0x10#8 s

/-- `REFRESH`: `C 12` (R206). -/
def execRefresh (s : State) : Answer := sendCommand 0x12#8 s

/-- `DATA_NEW`: `C 13` (R207). -/
def execDataNew (s : State) : Answer := sendCommand 0x13#8 s

/-- `PANEL_SET2`: `C 15` (R208). -/
def execPanelSet2 (s : State) : Answer := sendCommand 0x15#8 s

/-- `VCOM_CDI`: `C 50`, in PANEL_CONFIG and in SLEEP (R209). -/
def execVcomCdi (s : State) : Answer := sendCommand 0x50#8 s

/-- `TCON_SET`: `C 60` (R210). -/
def execTconSet (s : State) : Answer := sendCommand 0x60#8 s

/-- `RES_SET`: `C 61` (R211). -/
def execResSet (s : State) : Answer := sendCommand 0x61#8 s

/-- `STATUS`: `C 71`, then the busy read: one poll of `wait_ready` (R160, R212). -/
def execStatus (s : State) : Answer := pollBusy 0x71#8 s

/-- `DATA`: `D d` (R213). -/
def execData (d : Byte) (s : State) : Answer := sendData d s

end Sys2Proof.Machine
end

