-- ==== Sys2Proof/Machine/Screen.lean ====
section
/-!
DEFINITION. The two operations that enter the Protocol State Machine (44_protocol_fsm.md R170, R171), and the reserved host codes
(30_encoding.md R95). An accepted update or clean then runs one step of the microprogram after another, until it completes (R180).
-/

namespace Sys2Proof.Machine

/-- `update_screen` is accepted: it will send the live framebuffer (R170). -/
def execUpdateScreen (s : State) : Answer := hostGate s fun s => .next (acceptScreen .fb s)

/-- `clean_screen` is accepted: it will send white (R171). -/
def execCleanScreen (s : State) : Answer := hostGate s fun s => .next (acceptScreen .white s)

/-- The reserved code 6: refused, nothing changes (R95). The state is not looked at. -/
def execReserved6 (_ : State) : Answer := .refused (.reservedOp 0b110#3)

/-- The reserved code 7: refused, nothing changes (R95). The state is not looked at. -/
def execReserved7 (_ : State) : Answer := .refused (.reservedOp 0b111#3)

end Sys2Proof.Machine
end

