-- ==== Sys2Proof/Machine/Dispatch.lean ====
section
/-!
DEFINITION. The dispatch: one arm for each constructor of Instr.
-/

namespace Sys2Proof.Machine

def exec (i : Instr) (s : State) : Host.Outcome State Fault Refusal :=
  match i with
  | .panelSet => Sys2Proof.Machine.execPanelSet s
  | .pwrSet => Sys2Proof.Machine.execPwrSet s
  | .pwrOff => Sys2Proof.Machine.execPwrOff s
  | .pwrOn => Sys2Proof.Machine.execPwrOn s
  | .deepSleep => Sys2Proof.Machine.execDeepSleep s
  | .dataOld => Sys2Proof.Machine.execDataOld s
  | .refresh => Sys2Proof.Machine.execRefresh s
  | .dataNew => Sys2Proof.Machine.execDataNew s
  | .panelSet2 => Sys2Proof.Machine.execPanelSet2 s
  | .vcomCdi => Sys2Proof.Machine.execVcomCdi s
  | .tconSet => Sys2Proof.Machine.execTconSet s
  | .resSet => Sys2Proof.Machine.execResSet s
  | .status => Sys2Proof.Machine.execStatus s
  | .data d => Sys2Proof.Machine.execData d s
  | .setPixel => Sys2Proof.Machine.execSetPixel s
  | .drawLine => Sys2Proof.Machine.execDrawLine s
  | .fill => Sys2Proof.Machine.execFill s
  | .mapValue => Sys2Proof.Machine.execMapValue s
  | .updateScreen => Sys2Proof.Machine.execUpdateScreen s
  | .cleanScreen => Sys2Proof.Machine.execCleanScreen s
  | .reserved6 => Sys2Proof.Machine.execReserved6 s
  | .reserved7 => Sys2Proof.Machine.execReserved7 s

end Sys2Proof.Machine
end

