-- ==== Sys2Proof/Machine/Fetch.lean ====
section
/-!
DEFINITION. Where the block takes its next move from: the host's request port while idle (30_encoding.md R93), the microprogram
while an operation is in flight (44_protocol_fsm.md R172); and how one code word is put there.
-/

namespace Sys2Proof.Machine

/-- The next move. -/
inductive Fetch where
  /-- Nothing in flight and no request: the block waits (R260). -/
  | idle
  /-- A code word to decode and execute on the given state. -/
  | code (c : Code) (s : State)
  /-- A move of the sequencer that is no frame. -/
  | own (a : Answer)

/-- A request is presented: it stands in the request registers (R21, R93). DESIGN CHOICE: they keep the record during the operation and
after it, until the next request is taken; R20 calls them not persistent and does not say what they hold then (log 32). -/
def loadRequest (r : Request) (rest : List Request) (s : State) : State := (s.setReq r).setRequests rest

/-- The next move of an operation in flight at position `q` (R24, R172). -/
def fetchMicro (q : SeqPos) (s : State) : Fetch :=
  match micro s.cfg q.src q.upc with
  | .drive l => .own (ownEvent (.gw .rst l) s)
  | .delay d => .own (ownEvent (delayEvent s.cfg d) s)
  | .command b => .code (.frame (frameWord b true)) s
  | .wait => .code (.frame (frameWord 0x71#8 true)) s
  | .payload p =>
    if q.cnt < payloadLen p then .code (.frame (frameWord (payloadByte s.fb q.cnt p) false)) s
    else .own (.next (advance s))
  | .terminal => .own (.next (complete s))

/-- The next move (R14: one operation at a time; R260: idle, the block waits for a request). -/
def fetch (s : State) : Fetch :=
  if s.inflight then
    match s.seq with
    | none => .own (.refused .lostSequence)
    | some q => fetchMicro q s
  else
    match s.env.requests with
    | [] => .idle
    | r :: rest => .code (.host r.op) (loadRequest r rest s)

/-! ### Placing one code word -/

/-- The microprogram index at which a command frame is fetched; 0x50 stands at two, of which this is the first (R172). -/
def commandUpc (i : Instr) : Nat :=
  match i with
  | .pwrSet => 4
  | .pwrOn => 6
  | .status => 7
  | .panelSet => 8
  | .resSet => 10
  | .panelSet2 => 12
  | .vcomCdi => 14
  | .tconSet => 16
  | .dataOld => 18
  | .dataNew => 20
  | .refresh => 22
  | .pwrOff => 27
  | .deepSleep => 29
  | .data _ => 21
  | .setPixel | .drawLine | .fill | .mapValue | .updateScreen | .cleanScreen | .reserved6 | .reserved7 => 31

/-- The state with an update in flight at microprogram index `upc`. -/
def placeAt (upc : Nat) (s : State) : State :=
  (s.setInflight true).setSeq (some { upc := upc, cnt := 0, src := .fb })

/-- The state in which the next fetch takes this frame: the sequence position at the step that sends it, and for a data frame its
byte in `FB[0]`, the first byte step 21 sends (R172). A frame that is no instruction stands nowhere, and changes nothing. -/
def placeFrame (fw : FrameWord) (s : State) : State :=
  match decodeFrame fw with
  | none => s
  | some i => if frameD fw then placeAt 21 (s.setFb (memWrite s.fb 0 (frameValue fw))) else placeAt (commandUpc i) s

/-- The state in which the next fetch takes this host code: nothing in flight, and the request (operands all 0) first in line. -/
def placeHost (op : OpCode) (s : State) : State :=
  ((s.setInflight false).setSeq none).setRequests ({ Request.zero with op := op } :: s.env.requests)

/-- The state in which the next fetch takes this code word. -/
def placeCode (c : Code) (s : State) : State :=
  match c with
  | .frame fw => placeFrame fw s
  | .host op => placeHost op s

end Sys2Proof.Machine
end

