-- ==== Sys2Proof/Machine/Step.lean ====
section
/-!
DEFINITION. One step: fetch, decode, execute, or a move of the sequencer's own, or waiting for a request.
-/

namespace Sys2Proof.Machine

/-- One step of the block (R14, R24, R260). -/
def step (s : State) : Host.Outcome State Fault Refusal :=
  match fetch s with
  | .idle => .next s
  | .own a => a
  | .code c t =>
    match decode c with
    | some i => exec i t
    | none => .refused (.undecodable c)

/-- `s` with the instruction that spec/opcode_table.json writes as `w` placed where `step` fetches next (log 17). A word that is no
code word changes nothing. -/
def State.withFetchWord (s : State) (nbits w : Nat) : State :=
  match tableCode nbits w with
  | some c => placeCode c s
  | none => s

end Sys2Proof.Machine
end

