-- ==== Sys2Proof/Safety.lean ====
section
/-!
DEFINITION. The terms the claims use: the invariant of the block, what events each transport mode may emit, the traces that the
rules of spec/ write out, and runs of several steps.
-/

namespace Sys2Proof.Machine

/-! ### The invariant -/

/-- The sequence position is a position: idle exactly when nothing is in flight (R24, R25); `UPC` is below the terminal index;
`CNT` is 0, or the index of a byte still to be sent (R24). -/
def seqWf (s : State) : Bool :=
  match s.inflight, s.seq with
  | false, none => true
  | true, some q => decide (q.upc < terminalUpc) && (decide (q.cnt = 0) || decide (q.cnt < stepLen s))
  | false, some _ => false
  | true, none => false

/-- The invariant that every step keeps. -/
structure Inv (s : State) : Prop where
  /-- The framebuffer is in its canonical form. -/
  canonical : memWf s.fb = true
  /-- No framebuffer address outside `0 .. N-1` is ever formed (R56). -/
  below : memBelow s.cfg.n s.fb = true
  /-- The sequence position goes with `INFLIGHT` (R24, R25). -/
  position : seqWf s = true
  /-- "In software modes it is never set" (R25). -/
  soft : s.cfg.mode.isSw = true → s.txerr = false

/-! ### Platform assumptions a claim may make -/

/-- Every capability call returns normally (R238: a model may leave the failing behaviour out; here it is a hypothesis). -/
def CapsReturn (s : State) : Prop := s.env.capFail = none

/-- The level of the busy pin that is not `READY_LEVEL`. -/
def notReady (c : Cfg) : Level := c.readyLevel.other

/-! ### What an operation may not change -/

/-- What no frame and no step in flight changes: configuration, framebuffer, request and result registers, line registers, and the
requests still waiting. -/
def KeepsHostSide (s t : State) : Prop :=
  t.cfg = s.cfg ∧ t.fb = s.fb ∧ t.req = s.req ∧ t.res = s.res ∧ t.line = s.line ∧ t.env.requests = s.env.requests

/-- What no drawing operation and no `map_value` changes: configuration, flags, sequence position, request registers, transport
registers, pin latches, the trace, and the platform's answers. -/
def KeepsBusSide (s t : State) : Prop :=
  t.cfg = s.cfg ∧ t.txerr = s.txerr ∧ t.inflight = s.inflight ∧ t.seq = s.seq ∧ t.req = s.req ∧ t.shr = s.shr ∧
    t.bitn = s.bitn ∧ t.pinl = s.pinl ∧ t.env.trace = s.env.trace ∧ t.env.requests = s.env.requests ∧
    t.env.busyIn = s.env.busyIn ∧ t.env.txIn = s.env.txIn ∧ t.env.capFail = s.env.capFail

/-! ### Events by mode (R7, R13, R85, R86, R152) -/

/-- The events a device of this configuration may emit: `GR` on `BUSY` only and `GW` never on it (R13); `DC` only in 4-wire modes
(R152); `SDA`, `SCK`, `CS` and the bit delay only in software modes (R8, R140); an 8-bit `TX` only in HW4 and a 9-bit `TX` only in
HW3 (R95 (e)). A delay is requested for its parameter's duration (R10). -/
def eventLegal (c : Cfg) : Event → Bool
  | .gw .busy _ => false
  | .gw .rst _ => true
  | .gw .dc _ => !c.mode.is3wire
  | .gw .sda _ => c.mode.isSw
  | .gw .sck _ => c.mode.isSw
  | .gw .cs _ => c.mode.isSw
  | .gr p _ => decide (p = .busy)
  | .dly d us => (decide (d ≠ .tBit) || c.mode.isSw) && decide (us = c.duration d)
  | .tx8 _ => decide (c.mode = .hw4)
  | .tx9 _ => decide (c.mode = .hw3)

/-! ### Frames on the wire, as the rules write them -/

/-- `value[7]` down to `value[0]` (R81). -/
def byteBits (v : Byte) : List Bool :=
  [ v.getLsbD 7, v.getLsbD 6, v.getLsbD 5, v.getLsbD 4, v.getLsbD 3, v.getLsbD 2, v.getLsbD 1, v.getLsbD 0 ]

/-- `ser(MODE, value, is_command)`: the row of R81 in 4-wire modes, of R82 in 3-wire modes (R83). -/
def serialBits (m : Mode) (v : Byte) (isCommand : Bool) : List Bool :=
  if m.is3wire then (!isCommand) :: byteBits v else byteBits v

/-- `cell(b)` as R131 lists it. -/
def cellTrace (c : Cfg) (b : Bool) : List Event :=
  [ .gw .sck .low, .dly .tBit (c.duration .tBit), .gw .sda (Level.ofBit b), .dly .tBit (c.duration .tBit),
    .gw .sck .high, .dly .tBit (c.duration .tBit) ]

/-- The events of `write_byte` in each mode (R132 to R135). -/
def byteTrace (c : Cfg) (v : Byte) (isCommand : Bool) : List Event :=
  match c.mode with
  | .hw4 => [.tx8 v]
  | .hw3 => [.tx9 (BitVec.ofBool (!isCommand) ++ v)]
  | .sw4 => [.gw .cs c.csActive] ++ (byteBits v).flatMap (cellTrace c) ++ [.gw .cs c.csActive.other]
  | .sw3 => [.gw .cs c.csActive] ++ ((!isCommand) :: byteBits v).flatMap (cellTrace c) ++ [.gw .cs c.csActive.other]

/-- `C xx`: the events of `write_command` (R17, R150). -/
def commandTrace (c : Cfg) (b : Byte) : List Event :=
  (if c.mode.is3wire then [] else [.gw .dc .low]) ++ byteTrace c b true

/-- `D xx`: the events of `write_data` (R17, R151). -/
def dataTrace (c : Cfg) (b : Byte) : List Event :=
  (if c.mode.is3wire then [] else [.gw .dc .high]) ++ byteTrace c b false

/-- A packet: one command frame, then its data frames (R87). -/
def packetTrace (c : Cfg) (code : Byte) (payload : List Byte) : List Event :=
  commandTrace c code ++ payload.flatMap (dataTrace c)

/-- What a receiver takes from a software-mode trace: the level of `SDA` at each rising `SCK` (R83, R136). The first argument is the
level of `SDA` before the trace. -/
def sampled : Level → List Event → List Level
  | _, [] => []
  | _, .gw .sda l :: es => sampled l es
  | d, .gw .sck .high :: es => d :: sampled d es
  | d, .gw .sck .low :: es => sampled d es
  | d, .gw .busy _ :: es => sampled d es
  | d, .gw .rst _ :: es => sampled d es
  | d, .gw .dc _ :: es => sampled d es
  | d, .gw .cs _ :: es => sampled d es
  | d, .gr _ _ :: es => sampled d es
  | d, .dly _ _ :: es => sampled d es
  | d, .tx8 _ :: es => sampled d es
  | d, .tx9 _ :: es => sampled d es

/-! ### The protocol's traces (R160, R172 to R178) -/

/-- `W` with `k` polls that find the panel not ready before the one that finds it ready (R160). -/
def waitTrace (c : Cfg) : Nat → List Event
  | 0 => commandTrace c 0x71#8 ++ [.gr .busy c.readyLevel]
  | k + 1 =>
    commandTrace c 0x71#8 ++ [.gr .busy (notReady c), .dly .tPoll (c.duration .tPoll)] ++ waitTrace c k

/-- RESET (R173). -/
def resetTrace (c : Cfg) : List Event :=
  [ .gw .rst .low, .dly .tRstLow (c.duration .tRstLow), .gw .rst .high, .dly .tRstHigh (c.duration .tRstHigh) ]

/-- POWER_CONFIG (R174). -/
def powerTrace (c : Cfg) (k : Nat) : List Event :=
  packetTrace c 0x01#8 c.pwrPayload ++ commandTrace c 0x04#8 ++ waitTrace c k

/-- PANEL_CONFIG (R175, D22). -/
def panelTrace (c : Cfg) : List Event :=
  packetTrace c 0x00#8 [c.psrByte] ++ packetTrace c 0x61#8 [c.resHH, c.resHL, c.resVH, c.resVL] ++
    packetTrace c 0x15#8 c.p15Payload ++ packetTrace c 0x50#8 [c.cdiA, c.cdiB] ++ packetTrace c 0x60#8 c.tconPayload

/-- The new-data bytes: the framebuffer in index order, or white (R170, R171, R176). -/
def imageBytes (c : Cfg) (m : Memory) : Src → List Byte
  | .fb => (List.range c.n).map (memRead m)
  | .white => List.replicate c.n 0x00#8

/-- IMAGE_TRANSFER (R176). -/
def imageTrace (c : Cfg) (m : Memory) (src : Src) : List Event :=
  packetTrace c 0x10#8 (List.replicate c.n 0x00#8) ++ packetTrace c 0x13#8 (imageBytes c m src)

/-- REFRESH (R177). -/
def refreshTrace (c : Cfg) (k : Nat) : List Event :=
  commandTrace c 0x12#8 ++ [.dly .tRefresh (c.duration .tRefresh)] ++ waitTrace c k

/-- SLEEP (R178). -/
def sleepTrace (c : Cfg) (k : Nat) : List Event :=
  packetTrace c 0x50#8 [0xF7#8] ++ commandTrace c 0x02#8 ++ waitTrace c k ++ packetTrace c 0x07#8 [0xA5#8]

/-- A whole operation, with `k1`, `k2`, `k3` polls that find the panel not ready in its three waits (R172, R183). -/
def screenTrace (c : Cfg) (m : Memory) (src : Src) (k1 k2 k3 : Nat) : List Event :=
  resetTrace c ++ powerTrace c k1 ++ panelTrace c ++ imageTrace c m src ++ refreshTrace c k2 ++ sleepTrace c k3

/-- The busy answers that make a wait find the panel not ready `k` times, then ready. -/
def waitAnswers (c : Cfg) (k : Nat) : List Level := List.replicate k (notReady c) ++ [c.readyLevel]

/-! ### What R182 counts -/

/-- `GW(RST, ..)`. -/
def isResetWrite : Event → Bool
  | .gw .rst _ => true
  | .gw .busy _ | .gw .dc _ | .gw .sda _ | .gw .sck _ | .gw .cs _ => false
  | .gr _ _ | .dly _ _ | .tx8 _ | .tx9 _ => false

/-- `GR(BUSY)`. -/
def isBusyRead : Event → Bool
  | .gr .busy _ => true
  | .gr .rst _ | .gr .dc _ | .gr .sda _ | .gr .sck _ | .gr .cs _ => false
  | .gw _ _ | .dly _ _ | .tx8 _ | .tx9 _ => false

/-- A delay outside a software-mode bit cell. -/
def isStepDelay : Event → Bool
  | .dly .tBit _ => false
  | .dly .tRstLow _ | .dly .tRstHigh _ | .dly .tRefresh _ | .dly .tPoll _ => true
  | .gw _ _ | .gr _ _ | .tx8 _ | .tx9 _ => false

/-! ### Where the sequence goes, as R24 and R180 write it -/

/-- INFLIGHT and the position after a step of the microprogram is complete: the next index with `CNT` 0, and nothing in flight when
that index is 31 (R24, R180). -/
def afterStep (s : State) : Bool × Option SeqPos :=
  match s.seq with
  | none => (s.inflight, none)
  | some q => if q.upc < 30 then (s.inflight, some { upc := q.upc + 1, cnt := 0, src := q.src }) else (false, none)

/-- INFLIGHT and the position after one data byte: the next `CNT`, or the next step when that is the step's length (R24). -/
def afterByte (s : State) : Bool × Option SeqPos :=
  match s.seq with
  | none => (s.inflight, none)
  | some q =>
    if q.cnt + 1 < stepLen s then (s.inflight, some { upc := q.upc, cnt := q.cnt + 1, src := q.src }) else afterStep s

/-- `TXERR` after one frame: in hardware modes the frame is one `TX`, and a failure sets the flag (R25, R137). -/
def txerrAfterFrame (s : State) : Bool := s.txerr || (!s.cfg.mode.isSw && !txAnswer s)

/-- What a frame leaves: its events in the trace and in the latches, TXERR, and everything else but the position, the working
registers and the answers used up as it was. -/
def FrameSent (s t : State) (es : List Event) : Prop :=
  t.env.trace = s.env.trace ++ es ∧ t.pinl = es.foldl latch s.pinl ∧ t.txerr = txerrAfterFrame s ∧ KeepsHostSide s t ∧
    CapsReturn t ∧ t.env.busyIn = s.env.busyIn ∧ (s.cfg.mode.isSw = true → t.env.txIn = s.env.txIn)

/-- An instruction that sends the command byte `b` and completes its microprogram step (R199). -/
def SendsCommand (i : Instr) (b : Byte) : Prop :=
  ∀ s, CapsReturn s → ∃ t, exec i s = .next t ∧ FrameSent s t (commandTrace s.cfg b) ∧ (t.inflight, t.seq) = afterStep s

/-- `run` emits `es`, and a capability call that does not return normally after `k` of these events cuts it there: the trace ends
after them; an abort, or a run stuck at the place where it was (R181, R238). -/
def CutsOff (run : State → Answer) (s : State) (es : List Event) : Prop :=
  ∀ k, k < es.length →
    (s.env.capFail = some (k, .aborts) →
      ∃ l, run s = .fault (.aborted l) ∧ l.env.trace = s.env.trace ++ es.take k ∧ l.inflight = false ∧ l.seq = none) ∧
    (s.env.capFail = some (k, .neverReturns) →
      ∃ l, run s = .fault (.stuck l) ∧ l.env.trace = s.env.trace ++ es.take k ∧ l.inflight = s.inflight ∧ l.seq = s.seq)

/-- A run in flight has got from `s` to `t`: these events, this position, the rest as it was. -/
def Reached (s t : State) (es : List Event) (q : SeqPos) : Prop :=
  t.env.trace = s.env.trace ++ es ∧ t.pinl = es.foldl latch s.pinl ∧ t.inflight = true ∧ t.seq = some q ∧ KeepsHostSide s t ∧
    CapsReturn t

/-- The state `s` is at the start of microprogram step `upc`, and every capability call returns. -/
def AtStep (s : State) (upc : Nat) (src : Src) : Prop :=
  s.inflight = true ∧ s.seq = some { upc := upc, cnt := 0, src := src } ∧ CapsReturn s

/-! ### Lines (R113, R114) -/

/-- The points a line draws, in order, from the given registers on, at most `n` of them (R113). -/
def linePoints : Nat → LineRegs → List (Int × Int)
  | 0, _ => []
  | n + 1, l => (l.x, l.y) :: (if lineAtEnd l then [] else linePoints n (lineAdvance l))

/-- The points of `draw_line x1, y1, x2, y2`, in order. -/
def lineOf (x1 y1 x2 y2 : Int) : List (Int × Int) :=
  linePoints (lineCount (lineStart x1 y1 x2 y2)) (lineStart x1 y1 x2 y2)

/-! ### Runs -/

/-- `n` steps, stopping at the first fault or refusal. -/
def runFor : Nat → State → Answer
  | 0, s => .next s
  | n + 1, s => andThen (step s) (runFor n)

end Sys2Proof.Machine
end

