-- ==== Sys2Proof/Certificates/Slice0/Obligations.lean ====
section
/-!
DEFINITION. The statements for the provers, from the numbered rules of spec/. Each docstring names the rule.
-/

open Sys2Proof Sys2Proof.Machine

/-! ### Encoding -/

/-- R89, R94: the decoder and the encoder agree on all 22 instructions and on every code word. -/
def Obligations.CodeWordsRoundTrip : Prop :=
  (∀ i : Instr, decode (encode i) = some i) ∧ ∀ (c : Code) (i : Instr), decode c = some i → encode i = c

/-- R89, R94: some words of the spec's tables, written out bit by bit. -/
def Obligations.WrittenOutWordsDecode : Prop :=
  decode (.frame 0b000000000#9) = some .panelSet ∧ decode (.frame 0b001010000#9) = some .vcomCdi ∧
    decode (.frame 0b001110001#9) = some .status ∧ decode (.frame 0b110100101#9) = some (.data 0xA5#8) ∧
    decode (.host 0b001#3) = some .drawLine ∧ decode (.host 0b100#3) = some .updateScreen

/-- R95 (b), (c): a frame with D = 0 is an instruction exactly when its byte is one of the thirteen codes; a frame with D = 1 is a
data byte, whatever the byte. -/
def Obligations.OnlyTheThirteenCodesAreCommands : Prop :=
  ∀ (fw : FrameWord),
    (frameD fw = false → ((decodeFrame fw).isSome = true ↔
      frameValue fw ∈ [0x00#8, 0x01#8, 0x02#8, 0x04#8, 0x07#8, 0x10#8, 0x12#8, 0x13#8, 0x15#8, 0x50#8, 0x60#8, 0x61#8, 0x71#8])) ∧
    (frameD fw = true → decodeFrame fw = some (.data (frameValue fw)))

/-- R86: the two buffer bytes of a 9-bit transfer, sent first byte first and most significant bit first, begin with the nine bits
of the frame word; the last seven bits are 0. The layout is the spec's own decision (D14). -/
def Obligations.NineBitBufferIsLeftAligned : Prop :=
  ∀ fw : FrameWord, ∃ b0 b1 : Byte, packFrame fw = [b0, b1] ∧
    byteBits b0 ++ byteBits b1 = (List.range 9).map (fun k => fw.getLsbD (8 - k)) ++ List.replicate 7 false

/-! ### Reset and the step -/

/-- R30, R260: after reset TXERR and INFLIGHT are 0, the sequence is idle, no event has been emitted, and a framebuffer byte reads
as its free value. The reset state is the spec's own decision (D24); that an unspecified byte is a free value is log 1, that a
step with no request changes nothing log 15, both the model's. -/
def Obligations.ResetLeavesTheBlockIdle : Prop :=
  State.reset.txerr = false ∧ State.reset.inflight = false ∧ State.reset.seq = none ∧ State.reset.env.trace = [] ∧
    (∀ a, memRead State.reset.fb a = Config.fbReset a) ∧ step State.reset = .next State.reset

/-- The invariant holds at reset. -/
def Obligations.ResetMeetsTheInvariant : Prop := Inv State.reset

/-- Every step from a state that meets the invariant leads to one that meets it (R24, R25, R56). Its parts are the spec's but for
two of the model's own: the canonical form of memory, a matter of how the model lists bytes, and CNT 0 in rows without bytes (log
29). -/
def Obligations.EveryStepKeepsTheInvariant : Prop :=
  ∀ s t : State, Inv s → step s = .next t → Inv t

/-- A step runs the decoded instruction: a fetched code word that decodes to `i` makes the step `exec i`, on the state the fetch
gives. What is fetched is the model's reading (R93 while idle, R172 in flight): that requests come from a list is log 14, that
frames are instructions of the sequencer log 12, and that a step is one of them log 11. -/
def Obligations.StepRunsTheDecodedInstruction : Prop :=
  ∀ (s t : State) (c : Code) (i : Instr), fetch s = .code c t → decode c = some i → step s = exec i t

/-- With nothing in flight the block takes the next request, whose record it loads into OP, A and C, and executes the operation
`OP` selects (R93, R94); with no request the step changes nothing (R260: the block waits). That the requests stand in a list whose
first is taken is the model's choice (log 14, DESIGN CHOICE), that waiting is a step which changes nothing its reading (log 15,
DEDUCED), and that OP, A and C hold the record from then on log 32 (DESIGN CHOICE). -/
def Obligations.IdleStepTakesTheNextRequest : Prop :=
  ∀ s : State, s.inflight = false →
    (s.env.requests = [] → step s = .next s) ∧
    (∀ r rest, s.env.requests = r :: rest →
      ∃ i, decodeHost r.op = some i ∧ step s = exec i ((s.setReq r).setRequests rest))

/-- In flight, the step performs what R172 has at `UPC`: the frame of a command or of the next data byte, executed as the
instruction it is; in a wait, one status poll; the reset pin's level or a delay; a payload with no byte left sends nothing. R172's
step is a whole row; that a step of the model is one frame, event or poll is its choice (log 11, DESIGN CHOICE), as are that
frames are instructions (log 12), that a payload row with no byte takes a step of its own (log 29) and that a position at or above
31 completes at the next step (log 20). -/
def Obligations.StepPerformsTheMicroprogram : Prop :=
  ∀ (s : State) (q : SeqPos), s.inflight = true → s.seq = some q →
    (∀ b, micro s.cfg q.src q.upc = .command b →
      ∃ i, i.isCommand = true ∧ decodeFrame (frameWord b true) = some i ∧ step s = exec i s) ∧
    (∀ p, micro s.cfg q.src q.upc = .payload p → q.cnt < payloadLen p →
      step s = exec (.data (payloadByte s.fb q.cnt p)) s) ∧
    (∀ p, micro s.cfg q.src q.upc = .payload p → payloadLen p ≤ q.cnt → step s = .next (advance s)) ∧
    (micro s.cfg q.src q.upc = .wait → step s = exec .status s) ∧
    (∀ l, micro s.cfg q.src q.upc = .drive l → CapsReturn s →
      step s = .next (advance (record [.gw .rst l] s))) ∧
    (∀ d, micro s.cfg q.src q.upc = .delay d → CapsReturn s →
      step s = .next (advance (record [.dly d (s.cfg.duration d)] s))) ∧
    (micro s.cfg q.src q.upc = .terminal → step s = .next ((s.setInflight false).setSeq none))

/-- A word that the opcode table gives an instruction, placed with `withFetchWord`, is the one the next step executes. This is
about the model's own placement, not a rule of the spec: where a word is placed is log 17 and how its bits are numbered log 18
(both DESIGN CHOICE); the codes are those of R89 and R94. -/
def Obligations.PlacedWordIsTheNextExecuted : Prop :=
  ∀ (s : State) (nbits w : Nat) (i : Instr), 0 < s.cfg.n → decodeTableWord nbits w = some i →
    ∃ t, step (s.withFetchWord nbits w) = exec i t ∧ t.cfg = s.cfg ∧ t.env.trace = s.env.trace

/-! ### Rules about the whole machine -/

/-- R28, R270: no step writes the configuration. -/
def Obligations.ConfigurationNeverChanges : Prop :=
  ∀ s t : State, step s = .next t → t.cfg = s.cfg

/-- R13, R60, R152, R242: a step only adds events to the trace, and only events that the transport mode allows. That DC is not
written in 3-wire modes is the spec's own decision (D13). -/
def Obligations.StepsAddOnlyEventsOfTheMode : Prop :=
  ∀ s t : State, step s = .next t →
    ∃ es, t.env.trace = s.env.trace ++ es ∧ ∀ e ∈ es, eventLegal s.cfg e = true

/-- R26: a latch holds the level of the last write of its pin: the latches follow the events a step adds. -/
def Obligations.LatchesFollowTheTrace : Prop :=
  ∀ s t : State, step s = .next t →
    ∃ es, t.env.trace = s.env.trace ++ es ∧ t.pinl = es.foldl latch s.pinl

/-- R25: TXERR is sticky, and in software modes no step sets it. The flag is the spec's own rendering (D16). -/
def Obligations.TransmitErrorIsSticky : Prop :=
  ∀ s t : State, step s = .next t →
    (s.txerr = true → t.txerr = true) ∧ (s.cfg.mode.isSw = true → t.txerr = s.txerr)

/-- R24: in flight, a step leaves the position where it is (a poll that finds the panel not ready), or raises CNT by one inside a
step with more bytes, or raises UPC by one with CNT 0, or ends the operation after index 30. SRC never changes. That a step is one
byte or one poll is the model's choice (logs 11 and 13), as is CNT 0 in rows without bytes (log 29). -/
def Obligations.PositionMovesByOne : Prop :=
  ∀ (s t : State) (q : SeqPos), Inv s → s.seq = some q → step s = .next t →
    (t.inflight = true ∧ t.seq = some q ∧ micro s.cfg q.src q.upc = .wait) ∨
    (t.inflight = true ∧ t.seq = some { upc := q.upc, cnt := q.cnt + 1, src := q.src } ∧ q.cnt + 1 < stepLen s) ∨
    (t.inflight = true ∧ t.seq = some { upc := q.upc + 1, cnt := 0, src := q.src } ∧ q.upc < 30) ∨
    (t.inflight = false ∧ t.seq = none ∧ q.upc = 30)

/-- R170, R171, R180: while an update or clean is in flight, no step writes the framebuffer, RES, the request registers or the
line registers. That the request registers keep the taken record meanwhile is the model's choice (log 32): R20 gives them to the
host. That no later request is taken meanwhile is log 14. -/
def Obligations.OperationInFlightLeavesTheHostSide : Prop :=
  ∀ s t : State, s.inflight = true → step s = .next t → KeepsHostSide s t

/-- R21: "later changes of the request registers do not affect a running operation": a step in flight does the same whatever they
hold. -/
def Obligations.RequestRegistersDoNotReachARunningOperation : Prop :=
  ∀ (s t : State) (r : Request), s.inflight = true → step s = .next t → step (s.setReq r) = .next (t.setReq r)

/-- R95, U5: from a state that meets the invariant, the only refusals are of a request taken while idle: a reserved code, or any
operation on a configuration that is not legal. That no step in flight is refused is the model's choice of log 14: a request waits
until the operation has ended (presented to `exec` in flight it is refused, as R237 says). That pins, capabilities and resolution
bytes count among what makes a configuration illegal is log 16. -/
def Obligations.StepRefusesOnlyRequests : Prop :=
  ∀ (s : State) (r : Refusal), Inv s → step s = .refused r →
    s.inflight = false ∧ ∃ q rest, s.env.requests = q :: rest ∧
      ((r = .reservedOp q.op ∧ (q.op = 0b110#3 ∨ q.op = 0b111#3)) ∨ (r = .illegalCfg ∧ cfgLegal s.cfg = false))

/-- R230: a step ends in a fault only when a capability call does not return, or when a `map_value` request has `in_hi = in_lo`.
That Aborted, a call that never returns and the division by zero are faults of a step is the model's rendering of R230's outcomes
(logs 7 and 10); that a failing call is planned in the state is log 6. -/
def Obligations.EveryFaultHasItsCause : Prop :=
  ∀ (s : State) (f : Fault), step s = .fault f →
    (s.inflight = true ∧ ∃ k how, s.env.capFail = some (k, how)) ∨
    (s.inflight = false ∧ ∃ q rest, s.env.requests = q :: rest ∧ q.op = 0b011#3 ∧ q.a2 = q.a1)

/-! ### Framebuffer operations -/

/-- R110: an in-range `set_pixel` writes the colour to bit `7 - x mod 8` of byte `y * (WIDTH / 8) + x div 8`, and nothing else;
out of range it changes nothing. -/
def Obligations.SetPixelWritesOneBit : Prop :=
  ∀ s : State, Accepts s → memWf s.fb = true →
    ∃ t, exec .setPixel s = .next t ∧
      (if 0 ≤ operand s 0 ∧ operand s 0 < s.cfg.width ∧ 0 ≤ operand s 1 ∧ operand s 1 < s.cfg.height then
        t = s.setFb t.fb ∧
        ∀ a b : Nat, b < 8 → (memRead t.fb a).getLsbD b =
          if a = (operand s 1).toNat * (s.cfg.width / 8) + (operand s 0).toNat / 8 ∧ b = 7 - (operand s 0).toNat % 8
          then decide (s.req.c = 1#1) else (memRead s.fb a).getLsbD b
      else t = s)

/-- R111, whose last three laws the rule marks as derived from R110 and R53: what was written reads back; other in-range pixels
keep their colour; out of range changes nothing; twice is once; writes of two different in-range pixels commute. -/
def Obligations.SetPixelObeysItsLaws : Prop :=
  ∀ (s : State) (x y x' y' : Int) (col col' : Color), cfgLegal s.cfg = true → memWf s.fb = true →
    (inRange s.cfg x y = true → pixel (setPixelAt x y col s) x y = colorBit col) ∧
    (inRange s.cfg x y = false → setPixelAt x y col s = s) ∧
    (inRange s.cfg x y = true → inRange s.cfg x' y' = true → (x, y) ≠ (x', y') →
      pixel (setPixelAt x y col s) x' y' = pixel s x' y') ∧
    setPixelAt x y col (setPixelAt x y col s) = setPixelAt x y col s ∧
    (inRange s.cfg x y = true → inRange s.cfg x' y' = true → (x, y) ≠ (x', y') →
      setPixelAt x' y' col' (setPixelAt x y col s) = setPixelAt x y col (setPixelAt x' y' col' s))

/-- R53: the pixel map is a bijection between the in-range pixels and the bits of `FB[0..N-1]`. -/
def Obligations.PixelMapIsABijection : Prop :=
  ∀ c : Cfg, cfgLegal c = true →
    (∀ x y : Int, inRange c x y = true → pixelIdx c x y < c.n ∧ pixelBit x < 8) ∧
    (∀ x y x' y' : Int, inRange c x y = true → inRange c x' y' = true →
      pixelIdx c x y = pixelIdx c x' y' → pixelBit x = pixelBit x' → x = x' ∧ y = y') ∧
    (∀ a b : Nat, a < c.n → b < 8 → ∃ x y : Int, inRange c x y = true ∧ pixelIdx c x y = a ∧ pixelBit x = b)

/-- R113, R114: `draw_line` calls `set_pixel` on the points of the Bresenham recurrence, one after another, and changes no register
but its own working ones; after exactly `max(|dx|, |dy|)` advances it is at the end point, and never before, and ERR stays below
`2 * max(|dx|, |dy|)` in magnitude. The strict comparisons and the signs are the spec's own choice (D8; log 25), the number of
advances and the bound of ERR what R114 derives. -/
def Obligations.DrawLineFollowsTheRecurrence : Prop :=
  ∀ s : State, Accepts s →
    ∃ (t : State) (X Y E : Nat → Int), exec .drawLine s = .next t ∧ KeepsBusSide s t ∧ t.res = s.res ∧
      X 0 = operand s 0 ∧ Y 0 = operand s 1 ∧
      E 0 = ((operand s 2 - operand s 0).natAbs : Int) - (operand s 3 - operand s 1).natAbs ∧
      (∀ k, X (k + 1) = if 2 * E k > -((operand s 3 - operand s 1).natAbs : Int)
        then X k + (if operand s 0 < operand s 2 then 1 else -1) else X k) ∧
      (∀ k, Y (k + 1) = if 2 * E k < ((operand s 2 - operand s 0).natAbs : Int)
        then Y k + (if operand s 1 < operand s 3 then 1 else -1) else Y k) ∧
      (∀ k, E (k + 1) = E k - (if 2 * E k > -((operand s 3 - operand s 1).natAbs : Int)
          then ((operand s 3 - operand s 1).natAbs : Int) else 0)
        + (if 2 * E k < ((operand s 2 - operand s 0).natAbs : Int) then ((operand s 2 - operand s 0).natAbs : Int) else 0)) ∧
      (∀ k, k ≤ max (operand s 2 - operand s 0).natAbs (operand s 3 - operand s 1).natAbs →
        ((X k = operand s 2 ∧ Y k = operand s 3) ↔
          k = max (operand s 2 - operand s 0).natAbs (operand s 3 - operand s 1).natAbs) ∧
        (0 < max (operand s 2 - operand s 0).natAbs (operand s 3 - operand s 1).natAbs →
          (E k).natAbs < 2 * max (operand s 2 - operand s 0).natAbs (operand s 3 - operand s 1).natAbs)) ∧
      t.fb = ((List.range (max (operand s 2 - operand s 0).natAbs (operand s 3 - operand s 1).natAbs + 1)).foldl
        (fun u k => setPixelAt (X k) (Y k) (colorOperand s) u) s).fb

/-- R114: a line has `max(|dx|, |dy|) + 1` points, the first and the last are its end points, and all lie in their bounding box.
The recurrence behind the points is log 25 (D8). -/
def Obligations.LinePointsSpanTheBox : Prop :=
  ∀ x1 y1 x2 y2 : Int,
    (lineOf x1 y1 x2 y2).length = max (x2 - x1).natAbs (y2 - y1).natAbs + 1 ∧
    (lineOf x1 y1 x2 y2).head? = some (x1, y1) ∧ (lineOf x1 y1 x2 y2).getLast? = some (x2, y2) ∧
    ∀ p ∈ lineOf x1 y1 x2 y2, min x1 x2 ≤ p.1 ∧ p.1 ≤ max x1 x2 ∧ min y1 y2 ≤ p.2 ∧ p.2 ≤ max y1 y2

/-- R114: horizontal, vertical and exact-diagonal lines advance the same way at every step. The signs are D8's (log 25). -/
def Obligations.StraightLinesAdvanceEvenly : Prop :=
  ∀ x1 y1 x2 y2 : Int,
    (y1 = y2 → lineOf x1 y1 x2 y2 =
      (List.range ((x2 - x1).natAbs + 1)).map fun k : Nat => (x1 + lineSign x1 x2 * (k : Int), y1)) ∧
    (x1 = x2 → lineOf x1 y1 x2 y2 =
      (List.range ((y2 - y1).natAbs + 1)).map fun k : Nat => (x1, y1 + lineSign y1 y2 * (k : Int))) ∧
    ((x2 - x1).natAbs = (y2 - y1).natAbs → lineOf x1 y1 x2 y2 =
      (List.range ((x2 - x1).natAbs + 1)).map fun k : Nat => (x1 + lineSign x1 x2 * (k : Int), y1 + lineSign y1 y2 * (k : Int)))

/-- R115: a line and its reverse draw the same points when it is horizontal, vertical or an exact diagonal. Other lines need not:
(0,0) to (2,1) and back differ, as the spec's own strict comparisons have it (D8; log 25); but they may: (0,0) to (3,1) is not
straight, and has the points of its reverse (V15). -/
def Obligations.StraightLinesAreSymmetricOthersNeedNotBe : Prop :=
  (∀ x1 y1 x2 y2 : Int, x1 = x2 ∨ y1 = y2 ∨ (x2 - x1).natAbs = (y2 - y1).natAbs →
    ∀ p, p ∈ lineOf x1 y1 x2 y2 ↔ p ∈ lineOf x2 y2 x1 y1) ∧
  lineOf 0 0 2 1 = [(0, 0), (1, 0), (2, 1)] ∧ lineOf 2 1 0 0 = [(2, 1), (1, 1), (0, 0)] ∧
  ∀ p, p ∈ lineOf 0 0 3 1 ↔ p ∈ lineOf 3 1 0 0

/-- R113: after `draw_line` an in-range pixel has the colour when it is a point of the line, and its old colour otherwise. Which
points a line has is the recurrence of log 25 (D8). -/
def Obligations.DrawLinePaintsExactlyItsPoints : Prop :=
  ∀ s : State, Accepts s → memWf s.fb = true →
    ∃ t, exec .drawLine s = .next t ∧
      ∀ x y : Int, inRange s.cfg x y = true →
        ((x, y) ∈ lineOf (operand s 0) (operand s 1) (operand s 2) (operand s 3) → pixel t x y = colorBit (colorOperand s)) ∧
        ((x, y) ∉ lineOf (operand s 0) (operand s 1) (operand s 2) (operand s 3) → pixel t x y = pixel s x y)

/-- R116: `fill` leaves in every byte what `set_pixel` on every pixel of the coordinate space leaves there, that is 0xFF for BLACK
and 0x00 for WHITE in `FB[0..N-1]`, whatever they held; nothing else changes. -/
def Obligations.FillSetsEveryByte : Prop :=
  ∀ s : State, Accepts s → memWf s.fb = true →
    ∃ t, exec .fill s = .next t ∧ t = s.setFb t.fb ∧
      (∀ a, memRead t.fb a = memRead (fillPixels (colorOperand s) s).fb a) ∧
      ∀ a, memRead t.fb a = if a < s.cfg.n then (if s.req.c = 1#1 then 0xFF#8 else 0x00#8) else memRead s.fb a

/-- R118, R119: `map_value` leaves the exact value of the formula in RES, read as a signed 36-bit number, and changes nothing
else. The formula is the spec's own choice (D9; R118 marks it as general knowledge, not in the source; log 25). -/
def Obligations.MapValueIsExact : Prop :=
  ∀ s : State, Accepts s → operand s 2 ≠ operand s 1 →
    ∃ t, exec .mapValue s = .next t ∧ t = s.setRes t.res ∧
      t.res.toInt =
        ((operand s 0 - operand s 1) * (operand s 4 - operand s 3)).tdiv (operand s 2 - operand s 1) + operand s 3

/-- R236, which marks the fault as the spec's own decision (D9): `map_value` with `in_hi = in_lo` faults; in the state it leaves,
only RES and the count of free values differ. That the fault carries a state, in which RES is the next free value and the count
one higher, is the model's choice (log 10); the statement does not say which value RES has. -/
def Obligations.MapValueDividingByZeroFaults : Prop :=
  ∀ s : State, Accepts s → operand s 2 = operand s 1 →
    ∃ l, exec .mapValue s = .fault (.mapDivideByZero l) ∧ (l.setRes s.res).setFree s.env.free = s

/-- R110, R113, R116, R118: the frame of the four operations that send nothing: no event, no pin, no flag, no position, no request
register; RES only by `map_value`, the framebuffer only by the three drawing operations, the line registers only by `draw_line`. A
byte of the framebuffer changes only where an in-range pixel of the operation lies; an out-of-range `set_pixel` changes none. That
the request registers keep the record is the model's choice (log 32). -/
def Obligations.DrawingFrame : Prop :=
  ∀ s t : State, memWf s.fb = true →
    (exec .setPixel s = .next t → KeepsBusSide s t ∧ t.res = s.res ∧ t.line = s.line ∧ t.env.free = s.env.free ∧
      ∀ a, (inRange s.cfg (operand s 0) (operand s 1) = true → a ≠ pixelIdx s.cfg (operand s 0) (operand s 1)) →
        memRead t.fb a = memRead s.fb a) ∧
    (exec .drawLine s = .next t → KeepsBusSide s t ∧ t.res = s.res ∧
      ∀ a, (∀ p ∈ lineOf (operand s 0) (operand s 1) (operand s 2) (operand s 3),
          inRange s.cfg p.1 p.2 = true → a ≠ pixelIdx s.cfg p.1 p.2) → memRead t.fb a = memRead s.fb a) ∧
    (exec .fill s = .next t → KeepsBusSide s t ∧ t.res = s.res ∧ t.line = s.line ∧ t.env.free = s.env.free ∧
      ∀ a, s.cfg.n ≤ a → memRead t.fb a = memRead s.fb a) ∧
    (exec .mapValue s = .next t → KeepsBusSide s t ∧ t.fb = s.fb ∧ t.line = s.line ∧ t.env.free = s.env.free)

/-- R237, R268: while INFLIGHT = 1 each of the six host operations is refused. The refusal is the spec's own decision (D27); that
presenting one is `exec` of it, while a request waiting in the list is not presented in flight, is the model's choice (log 14). -/
def Obligations.HostOperationsAreRefusedInFlight : Prop :=
  ∀ s : State, s.inflight = true →
    ∀ i ∈ [Instr.setPixel, .drawLine, .fill, .mapValue, .updateScreen, .cleanScreen], exec i s = .refused .busy

/-- R95 (a): the two reserved codes are refused in every state. -/
def Obligations.ReservedCodesAreRefused : Prop :=
  ∀ s : State, exec .reserved6 s = .refused (.reservedOp 0b110#3) ∧ exec .reserved7 s = .refused (.reservedOp 0b111#3)

/-- On a configuration that is not legal each of the six host operations is refused. This is the model's reading (log 16,
DEDUCED): U5 refuses a configuration whose WIDTH or HEIGHT is outside R6; that the refusal comes when an operation is presented,
and that pins, capabilities (R8, R28) and resolution bytes (R92) count as well, is the model's. -/
def Obligations.IllegalConfigurationIsRefused : Prop :=
  ∀ s : State, s.inflight = false → cfgLegal s.cfg = false →
    ∀ i ∈ [Instr.setPixel, .drawLine, .fill, .mapValue, .updateScreen, .cleanScreen], exec i s = .refused .illegalCfg

/-! ### Transport and Command Channel -/

/-- R132 to R135, R137: `write_byte` emits exactly the events of its mode; in hardware modes a TX that fails sets TXERR, in
software modes TXERR stays. The places of the delays in a bit cell (R131, D10), the one chip-select bracket of SW3 (R135, D12) and
TXERR itself (R137, D16) are the spec's own decisions. -/
def Obligations.WriteByteEmitsItsFrame : Prop :=
  ∀ (s : State) (v : Byte) (b : Bool), CapsReturn s →
    ∃ t, writeByte v b s = .next t ∧ FrameSent s t (byteTrace s.cfg v b) ∧ t.inflight = s.inflight ∧ t.seq = s.seq

/-- R150, R151, R152: `write_command` and `write_data` write DC first in 4-wire modes (LOW, HIGH), on every call, and never in
3-wire modes; then comes the byte. That DC is never written in 3-wire modes is the spec's own decision (D13). -/
def Obligations.CommandChannelBracketsTheByte : Prop :=
  ∀ (s : State) (v : Byte), CapsReturn s →
    (∃ t, writeCommand v s = .next t ∧
      FrameSent s t ((if s.cfg.mode.is3wire then [] else [.gw .dc .low]) ++ byteTrace s.cfg v true)) ∧
    (∃ t, writeData v s = .next t ∧
      FrameSent s t ((if s.cfg.mode.is3wire then [] else [.gw .dc .high]) ++ byteTrace s.cfg v false))

/-- R138 (the byte), R154 (the calls, which the rule derives): a byte is 1, 1, 50 or 56 events, a command or data call 2, 1, 51 or
56, in the modes HW4, HW3, SW4, SW3. The numbers count the delays of D10 and the chip-select bracket of D12. -/
def Obligations.EventCountsByMode : Prop :=
  ∀ (s : State) (v : Byte) (b : Bool), CapsReturn s →
    (∃ t, writeByte v b s = .next t ∧ t.env.trace.length = s.env.trace.length +
      (match s.cfg.mode with | .hw4 => 1 | .hw3 => 1 | .sw4 => 50 | .sw3 => 56)) ∧
    (∃ t, writeCommand v s = .next t ∧ t.env.trace.length = s.env.trace.length +
      (match s.cfg.mode with | .hw4 => 2 | .hw3 => 1 | .sw4 => 51 | .sw3 => 56)) ∧
    (∃ t, writeData v s = .next t ∧ t.env.trace.length = s.env.trace.length +
      (match s.cfg.mode with | .hw4 => 2 | .hw3 => 1 | .sw4 => 51 | .sw3 => 56))

/-- R139: after a software-mode byte SCK is HIGH, CS inactive, and SDA has the level of bit 0. -/
def Obligations.LineLevelsAfterASoftwareByte : Prop :=
  ∀ (s : State) (v : Byte) (b : Bool), CapsReturn s → s.cfg.mode.isSw = true →
    ∃ t, writeByte v b s = .next t ∧ t.pinl.sck = .high ∧ t.pinl.cs = s.cfg.csActive.other ∧
      t.pinl.sda = Level.ofBit (v.getLsbD 0)

/-- R83, R136: the wire carries `ser(MODE, value, is_command)`: in software modes as the SDA levels at the rising clock edges, in
hardware modes as the bits of the one TX, most significant first. -/
def Obligations.WireCarriesTheSerialBits : Prop :=
  ∀ (s : State) (v : Byte) (b : Bool), CapsReturn s →
    ∃ (t : State) (es : List Event), writeByte v b s = .next t ∧ t.env.trace = s.env.trace ++ es ∧
      (match s.cfg.mode with
       | .hw4 => ∃ x : Byte, es = [.tx8 x] ∧ byteBits x = serialBits .hw4 v b
       | .hw3 => ∃ x : FrameWord, es = [.tx9 x] ∧ (List.range 9).map (fun k => x.getLsbD (8 - k)) = serialBits .hw3 v b
       | .sw4 => ∀ l, sampled l es = (serialBits .sw4 v b).map Level.ofBit
       | .sw3 => ∀ l, sampled l es = (serialBits .sw3 v b).map Level.ofBit)

/-! ### Frames -/

/-- R200 to R211: each command frame but STATUS sends its own code and completes its step of the microprogram. That a frame is an
instruction which completes its row, and moves no position when nothing is in flight, is the model's choice (log 12). -/
def Obligations.CommandFramesSendTheirCode : Prop :=
  SendsCommand .panelSet 0x00#8 ∧ SendsCommand .pwrSet 0x01#8 ∧ SendsCommand .pwrOff 0x02#8 ∧ SendsCommand .pwrOn 0x04#8 ∧
    SendsCommand .deepSleep 0x07#8 ∧ SendsCommand .dataOld 0x10#8 ∧ SendsCommand .refresh 0x12#8 ∧
    SendsCommand .dataNew 0x13#8 ∧ SendsCommand .panelSet2 0x15#8 ∧ SendsCommand .vcomCdi 0x50#8 ∧
    SendsCommand .tconSet 0x60#8 ∧ SendsCommand .resSet 0x61#8

/-- R213: the data frame sends its byte and moves CNT on, or completes the step at the step's length (R24). That a frame is an
instruction which moves CNT, and moves no position when nothing is in flight, is the model's choice (log 12). -/
def Obligations.DataFrameSendsItsByte : Prop :=
  ∀ (s : State) (d : Byte), CapsReturn s →
    ∃ t, exec (.data d) s = .next t ∧ FrameSent s t (dataTrace s.cfg d) ∧ (t.inflight, t.seq) = afterByte s

/-- R160, R212: the poll sends 0x71 and reads BUSY; at READY_LEVEL the step is complete, with no delay after it; otherwise one
`DLY(T_POLL)` follows (D18) and the position stays. That the instruction STATUS means this whole poll, the busy read and the delay
with the frame, is the model's reading (log 13, DEDUCED). -/
def Obligations.StatusPollsOnce : Prop :=
  ∀ s : State, CapsReturn s →
    ∃ (t : State) (l : Level), exec .status s = .next t ∧ KeepsHostSide s t ∧ CapsReturn t ∧ t.txerr = txerrAfterFrame s ∧
      (∀ x rest, s.env.busyIn = x :: rest → l = x ∧ t.env.busyIn = rest) ∧
      (if l = s.cfg.readyLevel then
        t.env.trace = s.env.trace ++ (commandTrace s.cfg 0x71#8 ++ [.gr .busy l]) ∧ (t.inflight, t.seq) = afterStep s
      else
        t.env.trace = s.env.trace ++ (commandTrace s.cfg 0x71#8 ++ [.gr .busy l, .dly .tPoll (s.cfg.duration .tPoll)]) ∧
          t.inflight = s.inflight ∧ t.seq = s.seq)

/-- R160, R163: a wait whose first ready answer is the one after `k` that are not takes `k + 1` polls, emits the status commands,
the reads and the delays between them, and moves on; `k + 1` commands and reads and `k` delays in all (R163 derives the counts;
that the delay follows every poll that is not ready is D18). That a poll is one step, so that the wait takes `k + 1` steps, is the
model's choice (logs 11 and 13). -/
def Obligations.WaitEndsAtTheFirstReadyPoll : Prop :=
  ∀ (s : State) (q : SeqPos) (k : Nat) (rest : List Level), s.inflight = true → s.seq = some q →
    micro s.cfg q.src q.upc = .wait → CapsReturn s → s.env.busyIn = waitAnswers s.cfg k ++ rest →
    ∃ t, runFor (k + 1) s = .next t ∧ Reached s t (waitTrace s.cfg k) { upc := q.upc + 1, cnt := 0, src := q.src } ∧
      t.env.busyIn = rest ∧
      (waitTrace s.cfg k).length =
        (k + 1) * ((match s.cfg.mode with | .hw4 => 2 | .hw3 => 1 | .sw4 => 51 | .sw3 => 56) + 1) + k

/-- R199: no frame reads or writes the request, result and line registers or writes the framebuffer or the configuration. -/
def Obligations.FramesLeaveTheHostSide : Prop :=
  ∀ (i : Instr) (s t : State), (i.isCommand = true ∨ ∃ d, i = .data d) → exec i s = .next t → KeepsHostSide s t

/-! ### The protocol -/

/-- R170, R171: `update_screen` and `clean_screen` are accepted: INFLIGHT 1, UPC 0, SRC the framebuffer or white; nothing else.
That the acceptance is a step of its own, before row 0, is the model's choice (log 11). -/
def Obligations.ScreenOperationsAreAccepted : Prop :=
  ∀ s : State, Accepts s →
    exec .updateScreen s = .next { s with inflight := true, seq := some { upc := 0, cnt := 0, src := .fb } } ∧
    exec .cleanScreen s = .next { s with inflight := true, seq := some { upc := 0, cnt := 0, src := .white } }

/-- R173: RESET is four steps, `GW(RST, LOW) DLY(T_RST_LOW) GW(RST, HIGH) DLY(T_RST_HIGH)`, and leaves RST HIGH. That each of the
four events is a step is the model's choice (log 11). -/
def Obligations.ResetStatePulsesThePanel : Prop :=
  ∀ (s : State) (src : Src), AtStep s 0 src →
    ∃ t, runFor 4 s = .next t ∧ Reached s t (resetTrace s.cfg) { upc := 4, cnt := 0, src := src } ∧ t.pinl.rst = .high ∧
      t.env.busyIn = s.env.busyIn

/-- R174: POWER_CONFIG sends the power setting packet and the power-on command, then waits. That it sends this packet and no other
is the spec's own decision (D23). -/
def Obligations.PowerConfigSendsItsPackets : Prop :=
  ∀ (s : State) (src : Src) (k : Nat) (rest : List Level), AtStep s 4 src →
    s.env.busyIn = waitAnswers s.cfg k ++ rest →
    ∃ n t, runFor n s = .next t ∧ Reached s t (powerTrace s.cfg k) { upc := 8, cnt := 0, src := src } ∧ t.env.busyIn = rest

/-- R175, R172: PANEL_CONFIG sends its five packets, with no wait and no delay of its own. Their order is the spec's own decision
(D22). -/
def Obligations.PanelConfigSendsItsPackets : Prop :=
  ∀ (s : State) (src : Src), AtStep s 8 src →
    ∃ n t, runFor n s = .next t ∧ Reached s t (panelTrace s.cfg) { upc := 18, cnt := 0, src := src } ∧
      t.env.busyIn = s.env.busyIn

/-- R176: IMAGE_TRANSFER sends N zero bytes after 0x10, then after 0x13 the framebuffer's N bytes in index order (update) or N zero
bytes (clean). -/
def Obligations.ImageTransferSendsEveryByte : Prop :=
  ∀ (s : State) (src : Src), AtStep s 18 src →
    ∃ n t, runFor n s = .next t ∧ Reached s t (imageTrace s.cfg s.fb src) { upc := 22, cnt := 0, src := src } ∧
      t.env.busyIn = s.env.busyIn

/-- R177: REFRESH sends the refresh command, asks for the settle time, then waits. -/
def Obligations.RefreshSettlesThenWaits : Prop :=
  ∀ (s : State) (src : Src) (k : Nat) (rest : List Level), AtStep s 22 src →
    s.env.busyIn = waitAnswers s.cfg k ++ rest →
    ∃ n t, runFor n s = .next t ∧ Reached s t (refreshTrace s.cfg k) { upc := 25, cnt := 0, src := src } ∧ t.env.busyIn = rest

/-- R178, R180: SLEEP sends its packets and completes the operation: INFLIGHT 0, the position discarded. -/
def Obligations.SleepCompletesTheOperation : Prop :=
  ∀ (s : State) (src : Src) (k : Nat) (rest : List Level), AtStep s 25 src →
    s.env.busyIn = waitAnswers s.cfg k ++ rest →
    ∃ n t, runFor n s = .next t ∧ t.env.trace = s.env.trace ++ sleepTrace s.cfg k ∧ t.inflight = false ∧ t.seq = none ∧
      KeepsHostSide s t ∧ t.env.busyIn = rest

/-- R170, R171, R172, R180: a requested update (or clean), whose three waits see `k1`, `k2`, `k3` polls that find the panel not
ready and then one that finds it ready, with every capability call returning, runs to completion; its events are the whole
sequence, the framebuffer is unchanged, and the latches rest as R180 says. The order of the PANEL_CONFIG packets is D22, the one
power packet D23, the place of the poll delay D18, all the spec's own. That the request is taken from a list is log 14, and that
OP, A and C hold it at the end (`t.req = r`) log 32, both the model's choices. -/
def Obligations.WholeOperationEmitsTheSequence : Prop :=
  ∀ (s : State) (r : Request) (more : List Request) (src : Src) (k1 k2 k3 : Nat) (rest : List Level),
    Accepts s → CapsReturn s → s.env.requests = r :: more →
    r.op = (match src with | .fb => 0b100#3 | .white => 0b101#3) →
    s.env.busyIn = waitAnswers s.cfg k1 ++ (waitAnswers s.cfg k2 ++ (waitAnswers s.cfg k3 ++ rest)) →
    ∃ n t, runFor n s = .next t ∧ t.env.trace = s.env.trace ++ screenTrace s.cfg s.fb src k1 k2 k3 ∧
      t.inflight = false ∧ t.seq = none ∧ t.fb = s.fb ∧ t.res = s.res ∧ t.cfg = s.cfg ∧ t.req = r ∧
      t.env.requests = more ∧ t.env.busyIn = rest ∧ t.pinl.rst = .high ∧
      (s.cfg.mode.is3wire = false → t.pinl.dc = .high) ∧
      (s.cfg.mode.isSw = true → t.pinl.cs = s.cfg.csActive.other ∧ t.pinl.sck = .high ∧ t.pinl.sda = .high)

/-- R182: the counts of a completed operation: two writes of the reset pin, the busy reads, the delays outside bit cells, and the
events of all its command and data frames. The waits see `k1`, `k2`, `k3` answers that are not ready. R182 derives the counts; the
poll delays are those of D18. -/
def Obligations.WholeOperationCounts : Prop :=
  ∀ (s : State) (src : Src) (k1 k2 k3 : Nat) (rest : List Level), AtStep s 0 src →
    s.env.busyIn = waitAnswers s.cfg k1 ++ (waitAnswers s.cfg k2 ++ (waitAnswers s.cfg k3 ++ rest)) →
    ∃ n t es, runFor n s = .next t ∧ t.inflight = false ∧ t.env.trace = s.env.trace ++ es ∧
      es.countP isResetWrite = 2 ∧ es.countP isBusyRead = (k1 + 1) + (k2 + 1) + (k3 + 1) ∧
      es.countP isStepDelay = 3 + k1 + k2 + k3 ∧
      es.length = 2 + ((k1 + 1) + (k2 + 1) + (k3 + 1)) + (3 + k1 + k2 + k3) +
        (match s.cfg.mode with | .hw4 => 2 | .hw3 => 1 | .sw4 => 51 | .sw3 => 56) *
          ((13 + (k1 + 1) + (k2 + 1) + (k3 + 1)) +
            (s.cfg.pwrPayload.length + 1 + 4 + s.cfg.p15Payload.length + 2 + s.cfg.tconPayload.length +
              s.cfg.n + s.cfg.n + 1 + 1))

/-- R171: on a framebuffer of zero bytes an update and a clean emit the same events under the same answers. The white byte is
D29's. That the two runs are compared step by step is the model's step size (log 11). -/
def Obligations.UpdateAndCleanAgreeOnWhite : Prop :=
  ∀ (s t u : State) (n : Nat), (∀ a, a < s.cfg.n → memRead s.fb a = 0x00#8) →
    runFor n (acceptScreen .fb s) = .next t → runFor n (acceptScreen .white s) = .next u →
    t.env.trace = u.env.trace ∧ t.inflight = u.inflight ∧ t.txerr = u.txerr

/-- R162: while every busy read answers not ready, a wait repeats its three-part pattern and never leaves its step: after `n` steps
the operation is still in flight at the same position. That `n` steps make `n` polls is the model's step size (logs 11 and 13). -/
def Obligations.UnreadyPanelHoldsTheOperation : Prop :=
  ∀ (s : State) (q : SeqPos) (n : Nat) (rest : List Level), s.inflight = true → s.seq = some q →
    micro s.cfg q.src q.upc = .wait → CapsReturn s → s.env.busyIn = List.replicate n (notReady s.cfg) ++ rest →
    ∃ t, runFor n s = .next t ∧
      Reached s t (List.replicate n (commandTrace s.cfg 0x71#8 ++
        [.gr .busy (notReady s.cfg), .dly .tPoll (s.cfg.duration .tPoll)])).flatten q

/-! ### Aborts -/

/-- R181, R238: a step that aborts was in flight; it leaves INFLIGHT 0 and no position. Kept are the configuration, the
framebuffer, RES, the request and line registers and the requests waiting; TXERR may only rise, and in software modes stays;
events are only added, and the latches follow them. That the call set to fail is used up is the model's choice (log 7). SHR, BITN
and the answers are not kept. That the request registers keep the record is log 32. -/
def Obligations.AbortDiscardsTheOperation : Prop :=
  ∀ s l : State, step s = .fault (.aborted l) →
    s.inflight = true ∧ l.inflight = false ∧ l.seq = none ∧ KeepsHostSide s l ∧ CapsReturn l ∧
      (s.txerr = true → l.txerr = true) ∧ (s.cfg.mode.isSw = true → l.txerr = s.txerr) ∧
      ∃ es, l.env.trace = s.env.trace ++ es ∧ l.pinl = es.foldl latch s.pinl

/-- R181, R238: when the call after `k` of its events does not return normally, a frame's trace ends after those `k` events, and
the frame aborts or the run is stuck there: the data frame; the twelve command frames; STATUS, with the level `l` its busy read
answers; and, in flight, a step of the sequencer's own, the reset pin's level or a delay. That the failing call's own event is not
among those in the trace is the model's reading (log 8, DEDUCED); that a call which never returns is a fault carrying the state is
log 7. With no busy answer scripted the statement leaves `l` open, so it does not fix whether a poll delay was there to fail. -/
def Obligations.FailingCallCutsTheFrame : Prop :=
  ∀ s : State,
    (∀ d : Byte, CutsOff (exec (.data d)) s (dataTrace s.cfg d)) ∧
    (∀ p ∈ [(Instr.panelSet, 0x00#8), (.pwrSet, 0x01#8), (.pwrOff, 0x02#8), (.pwrOn, 0x04#8), (.deepSleep, 0x07#8),
        (.dataOld, 0x10#8), (.refresh, 0x12#8), (.dataNew, 0x13#8), (.panelSet2, 0x15#8), (.vcomCdi, 0x50#8), (.tconSet, 0x60#8),
        (.resSet, 0x61#8)],
      CutsOff (exec p.1) s (commandTrace s.cfg p.2)) ∧
    (∃ l : Level, (∀ x rest, s.env.busyIn = x :: rest → l = x) ∧
      CutsOff (exec .status) s (commandTrace s.cfg 0x71#8 ++ [.gr .busy l] ++
        (if l = s.cfg.readyLevel then [] else [.dly .tPoll (s.cfg.duration .tPoll)]))) ∧
    (∀ q : SeqPos, s.inflight = true → s.seq = some q →
      (∀ l, micro s.cfg q.src q.upc = .drive l → CutsOff step s [.gw .rst l]) ∧
      (∀ d, micro s.cfg q.src q.upc = .delay d → CutsOff step s [.dly d (s.cfg.duration d)]))

/-- R181, R243: the state an abort leaves accepts the next update or clean, which begins at step 0. That the abort's state is
carried by a fault, and the failing call used up, is log 7; that the request waits in a list log 14. -/
def Obligations.RestartAfterAnAbort : Prop :=
  ∀ (s l : State) (r : Request) (more : List Request), step s = .fault (.aborted l) → cfgLegal s.cfg = true →
    s.env.requests = r :: more →
    (r.op = 0b100#3 → ∃ t, step l = .next t ∧ t.inflight = true ∧ t.seq = some { upc := 0, cnt := 0, src := .fb }) ∧
    (r.op = 0b101#3 → ∃ t, step l = .next t ∧ t.inflight = true ∧ t.seq = some { upc := 0, cnt := 0, src := .white })

/-- R23, R134, R135, R238: in a software mode a run that is stuck after `k` events of a byte shows the frame in SHR and, in BITN,
the bits left: all of them less the cells completed, a cell being six events after the one that asserts chip-select. Right
alignment, and that BITN counts down after a cell's last event, are the model's choices (log 22); that a call which never returns
is a stuck state is log 7. -/
def Obligations.BitnCountsTheBitsLeft : Prop :=
  ∀ (s : State) (v : Byte) (b : Bool) (k : Nat), s.cfg.mode.isSw = true → k < (byteTrace s.cfg v b).length →
    s.env.capFail = some (k, .neverReturns) →
    ∃ l, writeByte v b s = .fault (.stuck l) ∧ l.env.trace = s.env.trace ++ (byteTrace s.cfg v b).take k ∧
      (s.cfg.mode.is3wire = true → l.shr = BitVec.ofBool (!b) ++ v) ∧
      (s.cfg.mode.is3wire = false → l.shr.setWidth 8 = v) ∧
      l.bitn.toNat = (serialBits s.cfg.mode v b).length - (k - 1) / 6
end

