-- ==== Sys2Proof/Laws/Frame.lean ====
section
/-!
SUPPORT. The frame word: taking it apart gives what it was assembled from (30_encoding.md R80, R90).
-/

namespace Sys2Proof

@[simp] theorem frameD_frameWord (v : Byte) (isCommand : Bool) : frameD (frameWord v isCommand) = !isCommand := by
  cases isCommand <;> revert v <;> decide

@[simp] theorem frameValue_frameWord (v : Byte) (isCommand : Bool) : frameValue (frameWord v isCommand) = v := by
  cases isCommand <;> revert v <;> decide

/-- A frame word is assembled from its own parts. -/
theorem frameWord_parts (fw : FrameWord) : frameWord (frameValue fw) (!frameD fw) = fw := by
  revert fw; decide

/-- A data frame decodes to its byte, whatever the byte (R213). -/
theorem decodeFrame_data (d : Byte) : decodeFrame (frameWord d false) = some (.data d) := by
  simp [decodeFrame]

/-- A command frame decodes by the table of command codes (R89). -/
theorem decodeFrame_command (b : Byte) : decodeFrame (frameWord b true) = commandTable.lookup b := by
  simp [decodeFrame]

/-- Every host operation code is one of the eight rows (R94, R95). -/
theorem decodeHost_isSome (op : OpCode) : ∃ i, decodeHost op = some i := by
  have h : ∀ op, (decodeHost op).isSome = true := by decide
  exact Option.isSome_iff_exists.1 (h op)

end Sys2Proof
end

