-- ==== Sys2Proof/Laws/State.lean ====
section
/-!
SUPPORT. One lemma for each field under each update: an update writes its own field and no other.
-/

namespace Sys2Proof.Machine

variable (s : State)

/-! setFb -/
@[simp] theorem State.setFb_cfg (v : Memory) : (s.setFb v).cfg = s.cfg := rfl
@[simp] theorem State.setFb_fb (v : Memory) : (s.setFb v).fb = v := rfl
@[simp] theorem State.setFb_txerr (v : Memory) : (s.setFb v).txerr = s.txerr := rfl
@[simp] theorem State.setFb_inflight (v : Memory) : (s.setFb v).inflight = s.inflight := rfl
@[simp] theorem State.setFb_req (v : Memory) : (s.setFb v).req = s.req := rfl
@[simp] theorem State.setFb_res (v : Memory) : (s.setFb v).res = s.res := rfl
@[simp] theorem State.setFb_seq (v : Memory) : (s.setFb v).seq = s.seq := rfl
@[simp] theorem State.setFb_line (v : Memory) : (s.setFb v).line = s.line := rfl
@[simp] theorem State.setFb_shr (v : Memory) : (s.setFb v).shr = s.shr := rfl
@[simp] theorem State.setFb_bitn (v : Memory) : (s.setFb v).bitn = s.bitn := rfl
@[simp] theorem State.setFb_pinl (v : Memory) : (s.setFb v).pinl = s.pinl := rfl
@[simp] theorem State.setFb_trace (v : Memory) : (s.setFb v).env.trace = s.env.trace := rfl
@[simp] theorem State.setFb_requests (v : Memory) : (s.setFb v).env.requests = s.env.requests := rfl
@[simp] theorem State.setFb_busyIn (v : Memory) : (s.setFb v).env.busyIn = s.env.busyIn := rfl
@[simp] theorem State.setFb_txIn (v : Memory) : (s.setFb v).env.txIn = s.env.txIn := rfl
@[simp] theorem State.setFb_capFail (v : Memory) : (s.setFb v).env.capFail = s.env.capFail := rfl
@[simp] theorem State.setFb_free (v : Memory) : (s.setFb v).env.free = s.env.free := rfl

/-! setTxerr -/
@[simp] theorem State.setTxerr_cfg (v : Bool) : (s.setTxerr v).cfg = s.cfg := rfl
@[simp] theorem State.setTxerr_fb (v : Bool) : (s.setTxerr v).fb = s.fb := rfl
@[simp] theorem State.setTxerr_txerr (v : Bool) : (s.setTxerr v).txerr = v := rfl
@[simp] theorem State.setTxerr_inflight (v : Bool) : (s.setTxerr v).inflight = s.inflight := rfl
@[simp] theorem State.setTxerr_req (v : Bool) : (s.setTxerr v).req = s.req := rfl
@[simp] theorem State.setTxerr_res (v : Bool) : (s.setTxerr v).res = s.res := rfl
@[simp] theorem State.setTxerr_seq (v : Bool) : (s.setTxerr v).seq = s.seq := rfl
@[simp] theorem State.setTxerr_line (v : Bool) : (s.setTxerr v).line = s.line := rfl
@[simp] theorem State.setTxerr_shr (v : Bool) : (s.setTxerr v).shr = s.shr := rfl
@[simp] theorem State.setTxerr_bitn (v : Bool) : (s.setTxerr v).bitn = s.bitn := rfl
@[simp] theorem State.setTxerr_pinl (v : Bool) : (s.setTxerr v).pinl = s.pinl := rfl
@[simp] theorem State.setTxerr_trace (v : Bool) : (s.setTxerr v).env.trace = s.env.trace := rfl
@[simp] theorem State.setTxerr_requests (v : Bool) : (s.setTxerr v).env.requests = s.env.requests := rfl
@[simp] theorem State.setTxerr_busyIn (v : Bool) : (s.setTxerr v).env.busyIn = s.env.busyIn := rfl
@[simp] theorem State.setTxerr_txIn (v : Bool) : (s.setTxerr v).env.txIn = s.env.txIn := rfl
@[simp] theorem State.setTxerr_capFail (v : Bool) : (s.setTxerr v).env.capFail = s.env.capFail := rfl
@[simp] theorem State.setTxerr_free (v : Bool) : (s.setTxerr v).env.free = s.env.free := rfl

/-! setInflight -/
@[simp] theorem State.setInflight_cfg (v : Bool) : (s.setInflight v).cfg = s.cfg := rfl
@[simp] theorem State.setInflight_fb (v : Bool) : (s.setInflight v).fb = s.fb := rfl
@[simp] theorem State.setInflight_txerr (v : Bool) : (s.setInflight v).txerr = s.txerr := rfl
@[simp] theorem State.setInflight_inflight (v : Bool) : (s.setInflight v).inflight = v := rfl
@[simp] theorem State.setInflight_req (v : Bool) : (s.setInflight v).req = s.req := rfl
@[simp] theorem State.setInflight_res (v : Bool) : (s.setInflight v).res = s.res := rfl
@[simp] theorem State.setInflight_seq (v : Bool) : (s.setInflight v).seq = s.seq := rfl
@[simp] theorem State.setInflight_line (v : Bool) : (s.setInflight v).line = s.line := rfl
@[simp] theorem State.setInflight_shr (v : Bool) : (s.setInflight v).shr = s.shr := rfl
@[simp] theorem State.setInflight_bitn (v : Bool) : (s.setInflight v).bitn = s.bitn := rfl
@[simp] theorem State.setInflight_pinl (v : Bool) : (s.setInflight v).pinl = s.pinl := rfl
@[simp] theorem State.setInflight_trace (v : Bool) : (s.setInflight v).env.trace = s.env.trace := rfl
@[simp] theorem State.setInflight_requests (v : Bool) : (s.setInflight v).env.requests = s.env.requests := rfl
@[simp] theorem State.setInflight_busyIn (v : Bool) : (s.setInflight v).env.busyIn = s.env.busyIn := rfl
@[simp] theorem State.setInflight_txIn (v : Bool) : (s.setInflight v).env.txIn = s.env.txIn := rfl
@[simp] theorem State.setInflight_capFail (v : Bool) : (s.setInflight v).env.capFail = s.env.capFail := rfl
@[simp] theorem State.setInflight_free (v : Bool) : (s.setInflight v).env.free = s.env.free := rfl

/-! setReq -/
@[simp] theorem State.setReq_cfg (v : Request) : (s.setReq v).cfg = s.cfg := rfl
@[simp] theorem State.setReq_fb (v : Request) : (s.setReq v).fb = s.fb := rfl
@[simp] theorem State.setReq_txerr (v : Request) : (s.setReq v).txerr = s.txerr := rfl
@[simp] theorem State.setReq_inflight (v : Request) : (s.setReq v).inflight = s.inflight := rfl
@[simp] theorem State.setReq_req (v : Request) : (s.setReq v).req = v := rfl
@[simp] theorem State.setReq_res (v : Request) : (s.setReq v).res = s.res := rfl
@[simp] theorem State.setReq_seq (v : Request) : (s.setReq v).seq = s.seq := rfl
@[simp] theorem State.setReq_line (v : Request) : (s.setReq v).line = s.line := rfl
@[simp] theorem State.setReq_shr (v : Request) : (s.setReq v).shr = s.shr := rfl
@[simp] theorem State.setReq_bitn (v : Request) : (s.setReq v).bitn = s.bitn := rfl
@[simp] theorem State.setReq_pinl (v : Request) : (s.setReq v).pinl = s.pinl := rfl
@[simp] theorem State.setReq_trace (v : Request) : (s.setReq v).env.trace = s.env.trace := rfl
@[simp] theorem State.setReq_requests (v : Request) : (s.setReq v).env.requests = s.env.requests := rfl
@[simp] theorem State.setReq_busyIn (v : Request) : (s.setReq v).env.busyIn = s.env.busyIn := rfl
@[simp] theorem State.setReq_txIn (v : Request) : (s.setReq v).env.txIn = s.env.txIn := rfl
@[simp] theorem State.setReq_capFail (v : Request) : (s.setReq v).env.capFail = s.env.capFail := rfl
@[simp] theorem State.setReq_free (v : Request) : (s.setReq v).env.free = s.env.free := rfl

/-! setRes -/
@[simp] theorem State.setRes_cfg (v : Result) : (s.setRes v).cfg = s.cfg := rfl
@[simp] theorem State.setRes_fb (v : Result) : (s.setRes v).fb = s.fb := rfl
@[simp] theorem State.setRes_txerr (v : Result) : (s.setRes v).txerr = s.txerr := rfl
@[simp] theorem State.setRes_inflight (v : Result) : (s.setRes v).inflight = s.inflight := rfl
@[simp] theorem State.setRes_req (v : Result) : (s.setRes v).req = s.req := rfl
@[simp] theorem State.setRes_res (v : Result) : (s.setRes v).res = v := rfl
@[simp] theorem State.setRes_seq (v : Result) : (s.setRes v).seq = s.seq := rfl
@[simp] theorem State.setRes_line (v : Result) : (s.setRes v).line = s.line := rfl
@[simp] theorem State.setRes_shr (v : Result) : (s.setRes v).shr = s.shr := rfl
@[simp] theorem State.setRes_bitn (v : Result) : (s.setRes v).bitn = s.bitn := rfl
@[simp] theorem State.setRes_pinl (v : Result) : (s.setRes v).pinl = s.pinl := rfl
@[simp] theorem State.setRes_trace (v : Result) : (s.setRes v).env.trace = s.env.trace := rfl
@[simp] theorem State.setRes_requests (v : Result) : (s.setRes v).env.requests = s.env.requests := rfl
@[simp] theorem State.setRes_busyIn (v : Result) : (s.setRes v).env.busyIn = s.env.busyIn := rfl
@[simp] theorem State.setRes_txIn (v : Result) : (s.setRes v).env.txIn = s.env.txIn := rfl
@[simp] theorem State.setRes_capFail (v : Result) : (s.setRes v).env.capFail = s.env.capFail := rfl
@[simp] theorem State.setRes_free (v : Result) : (s.setRes v).env.free = s.env.free := rfl

/-! setSeq -/
@[simp] theorem State.setSeq_cfg (v : Option SeqPos) : (s.setSeq v).cfg = s.cfg := rfl
@[simp] theorem State.setSeq_fb (v : Option SeqPos) : (s.setSeq v).fb = s.fb := rfl
@[simp] theorem State.setSeq_txerr (v : Option SeqPos) : (s.setSeq v).txerr = s.txerr := rfl
@[simp] theorem State.setSeq_inflight (v : Option SeqPos) : (s.setSeq v).inflight = s.inflight := rfl
@[simp] theorem State.setSeq_req (v : Option SeqPos) : (s.setSeq v).req = s.req := rfl
@[simp] theorem State.setSeq_res (v : Option SeqPos) : (s.setSeq v).res = s.res := rfl
@[simp] theorem State.setSeq_seq (v : Option SeqPos) : (s.setSeq v).seq = v := rfl
@[simp] theorem State.setSeq_line (v : Option SeqPos) : (s.setSeq v).line = s.line := rfl
@[simp] theorem State.setSeq_shr (v : Option SeqPos) : (s.setSeq v).shr = s.shr := rfl
@[simp] theorem State.setSeq_bitn (v : Option SeqPos) : (s.setSeq v).bitn = s.bitn := rfl
@[simp] theorem State.setSeq_pinl (v : Option SeqPos) : (s.setSeq v).pinl = s.pinl := rfl
@[simp] theorem State.setSeq_trace (v : Option SeqPos) : (s.setSeq v).env.trace = s.env.trace := rfl
@[simp] theorem State.setSeq_requests (v : Option SeqPos) : (s.setSeq v).env.requests = s.env.requests := rfl
@[simp] theorem State.setSeq_busyIn (v : Option SeqPos) : (s.setSeq v).env.busyIn = s.env.busyIn := rfl
@[simp] theorem State.setSeq_txIn (v : Option SeqPos) : (s.setSeq v).env.txIn = s.env.txIn := rfl
@[simp] theorem State.setSeq_capFail (v : Option SeqPos) : (s.setSeq v).env.capFail = s.env.capFail := rfl
@[simp] theorem State.setSeq_free (v : Option SeqPos) : (s.setSeq v).env.free = s.env.free := rfl

/-! setLine -/
@[simp] theorem State.setLine_cfg (v : LineRegs) : (s.setLine v).cfg = s.cfg := rfl
@[simp] theorem State.setLine_fb (v : LineRegs) : (s.setLine v).fb = s.fb := rfl
@[simp] theorem State.setLine_txerr (v : LineRegs) : (s.setLine v).txerr = s.txerr := rfl
@[simp] theorem State.setLine_inflight (v : LineRegs) : (s.setLine v).inflight = s.inflight := rfl
@[simp] theorem State.setLine_req (v : LineRegs) : (s.setLine v).req = s.req := rfl
@[simp] theorem State.setLine_res (v : LineRegs) : (s.setLine v).res = s.res := rfl
@[simp] theorem State.setLine_seq (v : LineRegs) : (s.setLine v).seq = s.seq := rfl
@[simp] theorem State.setLine_line (v : LineRegs) : (s.setLine v).line = v := rfl
@[simp] theorem State.setLine_shr (v : LineRegs) : (s.setLine v).shr = s.shr := rfl
@[simp] theorem State.setLine_bitn (v : LineRegs) : (s.setLine v).bitn = s.bitn := rfl
@[simp] theorem State.setLine_pinl (v : LineRegs) : (s.setLine v).pinl = s.pinl := rfl
@[simp] theorem State.setLine_trace (v : LineRegs) : (s.setLine v).env.trace = s.env.trace := rfl
@[simp] theorem State.setLine_requests (v : LineRegs) : (s.setLine v).env.requests = s.env.requests := rfl
@[simp] theorem State.setLine_busyIn (v : LineRegs) : (s.setLine v).env.busyIn = s.env.busyIn := rfl
@[simp] theorem State.setLine_txIn (v : LineRegs) : (s.setLine v).env.txIn = s.env.txIn := rfl
@[simp] theorem State.setLine_capFail (v : LineRegs) : (s.setLine v).env.capFail = s.env.capFail := rfl
@[simp] theorem State.setLine_free (v : LineRegs) : (s.setLine v).env.free = s.env.free := rfl

/-! setShr -/
@[simp] theorem State.setShr_cfg (v : BitVec 9) : (s.setShr v).cfg = s.cfg := rfl
@[simp] theorem State.setShr_fb (v : BitVec 9) : (s.setShr v).fb = s.fb := rfl
@[simp] theorem State.setShr_txerr (v : BitVec 9) : (s.setShr v).txerr = s.txerr := rfl
@[simp] theorem State.setShr_inflight (v : BitVec 9) : (s.setShr v).inflight = s.inflight := rfl
@[simp] theorem State.setShr_req (v : BitVec 9) : (s.setShr v).req = s.req := rfl
@[simp] theorem State.setShr_res (v : BitVec 9) : (s.setShr v).res = s.res := rfl
@[simp] theorem State.setShr_seq (v : BitVec 9) : (s.setShr v).seq = s.seq := rfl
@[simp] theorem State.setShr_line (v : BitVec 9) : (s.setShr v).line = s.line := rfl
@[simp] theorem State.setShr_shr (v : BitVec 9) : (s.setShr v).shr = v := rfl
@[simp] theorem State.setShr_bitn (v : BitVec 9) : (s.setShr v).bitn = s.bitn := rfl
@[simp] theorem State.setShr_pinl (v : BitVec 9) : (s.setShr v).pinl = s.pinl := rfl
@[simp] theorem State.setShr_trace (v : BitVec 9) : (s.setShr v).env.trace = s.env.trace := rfl
@[simp] theorem State.setShr_requests (v : BitVec 9) : (s.setShr v).env.requests = s.env.requests := rfl
@[simp] theorem State.setShr_busyIn (v : BitVec 9) : (s.setShr v).env.busyIn = s.env.busyIn := rfl
@[simp] theorem State.setShr_txIn (v : BitVec 9) : (s.setShr v).env.txIn = s.env.txIn := rfl
@[simp] theorem State.setShr_capFail (v : BitVec 9) : (s.setShr v).env.capFail = s.env.capFail := rfl
@[simp] theorem State.setShr_free (v : BitVec 9) : (s.setShr v).env.free = s.env.free := rfl

/-! setBitn -/
@[simp] theorem State.setBitn_cfg (v : BitVec 4) : (s.setBitn v).cfg = s.cfg := rfl
@[simp] theorem State.setBitn_fb (v : BitVec 4) : (s.setBitn v).fb = s.fb := rfl
@[simp] theorem State.setBitn_txerr (v : BitVec 4) : (s.setBitn v).txerr = s.txerr := rfl
@[simp] theorem State.setBitn_inflight (v : BitVec 4) : (s.setBitn v).inflight = s.inflight := rfl
@[simp] theorem State.setBitn_req (v : BitVec 4) : (s.setBitn v).req = s.req := rfl
@[simp] theorem State.setBitn_res (v : BitVec 4) : (s.setBitn v).res = s.res := rfl
@[simp] theorem State.setBitn_seq (v : BitVec 4) : (s.setBitn v).seq = s.seq := rfl
@[simp] theorem State.setBitn_line (v : BitVec 4) : (s.setBitn v).line = s.line := rfl
@[simp] theorem State.setBitn_shr (v : BitVec 4) : (s.setBitn v).shr = s.shr := rfl
@[simp] theorem State.setBitn_bitn (v : BitVec 4) : (s.setBitn v).bitn = v := rfl
@[simp] theorem State.setBitn_pinl (v : BitVec 4) : (s.setBitn v).pinl = s.pinl := rfl
@[simp] theorem State.setBitn_trace (v : BitVec 4) : (s.setBitn v).env.trace = s.env.trace := rfl
@[simp] theorem State.setBitn_requests (v : BitVec 4) : (s.setBitn v).env.requests = s.env.requests := rfl
@[simp] theorem State.setBitn_busyIn (v : BitVec 4) : (s.setBitn v).env.busyIn = s.env.busyIn := rfl
@[simp] theorem State.setBitn_txIn (v : BitVec 4) : (s.setBitn v).env.txIn = s.env.txIn := rfl
@[simp] theorem State.setBitn_capFail (v : BitVec 4) : (s.setBitn v).env.capFail = s.env.capFail := rfl
@[simp] theorem State.setBitn_free (v : BitVec 4) : (s.setBitn v).env.free = s.env.free := rfl

/-! setPinl -/
@[simp] theorem State.setPinl_cfg (v : PinLatches) : (s.setPinl v).cfg = s.cfg := rfl
@[simp] theorem State.setPinl_fb (v : PinLatches) : (s.setPinl v).fb = s.fb := rfl
@[simp] theorem State.setPinl_txerr (v : PinLatches) : (s.setPinl v).txerr = s.txerr := rfl
@[simp] theorem State.setPinl_inflight (v : PinLatches) : (s.setPinl v).inflight = s.inflight := rfl
@[simp] theorem State.setPinl_req (v : PinLatches) : (s.setPinl v).req = s.req := rfl
@[simp] theorem State.setPinl_res (v : PinLatches) : (s.setPinl v).res = s.res := rfl
@[simp] theorem State.setPinl_seq (v : PinLatches) : (s.setPinl v).seq = s.seq := rfl
@[simp] theorem State.setPinl_line (v : PinLatches) : (s.setPinl v).line = s.line := rfl
@[simp] theorem State.setPinl_shr (v : PinLatches) : (s.setPinl v).shr = s.shr := rfl
@[simp] theorem State.setPinl_bitn (v : PinLatches) : (s.setPinl v).bitn = s.bitn := rfl
@[simp] theorem State.setPinl_pinl (v : PinLatches) : (s.setPinl v).pinl = v := rfl
@[simp] theorem State.setPinl_trace (v : PinLatches) : (s.setPinl v).env.trace = s.env.trace := rfl
@[simp] theorem State.setPinl_requests (v : PinLatches) : (s.setPinl v).env.requests = s.env.requests := rfl
@[simp] theorem State.setPinl_busyIn (v : PinLatches) : (s.setPinl v).env.busyIn = s.env.busyIn := rfl
@[simp] theorem State.setPinl_txIn (v : PinLatches) : (s.setPinl v).env.txIn = s.env.txIn := rfl
@[simp] theorem State.setPinl_capFail (v : PinLatches) : (s.setPinl v).env.capFail = s.env.capFail := rfl
@[simp] theorem State.setPinl_free (v : PinLatches) : (s.setPinl v).env.free = s.env.free := rfl

/-! setTrace -/
@[simp] theorem State.setTrace_cfg (v : List Event) : (s.setTrace v).cfg = s.cfg := rfl
@[simp] theorem State.setTrace_fb (v : List Event) : (s.setTrace v).fb = s.fb := rfl
@[simp] theorem State.setTrace_txerr (v : List Event) : (s.setTrace v).txerr = s.txerr := rfl
@[simp] theorem State.setTrace_inflight (v : List Event) : (s.setTrace v).inflight = s.inflight := rfl
@[simp] theorem State.setTrace_req (v : List Event) : (s.setTrace v).req = s.req := rfl
@[simp] theorem State.setTrace_res (v : List Event) : (s.setTrace v).res = s.res := rfl
@[simp] theorem State.setTrace_seq (v : List Event) : (s.setTrace v).seq = s.seq := rfl
@[simp] theorem State.setTrace_line (v : List Event) : (s.setTrace v).line = s.line := rfl
@[simp] theorem State.setTrace_shr (v : List Event) : (s.setTrace v).shr = s.shr := rfl
@[simp] theorem State.setTrace_bitn (v : List Event) : (s.setTrace v).bitn = s.bitn := rfl
@[simp] theorem State.setTrace_pinl (v : List Event) : (s.setTrace v).pinl = s.pinl := rfl
@[simp] theorem State.setTrace_trace (v : List Event) : (s.setTrace v).env.trace = v := rfl
@[simp] theorem State.setTrace_requests (v : List Event) : (s.setTrace v).env.requests = s.env.requests := rfl
@[simp] theorem State.setTrace_busyIn (v : List Event) : (s.setTrace v).env.busyIn = s.env.busyIn := rfl
@[simp] theorem State.setTrace_txIn (v : List Event) : (s.setTrace v).env.txIn = s.env.txIn := rfl
@[simp] theorem State.setTrace_capFail (v : List Event) : (s.setTrace v).env.capFail = s.env.capFail := rfl
@[simp] theorem State.setTrace_free (v : List Event) : (s.setTrace v).env.free = s.env.free := rfl

/-! setRequests -/
@[simp] theorem State.setRequests_cfg (v : List Request) : (s.setRequests v).cfg = s.cfg := rfl
@[simp] theorem State.setRequests_fb (v : List Request) : (s.setRequests v).fb = s.fb := rfl
@[simp] theorem State.setRequests_txerr (v : List Request) : (s.setRequests v).txerr = s.txerr := rfl
@[simp] theorem State.setRequests_inflight (v : List Request) : (s.setRequests v).inflight = s.inflight := rfl
@[simp] theorem State.setRequests_req (v : List Request) : (s.setRequests v).req = s.req := rfl
@[simp] theorem State.setRequests_res (v : List Request) : (s.setRequests v).res = s.res := rfl
@[simp] theorem State.setRequests_seq (v : List Request) : (s.setRequests v).seq = s.seq := rfl
@[simp] theorem State.setRequests_line (v : List Request) : (s.setRequests v).line = s.line := rfl
@[simp] theorem State.setRequests_shr (v : List Request) : (s.setRequests v).shr = s.shr := rfl
@[simp] theorem State.setRequests_bitn (v : List Request) : (s.setRequests v).bitn = s.bitn := rfl
@[simp] theorem State.setRequests_pinl (v : List Request) : (s.setRequests v).pinl = s.pinl := rfl
@[simp] theorem State.setRequests_trace (v : List Request) : (s.setRequests v).env.trace = s.env.trace := rfl
@[simp] theorem State.setRequests_requests (v : List Request) : (s.setRequests v).env.requests = v := rfl
@[simp] theorem State.setRequests_busyIn (v : List Request) : (s.setRequests v).env.busyIn = s.env.busyIn := rfl
@[simp] theorem State.setRequests_txIn (v : List Request) : (s.setRequests v).env.txIn = s.env.txIn := rfl
@[simp] theorem State.setRequests_capFail (v : List Request) : (s.setRequests v).env.capFail = s.env.capFail := rfl
@[simp] theorem State.setRequests_free (v : List Request) : (s.setRequests v).env.free = s.env.free := rfl

/-! setBusyIn -/
@[simp] theorem State.setBusyIn_cfg (v : List Level) : (s.setBusyIn v).cfg = s.cfg := rfl
@[simp] theorem State.setBusyIn_fb (v : List Level) : (s.setBusyIn v).fb = s.fb := rfl
@[simp] theorem State.setBusyIn_txerr (v : List Level) : (s.setBusyIn v).txerr = s.txerr := rfl
@[simp] theorem State.setBusyIn_inflight (v : List Level) : (s.setBusyIn v).inflight = s.inflight := rfl
@[simp] theorem State.setBusyIn_req (v : List Level) : (s.setBusyIn v).req = s.req := rfl
@[simp] theorem State.setBusyIn_res (v : List Level) : (s.setBusyIn v).res = s.res := rfl
@[simp] theorem State.setBusyIn_seq (v : List Level) : (s.setBusyIn v).seq = s.seq := rfl
@[simp] theorem State.setBusyIn_line (v : List Level) : (s.setBusyIn v).line = s.line := rfl
@[simp] theorem State.setBusyIn_shr (v : List Level) : (s.setBusyIn v).shr = s.shr := rfl
@[simp] theorem State.setBusyIn_bitn (v : List Level) : (s.setBusyIn v).bitn = s.bitn := rfl
@[simp] theorem State.setBusyIn_pinl (v : List Level) : (s.setBusyIn v).pinl = s.pinl := rfl
@[simp] theorem State.setBusyIn_trace (v : List Level) : (s.setBusyIn v).env.trace = s.env.trace := rfl
@[simp] theorem State.setBusyIn_requests (v : List Level) : (s.setBusyIn v).env.requests = s.env.requests := rfl
@[simp] theorem State.setBusyIn_busyIn (v : List Level) : (s.setBusyIn v).env.busyIn = v := rfl
@[simp] theorem State.setBusyIn_txIn (v : List Level) : (s.setBusyIn v).env.txIn = s.env.txIn := rfl
@[simp] theorem State.setBusyIn_capFail (v : List Level) : (s.setBusyIn v).env.capFail = s.env.capFail := rfl
@[simp] theorem State.setBusyIn_free (v : List Level) : (s.setBusyIn v).env.free = s.env.free := rfl

/-! setTxIn -/
@[simp] theorem State.setTxIn_cfg (v : List Bool) : (s.setTxIn v).cfg = s.cfg := rfl
@[simp] theorem State.setTxIn_fb (v : List Bool) : (s.setTxIn v).fb = s.fb := rfl
@[simp] theorem State.setTxIn_txerr (v : List Bool) : (s.setTxIn v).txerr = s.txerr := rfl
@[simp] theorem State.setTxIn_inflight (v : List Bool) : (s.setTxIn v).inflight = s.inflight := rfl
@[simp] theorem State.setTxIn_req (v : List Bool) : (s.setTxIn v).req = s.req := rfl
@[simp] theorem State.setTxIn_res (v : List Bool) : (s.setTxIn v).res = s.res := rfl
@[simp] theorem State.setTxIn_seq (v : List Bool) : (s.setTxIn v).seq = s.seq := rfl
@[simp] theorem State.setTxIn_line (v : List Bool) : (s.setTxIn v).line = s.line := rfl
@[simp] theorem State.setTxIn_shr (v : List Bool) : (s.setTxIn v).shr = s.shr := rfl
@[simp] theorem State.setTxIn_bitn (v : List Bool) : (s.setTxIn v).bitn = s.bitn := rfl
@[simp] theorem State.setTxIn_pinl (v : List Bool) : (s.setTxIn v).pinl = s.pinl := rfl
@[simp] theorem State.setTxIn_trace (v : List Bool) : (s.setTxIn v).env.trace = s.env.trace := rfl
@[simp] theorem State.setTxIn_requests (v : List Bool) : (s.setTxIn v).env.requests = s.env.requests := rfl
@[simp] theorem State.setTxIn_busyIn (v : List Bool) : (s.setTxIn v).env.busyIn = s.env.busyIn := rfl
@[simp] theorem State.setTxIn_txIn (v : List Bool) : (s.setTxIn v).env.txIn = v := rfl
@[simp] theorem State.setTxIn_capFail (v : List Bool) : (s.setTxIn v).env.capFail = s.env.capFail := rfl
@[simp] theorem State.setTxIn_free (v : List Bool) : (s.setTxIn v).env.free = s.env.free := rfl

/-! setCapFail -/
@[simp] theorem State.setCapFail_cfg (v : Option (Nat × CapEnd)) : (s.setCapFail v).cfg = s.cfg := rfl
@[simp] theorem State.setCapFail_fb (v : Option (Nat × CapEnd)) : (s.setCapFail v).fb = s.fb := rfl
@[simp] theorem State.setCapFail_txerr (v : Option (Nat × CapEnd)) : (s.setCapFail v).txerr = s.txerr := rfl
@[simp] theorem State.setCapFail_inflight (v : Option (Nat × CapEnd)) : (s.setCapFail v).inflight = s.inflight := rfl
@[simp] theorem State.setCapFail_req (v : Option (Nat × CapEnd)) : (s.setCapFail v).req = s.req := rfl
@[simp] theorem State.setCapFail_res (v : Option (Nat × CapEnd)) : (s.setCapFail v).res = s.res := rfl
@[simp] theorem State.setCapFail_seq (v : Option (Nat × CapEnd)) : (s.setCapFail v).seq = s.seq := rfl
@[simp] theorem State.setCapFail_line (v : Option (Nat × CapEnd)) : (s.setCapFail v).line = s.line := rfl
@[simp] theorem State.setCapFail_shr (v : Option (Nat × CapEnd)) : (s.setCapFail v).shr = s.shr := rfl
@[simp] theorem State.setCapFail_bitn (v : Option (Nat × CapEnd)) : (s.setCapFail v).bitn = s.bitn := rfl
@[simp] theorem State.setCapFail_pinl (v : Option (Nat × CapEnd)) : (s.setCapFail v).pinl = s.pinl := rfl
@[simp] theorem State.setCapFail_trace (v : Option (Nat × CapEnd)) : (s.setCapFail v).env.trace = s.env.trace := rfl
@[simp] theorem State.setCapFail_requests (v : Option (Nat × CapEnd)) : (s.setCapFail v).env.requests = s.env.requests := rfl
@[simp] theorem State.setCapFail_busyIn (v : Option (Nat × CapEnd)) : (s.setCapFail v).env.busyIn = s.env.busyIn := rfl
@[simp] theorem State.setCapFail_txIn (v : Option (Nat × CapEnd)) : (s.setCapFail v).env.txIn = s.env.txIn := rfl
@[simp] theorem State.setCapFail_capFail (v : Option (Nat × CapEnd)) : (s.setCapFail v).env.capFail = v := rfl
@[simp] theorem State.setCapFail_free (v : Option (Nat × CapEnd)) : (s.setCapFail v).env.free = s.env.free := rfl

/-! setFree -/
@[simp] theorem State.setFree_cfg (v : Nat) : (s.setFree v).cfg = s.cfg := rfl
@[simp] theorem State.setFree_fb (v : Nat) : (s.setFree v).fb = s.fb := rfl
@[simp] theorem State.setFree_txerr (v : Nat) : (s.setFree v).txerr = s.txerr := rfl
@[simp] theorem State.setFree_inflight (v : Nat) : (s.setFree v).inflight = s.inflight := rfl
@[simp] theorem State.setFree_req (v : Nat) : (s.setFree v).req = s.req := rfl
@[simp] theorem State.setFree_res (v : Nat) : (s.setFree v).res = s.res := rfl
@[simp] theorem State.setFree_seq (v : Nat) : (s.setFree v).seq = s.seq := rfl
@[simp] theorem State.setFree_line (v : Nat) : (s.setFree v).line = s.line := rfl
@[simp] theorem State.setFree_shr (v : Nat) : (s.setFree v).shr = s.shr := rfl
@[simp] theorem State.setFree_bitn (v : Nat) : (s.setFree v).bitn = s.bitn := rfl
@[simp] theorem State.setFree_pinl (v : Nat) : (s.setFree v).pinl = s.pinl := rfl
@[simp] theorem State.setFree_trace (v : Nat) : (s.setFree v).env.trace = s.env.trace := rfl
@[simp] theorem State.setFree_requests (v : Nat) : (s.setFree v).env.requests = s.env.requests := rfl
@[simp] theorem State.setFree_busyIn (v : Nat) : (s.setFree v).env.busyIn = s.env.busyIn := rfl
@[simp] theorem State.setFree_txIn (v : Nat) : (s.setFree v).env.txIn = s.env.txIn := rfl
@[simp] theorem State.setFree_capFail (v : Nat) : (s.setFree v).env.capFail = s.env.capFail := rfl
@[simp] theorem State.setFree_free (v : Nat) : (s.setFree v).env.free = v := rfl

end Sys2Proof.Machine
end

