-- ==== Sys2Proof/Laws/Ops.lean ====
section
/-!
SUPPORT. What each shared operation can do, said once: capability calls, answers, the flags, the sequence position, the gate of the
host operations. Callers cite these and do not unfold the operations.
-/

namespace Sys2Proof.Machine

variable {s t : State} {es : List Event}

/-! ### Sequencing -/

@[simp] theorem andThen_next (s : State) (f : State → Answer) : andThen (.next s) f = f s := rfl
@[simp] theorem andThen_fault (r : Fault) (f : State → Answer) : andThen (.fault r) f = .fault r := rfl
@[simp] theorem andThen_refused (r : Refusal) (f : State → Answer) : andThen (.refused r) f = .refused r := rfl

/-- A sequence that answers a next state ran both parts. -/
theorem andThen_eq_next {a : Answer} {f : State → Answer} (h : andThen a f = .next t) :
    ∃ u, a = .next u ∧ f u = .next t := by
  cases a with
  | next u => exact ⟨u, rfl, h⟩
  | fault r => simp at h
  | refused r => simp at h

/-- A sequence that ends in a fault ended in its first part, or in its second. -/
theorem andThen_eq_fault {a : Answer} {f : State → Answer} {r : Fault} (h : andThen a f = .fault r) :
    a = .fault r ∨ ∃ u, a = .next u ∧ f u = .fault r := by
  cases a with
  | next u => exact .inr ⟨u, rfl, h⟩
  | fault q => exact .inl h
  | refused q => simp at h

/-! ### Recording events -/

@[simp] theorem record_cfg : (record es s).cfg = s.cfg := rfl
@[simp] theorem record_fb : (record es s).fb = s.fb := rfl
@[simp] theorem record_txerr : (record es s).txerr = s.txerr := rfl
@[simp] theorem record_inflight : (record es s).inflight = s.inflight := rfl
@[simp] theorem record_req : (record es s).req = s.req := rfl
@[simp] theorem record_res : (record es s).res = s.res := rfl
@[simp] theorem record_seq : (record es s).seq = s.seq := rfl
@[simp] theorem record_line : (record es s).line = s.line := rfl
@[simp] theorem record_shr : (record es s).shr = s.shr := rfl
@[simp] theorem record_bitn : (record es s).bitn = s.bitn := rfl
@[simp] theorem record_pinl : (record es s).pinl = es.foldl latch s.pinl := rfl
@[simp] theorem record_trace : (record es s).env.trace = s.env.trace ++ es := rfl
@[simp] theorem record_requests : (record es s).env.requests = s.env.requests := rfl
@[simp] theorem record_busyIn : (record es s).env.busyIn = s.env.busyIn := rfl
@[simp] theorem record_txIn : (record es s).env.txIn = s.env.txIn := rfl
@[simp] theorem record_capFail : (record es s).env.capFail = s.env.capFail := rfl
@[simp] theorem record_free : (record es s).env.free = s.env.free := rfl

/-- Recording nothing changes nothing. -/
@[simp] theorem record_nil (s : State) : record [] s = s := by simp [record, State.setPinl, State.setTrace]

/-- Recording in two parts is recording at once. -/
theorem record_append (es fs : List Event) (s : State) : record fs (record es s) = record (es ++ fs) s := by
  simp [record, State.setPinl, State.setTrace]

/-! ### Capability calls -/

/-- While every capability call returns, the calls are recorded and nothing else happens (R60). -/
theorem callAll_of_returns (es : List Event) (h : CapsReturn s) : callAll es s = .next (record es s) := by
  unfold CapsReturn at h
  simp [callAll, h]

/-- Calls that answer a next state recorded all their events; only the countdown to a failing call may have moved. -/
theorem callAll_eq_next (h : callAll es s = .next t) :
    ∃ f, t = (record es s).setCapFail f ∧ (CapsReturn s → f = none) := by
  unfold callAll at h
  split at h
  · rename_i hc
    cases h
    exact ⟨none, by rw [← hc]; rfl, fun _ => rfl⟩
  · rename_i k how hc
    split at h
    · cases h
      exact ⟨_, rfl, fun hn => by simp [CapsReturn, hc] at hn⟩
    · cases how <;> simp [capFault] at h

/-- No capability call is refused. -/
theorem callAll_ne_refused (es : List Event) (s : State) (r : Refusal) : callAll es s ≠ .refused r := by
  intro h
  unfold callAll at h
  split at h
  · cases h
  · rename_i k how hc
    split at h
    · cases h
    · cases how <;> simp [capFault] at h

/-- A call that aborts leaves the abort state after the events before it (R181). -/
theorem callAll_eq_aborted {l : State} (h : callAll es s = .fault (.aborted l)) :
    ∃ k, k < es.length ∧ s.env.capFail = some (k, .aborts) ∧
      l = abortState ((record (es.take k) s).setCapFail (some (0, .aborts))) := by
  unfold callAll at h
  split at h
  · cases h
  · rename_i k how hc
    split at h
    · cases h
    · cases how
      · simp only [capFault, Host.Outcome.fault.injEq, Fault.aborted.injEq] at h
        exact ⟨k, by omega, hc, h.symm⟩
      · simp [capFault] at h

/-! ### Free values -/

@[simp] theorem bumpFree_cfg : (bumpFree s).cfg = s.cfg := rfl
@[simp] theorem bumpFree_fb : (bumpFree s).fb = s.fb := rfl
@[simp] theorem bumpFree_txerr : (bumpFree s).txerr = s.txerr := rfl
@[simp] theorem bumpFree_inflight : (bumpFree s).inflight = s.inflight := rfl
@[simp] theorem bumpFree_req : (bumpFree s).req = s.req := rfl
@[simp] theorem bumpFree_res : (bumpFree s).res = s.res := rfl
@[simp] theorem bumpFree_seq : (bumpFree s).seq = s.seq := rfl
@[simp] theorem bumpFree_line : (bumpFree s).line = s.line := rfl
@[simp] theorem bumpFree_shr : (bumpFree s).shr = s.shr := rfl
@[simp] theorem bumpFree_bitn : (bumpFree s).bitn = s.bitn := rfl
@[simp] theorem bumpFree_pinl : (bumpFree s).pinl = s.pinl := rfl
@[simp] theorem bumpFree_trace : (bumpFree s).env.trace = s.env.trace := rfl
@[simp] theorem bumpFree_requests : (bumpFree s).env.requests = s.env.requests := rfl
@[simp] theorem bumpFree_busyIn : (bumpFree s).env.busyIn = s.env.busyIn := rfl
@[simp] theorem bumpFree_txIn : (bumpFree s).env.txIn = s.env.txIn := rfl
@[simp] theorem bumpFree_capFail : (bumpFree s).env.capFail = s.env.capFail := rfl
@[simp] theorem bumpFree_free : (bumpFree s).env.free = s.env.free + 1 := rfl

@[simp] theorem dropShift_cfg : (dropShift s).cfg = s.cfg := rfl
@[simp] theorem dropShift_fb : (dropShift s).fb = s.fb := rfl
@[simp] theorem dropShift_txerr : (dropShift s).txerr = s.txerr := rfl
@[simp] theorem dropShift_inflight : (dropShift s).inflight = s.inflight := rfl
@[simp] theorem dropShift_req : (dropShift s).req = s.req := rfl
@[simp] theorem dropShift_res : (dropShift s).res = s.res := rfl
@[simp] theorem dropShift_seq : (dropShift s).seq = s.seq := rfl
@[simp] theorem dropShift_line : (dropShift s).line = s.line := rfl
@[simp] theorem dropShift_pinl : (dropShift s).pinl = s.pinl := rfl
@[simp] theorem dropShift_trace : (dropShift s).env.trace = s.env.trace := rfl
@[simp] theorem dropShift_requests : (dropShift s).env.requests = s.env.requests := rfl
@[simp] theorem dropShift_busyIn : (dropShift s).env.busyIn = s.env.busyIn := rfl
@[simp] theorem dropShift_txIn : (dropShift s).env.txIn = s.env.txIn := rfl
@[simp] theorem dropShift_capFail : (dropShift s).env.capFail = s.env.capFail := rfl

@[simp] theorem dropLine_cfg : (dropLine s).cfg = s.cfg := rfl
@[simp] theorem dropLine_fb : (dropLine s).fb = s.fb := rfl
@[simp] theorem dropLine_txerr : (dropLine s).txerr = s.txerr := rfl
@[simp] theorem dropLine_inflight : (dropLine s).inflight = s.inflight := rfl
@[simp] theorem dropLine_req : (dropLine s).req = s.req := rfl
@[simp] theorem dropLine_res : (dropLine s).res = s.res := rfl
@[simp] theorem dropLine_seq : (dropLine s).seq = s.seq := rfl
@[simp] theorem dropLine_shr : (dropLine s).shr = s.shr := rfl
@[simp] theorem dropLine_bitn : (dropLine s).bitn = s.bitn := rfl
@[simp] theorem dropLine_pinl : (dropLine s).pinl = s.pinl := rfl
@[simp] theorem dropLine_trace : (dropLine s).env.trace = s.env.trace := rfl
@[simp] theorem dropLine_requests : (dropLine s).env.requests = s.env.requests := rfl
@[simp] theorem dropLine_busyIn : (dropLine s).env.busyIn = s.env.busyIn := rfl
@[simp] theorem dropLine_txIn : (dropLine s).env.txIn = s.env.txIn := rfl
@[simp] theorem dropLine_capFail : (dropLine s).env.capFail = s.env.capFail := rfl

/-! ### Taking an abort (R181, R238) -/

@[simp] theorem abortState_cfg : (abortState s).cfg = s.cfg := rfl
@[simp] theorem abortState_fb : (abortState s).fb = s.fb := rfl
@[simp] theorem abortState_txerr : (abortState s).txerr = s.txerr := rfl
@[simp] theorem abortState_req : (abortState s).req = s.req := rfl
@[simp] theorem abortState_res : (abortState s).res = s.res := rfl
@[simp] theorem abortState_line : (abortState s).line = s.line := rfl
@[simp] theorem abortState_pinl : (abortState s).pinl = s.pinl := rfl
@[simp] theorem abortState_trace : (abortState s).env.trace = s.env.trace := rfl
@[simp] theorem abortState_requests : (abortState s).env.requests = s.env.requests := rfl
@[simp] theorem abortState_busyIn : (abortState s).env.busyIn = s.env.busyIn := rfl
@[simp] theorem abortState_txIn : (abortState s).env.txIn = s.env.txIn := rfl
@[simp] theorem abortState_inflight : (abortState s).inflight = false := rfl
@[simp] theorem abortState_seq : (abortState s).seq = none := rfl
@[simp] theorem abortState_capFail : (abortState s).env.capFail = none := rfl

/-! ### The platform's answers -/

/-- Using up a TX answer moves on in the script, or to the next free value. -/
theorem dropTx_cases (s : State) :
    (∃ ok rest, s.env.txIn = ok :: rest ∧ dropTx s = s.setTxIn rest) ∨ (s.env.txIn = [] ∧ dropTx s = bumpFree s) := by
  unfold dropTx
  cases h : s.env.txIn with
  | nil => exact .inr ⟨rfl, rfl⟩
  | cons ok rest => exact .inl ⟨ok, rest, rfl, rfl⟩

/-- Using up a busy answer moves on in the script, or to the next free value. -/
theorem dropBusy_cases (s : State) :
    (∃ l rest, s.env.busyIn = l :: rest ∧ dropBusy s = s.setBusyIn rest) ∨
      (s.env.busyIn = [] ∧ dropBusy s = bumpFree s) := by
  unfold dropBusy
  cases h : s.env.busyIn with
  | nil => exact .inr ⟨rfl, rfl⟩
  | cons l rest => exact .inl ⟨l, rest, rfl, rfl⟩

/-- `TXERR` after a TX: set by a failure, else kept; nothing else but the answer's being used up (R137). -/
theorem noteTx_eq (s : State) : noteTx s = (dropTx s).setTxerr (s.txerr || !txAnswer s) := rfl

/-! ### The sequence position -/

/-- Moving to the next step changes the sequence position, and INFLIGHT at the end; nothing else (R24, R180). -/
theorem advance_cases (s : State) :
    (s.seq = none ∧ advance s = s) ∨
      (∃ q, s.seq = some q ∧ q.upc + 1 < terminalUpc ∧
        advance s = s.setSeq (some { upc := q.upc + 1, cnt := 0, src := q.src })) ∨
      (∃ q, s.seq = some q ∧ terminalUpc ≤ q.upc + 1 ∧ advance s = complete s) := by
  unfold advance
  cases h : s.seq with
  | none => exact .inl ⟨rfl, rfl⟩
  | some q =>
    by_cases hq : q.upc + 1 < terminalUpc
    · exact .inr (.inl ⟨q, rfl, hq, by simp [hq]⟩)
    · exact .inr (.inr ⟨q, rfl, by omega, by simp [hq]⟩)

/-- One byte of a step of `len` bytes: `CNT` counts up, or the step is complete (R24). -/
theorem advanceByte_cases (len : Nat) (s : State) :
    (∃ q, s.seq = some q ∧ q.cnt + 1 < len ∧
        advanceByte len s = s.setSeq (some { upc := q.upc, cnt := q.cnt + 1, src := q.src })) ∨
      advanceByte len s = advance s := by
  unfold advanceByte
  cases h : s.seq with
  | none => exact .inr (by simp [advance, h])
  | some q =>
    by_cases hq : q.cnt + 1 < len
    · exact .inl ⟨q, rfl, hq, by simp [hq]⟩
    · exact .inr (by simp [hq])

@[simp] theorem complete_cfg : (complete s).cfg = s.cfg := rfl
@[simp] theorem complete_fb : (complete s).fb = s.fb := rfl
@[simp] theorem complete_txerr : (complete s).txerr = s.txerr := rfl
@[simp] theorem complete_inflight : (complete s).inflight = false := rfl
@[simp] theorem complete_seq : (complete s).seq = none := rfl
@[simp] theorem complete_pinl : (complete s).pinl = s.pinl := rfl
@[simp] theorem complete_env : (complete s).env = s.env := rfl

/-! ### The gate of the host operations -/

/-- The block accepts: the operation runs (R237, R268). -/
theorem hostGate_of_accepts (go : State → Answer) (h : Accepts s) : hostGate s go = go s := by
  simp [hostGate, h.1, h.2]

/-- A host operation that answers a next state was accepted. -/
theorem hostGate_eq_next {go : State → Answer} (h : hostGate s go = .next t) : Accepts s ∧ go s = .next t := by
  unfold hostGate at h
  split at h
  · cases h
  · split at h
    · rename_i hi hc
      exact ⟨⟨by simpa using hi, hc⟩, h⟩
    · cases h

/-! ### One poll -/

/-- No call at all changes nothing. -/
theorem callAll_nil (s : State) : callAll [] s = .next s := by
  unfold callAll
  split
  · rw [record_nil]
  · rename_i k how h
    simp only [List.length_nil, Nat.zero_le, if_true, record_nil, Nat.sub_zero, ← h]
    rfl

/-- The two ends of a poll (R160): at READY_LEVEL the step is complete, otherwise a delay is asked for and nothing moves. -/
theorem pollBusy_eq (code : Byte) (s : State) :
    pollBusy code s = andThen (writeCommand code s) fun t =>
      andThen (callAll [.gr .busy (busyAnswer t)] t) fun u =>
        if busyAnswer t = (dropBusy u).cfg.readyLevel then .next (advance (dropBusy u))
        else callAll [delayEvent (dropBusy u).cfg .tPoll] (dropBusy u) := by
  have keep : ∀ a : Answer, (andThen a fun w => .next w) = a := fun a => by cases a <;> rfl
  unfold pollBusy
  refine congrArg _ (funext fun t => congrArg _ (funext fun u => ?_))
  by_cases h : busyAnswer t = (dropBusy u).cfg.readyLevel
  · simp [h, callAll_nil]
  · simp [h, keep]

end Sys2Proof.Machine
end

