-- ==== Sys2Proof/Laws/Transport.lean ====
section
/-!
SUPPORT. What `write_byte` does, said once for every plan of the capability calls: none fails, one fails after the byte, one fails
inside it. The events are those the rules list (`byteTrace`); BITN counts the bits left. Callers cite the `writeByte_…` lemmas.
-/

namespace Sys2Proof.Machine

variable {s t : State} {v : Byte} {b : Bool}

/-! ### The bits and the events of a loaded frame -/

/-- The `n` low bits of a frame, the most significant first (R54). -/
def lowBits (shr : BitVec 9) : Nat → List Bool
  | 0 => []
  | n + 1 => shr.getLsbD n :: lowBits shr n

/-- The bits of a loaded frame, and the byte of a 4-wire one (R81, R82). -/
theorem lowBits_frame (v : Byte) (D : Bool) : lowBits (frameWord v D) 9 = (!D) :: byteBits v ∧
    lowBits (0#1 ++ v) 8 = byteBits v ∧ frameValue (0#1 ++ v) = v := by
  cases D <;> revert v <;> decide

/-- The cells of the `n` bits left in `SHR`. -/
def cellsLeft (s : State) (n : Nat) : List Event := (lowBits s.shr n).flatMap (cell s.cfg)

theorem cellsLeft_length (s : State) (n : Nat) : (cellsLeft s n).length = 6 * n := by
  unfold cellsLeft
  induction n with
  | zero => rfl
  | succ n ih => rw [lowBits, List.flatMap_cons, List.length_append, ih]; simp only [cell, List.length_cons, List.length_nil]; omega

/-- The events of a software byte, as R134 and R135 list them. -/
theorem softEvents_loadFrame (h : s.cfg.mode.isSw = true) :
    byteTrace s.cfg v b = [Event.gw .cs s.cfg.csActive] ++
      cellsLeft (loadFrame v b s) (loadFrame v b s).bitn.toNat ++ [Event.gw .cs s.cfg.csActive.other] := by
  unfold cellsLeft loadFrame byteTrace
  cases hm : s.cfg.mode <;> simp [hm, Mode.isSw, Mode.is3wire] at h ⊢ <;>
    simp [(lowBits_frame v b).1, (lowBits_frame v b).2.1, byteBits, cell, cellTrace, delayEvent]

/-- The event of a hardware byte, as R132 and R133 give it. -/
theorem hardEvent_loadFrame (h : s.cfg.mode.isSw = false) : [hardEvent (loadFrame v b s)] = byteTrace s.cfg v b := by
  unfold hardEvent loadFrame byteTrace
  cases hm : s.cfg.mode <;> simp [hm, Mode.isSw, Mode.is3wire] at h ⊢ <;> simp [(lowBits_frame v b).2.2, frameWord]

/-- The events of a byte are its mode's. -/
theorem byteTrace_legal (c : Cfg) (v : Byte) (b : Bool) : ∀ e ∈ byteTrace c v b, eventLegal c e = true := by
  intro e he
  unfold byteTrace at he
  cases hm : c.mode <;>
    simp only [hm, List.mem_append, List.mem_flatMap, List.mem_cons, List.not_mem_nil, or_false, cellTrace] at he
  · subst he; simp [eventLegal, hm]
  · subst he; simp [eventLegal, hm]
  all_goals
    rcases he with (rfl | ⟨x, -, rfl | rfl | rfl | rfl | rfl | rfl⟩) | rfl <;> simp [eventLegal, hm, Mode.isSw]

/-! ### Loading -/

@[simp] theorem loadFrame_cfg : (loadFrame v b s).cfg = s.cfg := by unfold loadFrame; split <;> rfl
@[simp] theorem loadFrame_env : (loadFrame v b s).env = s.env := by unfold loadFrame; split <;> rfl
@[simp] theorem loadFrame_pinl : (loadFrame v b s).pinl = s.pinl := by unfold loadFrame; split <;> rfl
@[simp] theorem loadFrame_txerr : (loadFrame v b s).txerr = s.txerr := by unfold loadFrame; split <;> rfl
@[simp] theorem loadFrame_seq : (loadFrame v b s).seq = s.seq := by unfold loadFrame; split <;> rfl
@[simp] theorem loadFrame_inflight : (loadFrame v b s).inflight = s.inflight := by unfold loadFrame; split <;> rfl

/-- BITN as loaded: 9 bits in 3-wire modes, 8 in 4-wire modes (R23). -/
theorem loadFrame_bitn : (loadFrame v b s).bitn.toNat = if s.cfg.mode.is3wire then 9 else 8 := by
  unfold loadFrame; split <;> rfl

/-! ### Recording events beside BITN and the countdown of calls -/

theorem record_setBitn (es : List Event) (n : BitVec 4) (s : State) :
    record es (s.setBitn n) = (record es s).setBitn n := rfl
theorem record_setCapFail (es : List Event) (f : Option (Nat × CapEnd)) (s : State) :
    record es (s.setCapFail f) = (record es s).setCapFail f := rfl
theorem setBitn_setCapFail (n : BitVec 4) (f : Option (Nat × CapEnd)) (s : State) :
    (s.setCapFail f).setBitn n = (s.setBitn n).setCapFail f := rfl
theorem setBitn_setBitn (m n : BitVec 4) (s : State) : (s.setBitn m).setBitn n = s.setBitn n := rfl
theorem setCapFail_setCapFail (f g : Option (Nat × CapEnd)) (s : State) :
    (s.setCapFail f).setCapFail g = s.setCapFail g := rfl

/-- What is left to send depends on SHR and the configuration only. -/
@[simp] theorem cellsLeft_record (es : List Event) (s : State) (n : Nat) : cellsLeft (record es s) n = cellsLeft s n := rfl
@[simp] theorem cellsLeft_setBitn (m : BitVec 4) (s : State) (n : Nat) : cellsLeft (s.setBitn m) n = cellsLeft s n := rfl
@[simp] theorem cellsLeft_setCapFail (f : Option (Nat × CapEnd)) (s : State) (n : Nat) :
    cellsLeft (s.setCapFail f) n = cellsLeft s n := rfl

/-- The first of the cells left, and the rest. -/
theorem cellsLeft_succ (s : State) (n : Nat) :
    cellsLeft s (n + 1) = cell s.cfg (s.shr.getLsbD n) ++ cellsLeft s n := by
  simp [cellsLeft, lowBits]

/-- SHR and BITN are dropped together. -/
theorem dropShift_setBitn (n : BitVec 4) (s : State) : dropShift (s.setBitn n) = dropShift s := rfl

/-- What a run of calls answers whose call after `k` of the events of `es` fails, while BITN is `n`: the events before that call,
and the end `how` says (R238). -/
def cutOff (es : List Event) (k : Nat) (how : CapEnd) (n : Nat) (s : State) : Answer :=
  capFault how (((record (es.take k) s).setCapFail (some (0, how))).setBitn (BitVec.ofNat 4 n))

/-- BITN and the countdown before the failing call do not matter: that call sets both. -/
theorem cutOff_setBitn (es : List Event) (k : Nat) (how : CapEnd) (n : Nat) (m : BitVec 4) (s : State) :
    cutOff es k how n (s.setBitn m) = cutOff es k how n s := rfl
theorem cutOff_setCapFail (es : List Event) (k : Nat) (how : CapEnd) (n : Nat) (f : Option (Nat × CapEnd)) (s : State) :
    cutOff es k how n (s.setCapFail f) = cutOff es k how n s := rfl

/-- An abort drops BITN, and uses up the failing call, so the state it leaves does not tell where they stood (R181, log 7). -/
theorem cutOff_aborts (es : List Event) (k n : Nat) (s : State) :
    cutOff es k .aborts n s = .fault (.aborted (abortState (record (es.take k) s))) := by
  have drop : ∀ (m : BitVec 4) (f : Option (Nat × CapEnd))
      (u : State), abortState ((u.setCapFail f).setBitn m) = abortState u :=
    fun _ _ _ => rfl
  rw [cutOff, capFault, drop]

/-- A call that fails behind events that were recorded already fails behind both. -/
theorem cutOff_record (es fs : List Event) (k : Nat) (how : CapEnd) (n : Nat) (s : State) (h : es.length ≤ k) :
    cutOff fs (k - es.length) how n (record es s) = cutOff (es ++ fs) k how n s := by
  rw [cutOff, cutOff, record_append, List.take_append, List.take_of_length_le h]

/-- Events after the failing call do not happen. -/
theorem cutOff_append (es fs : List Event) (k : Nat) (how : CapEnd) (n : Nat) (s : State) (h : k ≤ es.length) :
    cutOff (es ++ fs) k how n s = cutOff es k how n s := by
  rw [cutOff, cutOff, List.take_append_of_le_length h]

/-! ### Runs of calls, by the plan of the failing one -/

/-- Calls before the failing one. -/
theorem callAll_of_later {es : List Event} {k : Nat} {how : CapEnd} (h : s.env.capFail = some (k, how))
    (hk : es.length ≤ k) : callAll es s = .next ((record es s).setCapFail (some (k - es.length, how))) := by
  simp [callAll, h, hk]

/-- Calls of which one fails. -/
theorem callAll_of_fail {es : List Event} {k : Nat} {how : CapEnd} (h : s.env.capFail = some (k, how))
    (hk : k < es.length) : callAll es s = cutOff es k how s.bitn.toNat s := by
  simp only [callAll, h, if_neg (show ¬ es.length ≤ k by omega), cutOff, BitVec.ofNat_toNat, BitVec.setWidth_eq]
  rfl

/-! ### Sending the bits -/

/-- `BITN` bits sent while every call returns. -/
theorem sendBits_of_returns (n : Nat) (s : State) (hn : s.bitn.toNat = n) (h : CapsReturn s) :
    sendBits n s = .next ((record (cellsLeft s n) s).setBitn 0#4) := by
  induction n generalizing s with
  | zero =>
    have : s.bitn = 0#4 := BitVec.eq_of_toNat_eq hn
    rw [sendBits, cellsLeft, lowBits, List.flatMap_nil, record_nil, ← this]; rfl
  | succ n ih =>
    rw [sendBits, sendBit, callAll_of_returns _ h, andThen_next, andThen_next, ih (State.setBitn (record _ s) _) ?_ h, hn,
      Nat.add_sub_cancel, cellsLeft_setBitn, cellsLeft_record, record_setBitn, setBitn_setBitn, record_append, cellsLeft_succ]
    simp only [State.setBitn, record_bitn]; bv_omega

/-- `BITN` bits sent when a later call fails. -/
theorem sendBits_of_later (n : Nat) (s : State) (hn : s.bitn.toNat = n) {k : Nat} {how : CapEnd}
    (h : s.env.capFail = some (k, how)) (hk : 6 * n ≤ k) :
    sendBits n s = .next (((record (cellsLeft s n) s).setBitn 0#4).setCapFail (some (k - 6 * n, how))) := by
  induction n generalizing s k with
  | zero =>
    have : s.bitn = 0#4 := BitVec.eq_of_toNat_eq hn
    rw [sendBits, cellsLeft, lowBits, List.flatMap_nil, record_nil, ← this, Nat.mul_zero, Nat.sub_zero, ← h]; rfl
  | succ n ih =>
    have hc : (cell s.cfg (s.shr.getLsbD n)).length = 6 := rfl
    rw [sendBits, sendBit, hn, Nat.add_sub_cancel, callAll_of_later h (by omega), andThen_next, andThen_next, hc,
      ih (k := k - 6) _ ?_ rfl (by omega), cellsLeft_setBitn, cellsLeft_setCapFail, cellsLeft_record, record_setBitn,
      setBitn_setBitn, record_setCapFail, setBitn_setCapFail, setCapFail_setCapFail, record_append, cellsLeft_succ,
      show k - 6 - 6 * n = k - 6 * (n + 1) by omega]
    simp only [State.setBitn, State.setCapFail, record_bitn]; bv_omega

/-- `BITN` bits sent when a call inside them fails: BITN counts the cells not completed (R23). -/
theorem sendBits_of_fail (n : Nat) (s : State) (hn : s.bitn.toNat = n) {k : Nat} {how : CapEnd}
    (h : s.env.capFail = some (k, how)) (hk : k < 6 * n) :
    sendBits n s = cutOff (cellsLeft s n) k how (n - k / 6) s := by
  induction n generalizing s k with
  | zero => omega
  | succ n ih =>
    have hc : (cell s.cfg (s.shr.getLsbD n)).length = 6 := rfl
    rw [sendBits, sendBit, hn, Nat.add_sub_cancel, cellsLeft_succ]
    by_cases h6 : 6 ≤ k
    · rw [callAll_of_later h (by omega), andThen_next, andThen_next, hc, ih (k := k - 6) _ ?_ rfl (by omega),
        show n - (k - 6) / 6 = n + 1 - k / 6 by omega, cellsLeft_setBitn, cellsLeft_setCapFail, cellsLeft_record,
        cutOff_setBitn, cutOff_setCapFail, ← cutOff_record (cell s.cfg (s.shr.getLsbD n)) _ k how _ s h6, hc]
      · simp only [State.setBitn, State.setCapFail, record_bitn]; bv_omega
    · rw [callAll_of_fail h (by omega), cutOff_append _ _ _ _ _ _ (by omega), show n + 1 - k / 6 = s.bitn.toNat by omega]
      cases how <;> rfl

/-- A software byte while every call returns. -/
theorem softByte_of_returns (s : State) (h : CapsReturn s) :
    softByte s = .next
      ((record ([Event.gw .cs s.cfg.csActive] ++ cellsLeft s s.bitn.toNat ++ [Event.gw .cs s.cfg.csActive.other]) s).setBitn
        0#4) := by
  have h1 : CapsReturn (record [Event.gw .cs s.cfg.csActive] s) := h
  have h2 : ∀ es m, CapsReturn ((record es (record [Event.gw .cs s.cfg.csActive] s)).setBitn m) :=
    fun _ _ => by simpa [CapsReturn] using h
  rw [softByte, callAll_of_returns _ h, andThen_next, sendBits_of_returns _ _ rfl h1, andThen_next,
    callAll_of_returns _ (h2 _ _)]
  simp only [record_bitn, cellsLeft_record, record_setBitn, record_append]
  rfl

/-- A software byte when a later call fails. -/
theorem softByte_of_later (s : State) {k : Nat} {how : CapEnd} (h : s.env.capFail = some (k, how))
    (hk : 6 * s.bitn.toNat + 2 ≤ k) :
    softByte s = .next (((record ([Event.gw .cs s.cfg.csActive] ++ cellsLeft s s.bitn.toNat ++ [Event.gw .cs s.cfg.csActive.other])
      s).setBitn 0#4).setCapFail (some (k - (6 * s.bitn.toNat + 2), how))) := by
  rw [softByte, callAll_of_later h (by simp; omega), andThen_next]
  simp only [State.setCapFail_bitn, record_bitn, List.length_cons, List.length_nil, Nat.zero_add]
  rw [sendBits_of_later s.bitn.toNat (State.setCapFail (record _ s) _) rfl rfl (by omega), andThen_next,
    callAll_of_later rfl (by simp; omega)]
  simp only [cellsLeft_setCapFail, cellsLeft_record, record_setCapFail, record_setBitn, setBitn_setCapFail,
    setCapFail_setCapFail, record_append, List.length_cons, List.length_nil, Nat.zero_add,
    State.setCapFail_cfg, State.setBitn_cfg, record_cfg]
  rw [show k - 1 - 6 * s.bitn.toNat - 1 = k - (6 * s.bitn.toNat + 2) by omega]

/-- A software byte when a call inside it fails. -/
theorem softByte_of_fail (s : State) {k : Nat} {how : CapEnd} (h : s.env.capFail = some (k, how))
    (hk : k < 6 * s.bitn.toNat + 2) :
    softByte s = cutOff ([Event.gw .cs s.cfg.csActive] ++ cellsLeft s s.bitn.toNat ++ [Event.gw .cs s.cfg.csActive.other]) k how
      (s.bitn.toNat - (k - 1) / 6) s := by
  have cut : ∀ es k n u (f : State → Answer), andThen (cutOff es k how n u) f = cutOff es k how n u := by
    intro es k n u f; cases how <;> rfl
  have hn : ([Event.gw .cs s.cfg.csActive] ++ cellsLeft s s.bitn.toNat).length = 6 * s.bitn.toNat + 1 := by
    simp only [List.length_append, cellsLeft_length, List.length_cons, List.length_nil]; omega
  rw [softByte]
  by_cases h0 : k = 0
  · subst h0
    rw [callAll_of_fail h (by simp)]
    cases how <;> rfl
  · rw [callAll_of_later h (by simp; omega), andThen_next]
    simp only [State.setCapFail_bitn, record_bitn, List.length_cons, List.length_nil, Nat.zero_add]
    by_cases h1 : k - 1 < 6 * s.bitn.toNat
    · rw [sendBits_of_fail s.bitn.toNat (State.setCapFail (record _ s) _) rfl rfl h1, cut, cellsLeft_setCapFail,
        cellsLeft_record, cutOff_setCapFail, cutOff_append _ _ _ _ _ _ (by rw [hn]; omega),
        ← cutOff_record _ _ k how _ s (show [Event.gw .cs s.cfg.csActive].length ≤ k by simp; omega)]
      rfl
    · rw [sendBits_of_later s.bitn.toNat (State.setCapFail (record _ s) _) rfl rfl (by omega), andThen_next,
        callAll_of_fail rfl (by simp; omega), show s.bitn.toNat - (k - 1) / 6 = 0 by omega]
      simp only [cellsLeft_setCapFail, cellsLeft_record, State.setCapFail_cfg, State.setBitn_cfg, record_cfg,
        record_setCapFail, record_append, cutOff_setCapFail, cutOff_setBitn]
      rw [← cutOff_record _ _ k how _ s (by rw [hn]; omega), hn,
        show k - 1 - 6 * s.bitn.toNat = k - (6 * s.bitn.toNat + 1) by omega]
      rfl

/-! ### write_byte -/

/-- What ends a byte: the TX answer noted in hardware modes, SHR and BITN dropped (R23, R137). -/
def byteDone (c : Cfg) (s : State) : State := dropShift (if c.mode.isSw then s else noteTx s)

/-- A byte while every call returns: its events, then SHR and BITN dropped (R130). -/
theorem writeByte_of_returns (v : Byte) (b : Bool) (h : CapsReturn s) :
    writeByte v b s = .next (byteDone s.cfg (record (byteTrace s.cfg v b) (loadFrame v b s))) := by
  have hl : CapsReturn (loadFrame v b s) := by simpa [CapsReturn] using h
  simp only [writeByte, byteDone, loadFrame_cfg]
  by_cases hm : s.cfg.mode.isSw = true
  · rw [if_pos hm, if_pos hm, softByte_of_returns _ hl, andThen_next, dropShift_setBitn, softEvents_loadFrame hm, loadFrame_cfg]
  · rw [if_neg hm, if_neg hm, hardByte, callAll_of_returns _ hl, hardEvent_loadFrame (by simpa using hm)]
    rfl

/-- The number of events of a software byte. -/
theorem byteTrace_length_soft (v : Byte) (b : Bool) (h : s.cfg.mode.isSw = true) :
    (byteTrace s.cfg v b).length = 6 * (loadFrame v b s).bitn.toNat + 2 := by
  rw [softEvents_loadFrame h]; simp only [List.length_append, cellsLeft_length, List.length_cons, List.length_nil]; omega

/-- A byte when a later call fails: the same, and the countdown to that call has moved (log 6). -/
theorem writeByte_of_later (v : Byte) (b : Bool) {k : Nat} {how : CapEnd} (h : s.env.capFail = some (k, how))
    (hk : (byteTrace s.cfg v b).length ≤ k) :
    writeByte v b s = .next (byteDone s.cfg ((record (byteTrace s.cfg v b) (loadFrame v b s)).setCapFail
      (some (k - (byteTrace s.cfg v b).length, how)))) := by
  have hl : (loadFrame v b s).env.capFail = some (k, how) := by simpa using h
  simp only [writeByte, byteDone, loadFrame_cfg]
  by_cases hm : s.cfg.mode.isSw = true
  · have hn := byteTrace_length_soft v b hm
    rw [if_pos hm, if_pos hm, softByte_of_later _ hl (by omega), andThen_next, ← setBitn_setCapFail, dropShift_setBitn,
      ← hn, softEvents_loadFrame hm, loadFrame_cfg]
  · have he := hardEvent_loadFrame (v := v) (b := b) (show s.cfg.mode.isSw = false by simpa using hm)
    rw [if_neg hm, if_neg hm, hardByte, he, callAll_of_later hl hk]
    rfl

/-- A byte when a call inside it fails: the events before that call, SHR the loaded frame, BITN the bits left (R23). -/
theorem writeByte_of_fail (v : Byte) (b : Bool) {k : Nat} {how : CapEnd} (h : s.env.capFail = some (k, how))
    (hk : k < (byteTrace s.cfg v b).length) :
    writeByte v b s = cutOff (byteTrace s.cfg v b) k how
      ((if s.cfg.mode.is3wire then 9 else 8) - (if s.cfg.mode.isSw then (k - 1) / 6 else 0)) (loadFrame v b s) := by
  have hl : (loadFrame v b s).env.capFail = some (k, how) := by simpa using h
  rw [← loadFrame_bitn (v := v) (b := b)]
  simp only [writeByte, loadFrame_cfg]
  by_cases hm : s.cfg.mode.isSw = true
  · have hn := byteTrace_length_soft v b hm
    rw [if_pos hm, if_pos hm, softByte_of_fail _ hl (by omega), softEvents_loadFrame (v := v) (b := b) hm, loadFrame_cfg]
    cases how <;> rfl
  · have he := hardEvent_loadFrame (v := v) (b := b) (show s.cfg.mode.isSw = false by simpa using hm)
    rw [if_neg hm, if_neg hm, hardByte, he, callAll_of_fail hl hk, Nat.sub_zero]
    cases how <;> rfl

/-- A byte that answers a next state recorded its events; beside them only the working registers, the platform's answers, TXERR and
the countdown to a failing call have moved (R130). -/
theorem writeByte_eq_next (h : writeByte v b s = .next t) :
    ∃ f, t = byteDone s.cfg ((record (byteTrace s.cfg v b) (loadFrame v b s)).setCapFail f) ∧ (CapsReturn s → f = none) := by
  cases hc : s.env.capFail with
  | none =>
    rw [writeByte_of_returns v b hc] at h
    cases h
    exact ⟨none, by rw [← hc, ← loadFrame_env (v := v) (b := b)]; rfl, fun _ => rfl⟩
  | some p =>
    obtain ⟨k, how⟩ := p
    by_cases hk : (byteTrace s.cfg v b).length ≤ k
    · rw [writeByte_of_later v b hc hk] at h
      cases h
      exact ⟨_, rfl, fun hn => by simp [CapsReturn, hc] at hn⟩
    · rw [writeByte_of_fail v b hc (by omega)] at h
      cases how <;> simp [cutOff, capFault] at h

/-- No byte is refused. -/
theorem writeByte_ne_refused (v : Byte) (b : Bool) (s : State) (r : Refusal) : writeByte v b s ≠ .refused r := by
  cases hc : s.env.capFail with
  | none => rw [writeByte_of_returns v b hc]; simp
  | some p =>
    obtain ⟨k, how⟩ := p
    by_cases hk : (byteTrace s.cfg v b).length ≤ k
    · rw [writeByte_of_later v b hc hk]; simp
    · rw [writeByte_of_fail v b hc (by omega)]; cases how <;> simp [cutOff, capFault]

/-- A byte that faults does so at the call set to fail (R238). -/
theorem writeByte_eq_fault {r : Fault} (h : writeByte v b s = .fault r) :
    ∃ k how, s.env.capFail = some (k, how) ∧ k < (byteTrace s.cfg v b).length ∧
      cutOff (byteTrace s.cfg v b) k how
        ((if s.cfg.mode.is3wire then 9 else 8) - (if s.cfg.mode.isSw then (k - 1) / 6 else 0))
            (loadFrame v b s) = .fault r := by
  cases hc : s.env.capFail with
  | none => rw [writeByte_of_returns v b hc] at h; cases h
  | some p =>
    obtain ⟨k, how⟩ := p
    by_cases hk : (byteTrace s.cfg v b).length ≤ k
    · rw [writeByte_of_later v b hc hk] at h; cases h
    · exact ⟨k, how, rfl, by omega, by rw [← writeByte_of_fail v b hc (by omega)]; exact h⟩

/-- A byte that aborts leaves the abort state after the events before the failing call (R181). -/
theorem writeByte_eq_aborted {l : State} (h : writeByte v b s = .fault (.aborted l)) :
    ∃ k, l = abortState (record ((byteTrace s.cfg v b).take k) (loadFrame v b s)) := by
  obtain ⟨k, how, -, -, h⟩ := writeByte_eq_fault h
  cases how
  · rw [cutOff_aborts] at h
    exact ⟨k, (Fault.aborted.inj (Host.Outcome.fault.inj h)).symm⟩
  · simp [cutOff, capFault] at h

end Sys2Proof.Machine
end

