-- ==== Sys2Proof/Laws/Exec.lean ====
section
/-!
SUPPORT. What frames, host operations and steps can do, said once, for every case in which they answer a next state.
-/

namespace Sys2Proof.Machine

/-- What a frame, or a part of one, may do to the state: the host's side stays; events are added, all of the mode, and the
latches follow them; TXERR is sticky, and stays in software modes. -/
def Moves (s t : State) : Prop :=
  KeepsHostSide s t ∧ (∃ es, t.env.trace = s.env.trace ++ es ∧ t.pinl = es.foldl latch s.pinl ∧
      ∀ e ∈ es, eventLegal s.cfg e = true) ∧
  (s.txerr = true → t.txerr = true) ∧ (s.cfg.mode.isSw = true → t.txerr = s.txerr)

/-- Nothing sent. -/
theorem Moves.of_same {s t : State} (h1 : KeepsHostSide s t) (h2 : t.env.trace = s.env.trace) (h3 : t.pinl = s.pinl)
    (h4 : t.txerr = s.txerr) : Moves s t :=
  ⟨h1, ⟨[], by simp [h2], by simp [h3], by simp⟩, by simp [h4], by simp [h4]⟩

/-- One after another. -/
theorem Moves.trans {s t u : State} (h : Moves s t) (k : Moves t u) : Moves s u := by
  obtain ⟨⟨a1,a2,a3,a4,a5,a6⟩, ⟨es, b1, b2, b3⟩, c, d⟩ := h
  obtain ⟨⟨a1',a2',a3',a4',a5',a6'⟩, ⟨es', b1', b2', b3'⟩, c', d'⟩ := k
  refine ⟨⟨by rw [a1',a1], by rw [a2',a2], by rw [a3',a3], by rw [a4',a4], by rw [a5',a5], by rw [a6',a6]⟩, ⟨es ++ es',
      by rw [b1', b1, List.append_assoc], by rw [b2', b2, List.foldl_append], ?_⟩, fun h => c' (c h),
      fun h => by rw [d' (by rw [a1]; exact h), d h]⟩
  intro e he
  rcases List.mem_append.1 he with he | he
  · exact b3 e he
  · rw [← a1]; exact b3' e he

/-- Capability calls that answer a next state. -/
theorem moves_callAll {es : List Event} {s t : State} (hl : ∀ e ∈ es, eventLegal s.cfg e = true)
    (h : callAll es s = .next t) :
    Moves s t ∧ t.seq = s.seq ∧ t.inflight = s.inflight := by
  obtain ⟨f, rfl, -⟩ := callAll_eq_next h
  exact ⟨⟨⟨rfl, rfl, rfl, rfl, rfl, rfl⟩, ⟨es, rfl, rfl, hl⟩, fun h => h, fun _ => rfl⟩, rfl, rfl⟩

/-- Using up a TX answer keeps everything else. -/
theorem dropTx_keeps (s : State) : KeepsHostSide s (dropTx s) ∧ (dropTx s).env.trace = s.env.trace ∧
    (dropTx s).pinl = s.pinl ∧ (dropTx s).txerr = s.txerr ∧ (dropTx s).seq = s.seq ∧ (dropTx s).inflight = s.inflight ∧
    (dropTx s).env.busyIn = s.env.busyIn ∧ (dropTx s).env.capFail = s.env.capFail := by
  rcases dropTx_cases s with ⟨ok, rest, -, h⟩ | ⟨-, h⟩ <;> rw [h] <;> exact ⟨⟨rfl, rfl, rfl, rfl, rfl, rfl⟩,
      rfl, rfl, rfl, rfl, rfl, rfl, rfl⟩

/-- Using up a busy answer keeps everything else. -/
theorem dropBusy_keeps (s : State) : KeepsHostSide s (dropBusy s) ∧ (dropBusy s).env.trace = s.env.trace ∧
    (dropBusy s).pinl = s.pinl ∧ (dropBusy s).txerr = s.txerr ∧ (dropBusy s).seq = s.seq ∧
    (dropBusy s).inflight = s.inflight ∧ (dropBusy s).env.capFail = s.env.capFail ∧ (dropBusy s).env.txIn = s.env.txIn := by
  rcases dropBusy_cases s with ⟨ok, rest, -, h⟩ | ⟨-, h⟩ <;> rw [h] <;> exact ⟨⟨rfl, rfl, rfl, rfl, rfl, rfl⟩,
      rfl, rfl, rfl, rfl, rfl, rfl, rfl⟩

/-- Noting a TX answer, in a hardware mode. -/
theorem moves_noteTx {s : State} (h : s.cfg.mode.isSw = false) : Moves s (noteTx s) ∧ (noteTx s).seq = s.seq ∧
    (noteTx s).inflight = s.inflight := by
  obtain ⟨a, b, c, d, e, f, -, -⟩ := dropTx_keeps s
  rw [noteTx_eq]
  refine ⟨⟨a, ⟨[], by simp [b], by simp [c], by simp⟩, by simp; intro h; simp [h], by simp [h]⟩, by simp [e], by simp [f]⟩

/-- Loading the shift register keeps everything else. -/
theorem loadFrame_keeps (v b) (s : State) : KeepsHostSide s (loadFrame v b s) := by
  unfold loadFrame; split <;> exact ⟨rfl, rfl, rfl, rfl, rfl, rfl⟩

/-- What ends a byte. -/
theorem moves_byteDone {c : Cfg} {s : State} (hc : s.cfg = c) : Moves s (byteDone c s) ∧ (byteDone c s).seq = s.seq ∧
    (byteDone c s).inflight = s.inflight := by
  subst hc
  have drop : ∀ u : State, Moves u (dropShift u) := fun u => Moves.of_same ⟨rfl, rfl, rfl, rfl, rfl, rfl⟩ rfl rfl rfl
  unfold byteDone
  split
  · exact ⟨drop s, rfl, rfl⟩
  · rename_i h
    obtain ⟨m, a, b⟩ := moves_noteTx (s := s) (by simpa using h)
    exact ⟨m.trans (drop _), a, b⟩

/-- `write_byte` (R130). -/
theorem moves_writeByte {v b} {s t : State} (h : writeByte v b s = .next t) : Moves s t ∧ t.seq = s.seq ∧
    t.inflight = s.inflight := by
  obtain ⟨f, rfl, -⟩ := writeByte_eq_next h
  have hl : Moves s ((record (byteTrace s.cfg v b) (loadFrame v b s)).setCapFail f) :=
    (Moves.of_same (loadFrame_keeps v b s) (by rw [loadFrame_env]) loadFrame_pinl loadFrame_txerr).trans
      ⟨⟨rfl, rfl, rfl, rfl, rfl, rfl⟩, ⟨_, rfl, rfl, by simpa using byteTrace_legal s.cfg v b⟩, fun h => h, fun _ => rfl⟩
  obtain ⟨m, a, c⟩ := moves_byteDone hl.1.1
  exact ⟨hl.trans m, by rw [a]; simp, by rw [c]; simp⟩

/-- The DC bracket (R150, R151). -/
theorem moves_selectDc {l} {s t : State} (h : selectDc l s = .next t) : Moves s t ∧ t.seq = s.seq ∧
    t.inflight = s.inflight := by
  unfold selectDc at h
  split at h
  · cases h; exact ⟨Moves.of_same ⟨rfl, rfl, rfl, rfl, rfl, rfl⟩ rfl rfl rfl, rfl, rfl⟩
  · rename_i hn; exact moves_callAll (by intro e he; simp at he; subst he; simp [eventLegal, hn]) h

/-- `write_command` (R150). -/
theorem moves_writeCommand {v} {s t : State} (h : writeCommand v s = .next t) : Moves s t ∧ t.seq = s.seq ∧
    t.inflight = s.inflight := by
  obtain ⟨u, h1, h2⟩ := andThen_eq_next h
  obtain ⟨a, b, c⟩ := moves_selectDc h1
  obtain ⟨a', b', c'⟩ := moves_writeByte h2
  exact ⟨a.trans a', by rw [b', b], by rw [c', c]⟩

/-- `write_data` (R151). -/
theorem moves_writeData {v} {s t : State} (h : writeData v s = .next t) : Moves s t ∧ t.seq = s.seq ∧
    t.inflight = s.inflight := by
  obtain ⟨u, h1, h2⟩ := andThen_eq_next h
  obtain ⟨a, b, c⟩ := moves_selectDc h1
  obtain ⟨a', b', c'⟩ := moves_writeByte h2
  exact ⟨a.trans a', by rw [b', b], by rw [c', c]⟩

/-- Completing a step of the microprogram. -/
theorem moves_advance (s : State) : Moves s (advance s) := by
  rcases advance_cases s with ⟨-, h⟩ | ⟨q, -, -, h⟩ | ⟨q, -, -, h⟩ <;> rw [h] <;>
      exact Moves.of_same ⟨rfl, rfl, rfl, rfl, rfl, rfl⟩ rfl rfl rfl

/-- One data byte of a step. -/
theorem moves_advanceByte (n) (s : State) : Moves s (advanceByte n s) := by
  rcases advanceByte_cases n s with ⟨q, -, -, h⟩ | h <;> rw [h]
  · exact Moves.of_same ⟨rfl, rfl, rfl, rfl, rfl, rfl⟩ rfl rfl rfl
  · exact moves_advance s

/-- A command step sends its frame, then completes. -/
theorem sendCommand_next {b} {s t : State} (h : sendCommand b s = .next t) : ∃ u, Moves s u ∧ u.seq = s.seq ∧
    u.inflight = s.inflight ∧ t = advance u := by
  obtain ⟨u, h1, h2⟩ := andThen_eq_next h
  obtain ⟨a, b, c⟩ := moves_writeCommand h1
  cases h2; exact ⟨u, a, b, c, rfl⟩

/-- A data step sends its frame, then moves CNT on. -/
theorem sendData_next {b} {s t : State} (h : sendData b s = .next t) : ∃ u, Moves s u ∧ u.seq = s.seq ∧
    u.inflight = s.inflight ∧ t = advanceByte (stepLen s) u := by
  obtain ⟨u, h1, h2⟩ := andThen_eq_next h
  obtain ⟨a, b, c⟩ := moves_writeData h1
  cases h2; exact ⟨u, a, b, c, rfl⟩

/-- A poll sends its frame and reads BUSY, then completes the step or stays. -/
theorem pollBusy_next {b} {s t : State} (h : pollBusy b s = .next t) : ∃ u, Moves s u ∧ u.seq = s.seq ∧
    u.inflight = s.inflight ∧ (t = advance u ∨ t = u) := by
  rw [pollBusy_eq] at h
  obtain ⟨u, h1, h2⟩ := andThen_eq_next h
  obtain ⟨a, b, c⟩ := moves_writeCommand h1
  obtain ⟨w, h3, h4⟩ := andThen_eq_next h2
  obtain ⟨a', b', c'⟩ := moves_callAll (by intro e he; simp at he; subst he; simp [eventLegal]) h3
  obtain ⟨x1, x2, x3, x4, x5, x6, -⟩ := dropBusy_keeps w
  have m := (a.trans a').trans (Moves.of_same x1 x2 x3 x4)
  split at h4
  · cases h4
    exact ⟨_, m, by rw [x5, b', b], by rw [x6, c', c], .inl rfl⟩
  · obtain ⟨a2, b2, c2⟩ := moves_callAll (by intro e he; simp [delayEvent] at he; subst he; simp [eventLegal]) h4
    exact ⟨t, m.trans a2, by rw [b2, x5, b', b], by rw [c2, x6, c', c], .inr rfl⟩

/-- What any frame that answers a next state did. -/
theorem frame_next {i : Instr} (hi : i.isCommand = true ∨ ∃ d, i = .data d) {s t : State} (h : exec i s = .next t) :
   ∃ u, Moves s u ∧ u.seq = s.seq ∧ u.inflight = s.inflight ∧ (t = advance u ∨ (i = .status ∧ t = u) ∨ ((∃ d, i = .data d) ∧
       t = advanceByte (stepLen s) u)) := by
  have cmd : ∀ b, sendCommand b s = .next t → ∃ u, Moves s u ∧ u.seq = s.seq ∧ u.inflight = s.inflight ∧ (t = advance u ∨
      (i = .status ∧ t = u) ∨ ((∃ d, i = .data d) ∧ t = advanceByte (stepLen s) u)) := by
    intro b hb
    obtain ⟨u, a, b, c, d⟩ := sendCommand_next hb
    exact ⟨u, a, b, c, .inl d⟩
  rcases hi with hi | ⟨d, rfl⟩
  · cases i with
    | status =>
      obtain ⟨u, a, b, c, d⟩ := pollBusy_next h
      exact ⟨u, a, b, c, d.imp_right fun d => .inl ⟨rfl, d⟩⟩
    | _ => first | exact cmd _ h | simp [Instr.isCommand] at hi
  · obtain ⟨u, a, b, c, e⟩ := sendData_next h
    exact ⟨u, a, b, c, .inr (.inr ⟨⟨d, rfl⟩, e⟩)⟩

/-- Every command byte of the microprogram is a code of the table, and none but the wait sends STATUS. -/
theorem micro_command {c : Cfg} {src : Src} {u : Nat} {b : Byte} (h : micro c src u = .command b) :
   ∃ i, i.isCommand = true ∧ i ≠ .status ∧ commandTable.lookup b = some i := by
  unfold micro at h
  split at h <;> first | (simp only [Micro.command.injEq] at h; subst h; exact ⟨_, rfl, by decide, rfl⟩) | cases h

/-- `set_pixel` writes the framebuffer only. -/
theorem setPixelAt_rest (x y col) (s : State) : ∃ m, setPixelAt x y col s = s.setFb m := by
  unfold setPixelAt; split
  · exact ⟨_, rfl⟩
  · exact ⟨s.fb, rfl⟩

/-- The loop of `draw_line` writes the framebuffer and the line registers only. -/
theorem lineLoop_rest (col n) (s : State) : ∃ m l, lineLoop col n s = (s.setFb m).setLine l := by
  induction n generalizing s with
  | zero => exact ⟨s.fb, s.line, rfl⟩
  | succ n ih =>
    unfold lineLoop
    obtain ⟨m, hm⟩ := setPixelAt_rest s.line.x s.line.y col s
    simp only [hm]
    split
    · exact ⟨m, s.line, rfl⟩
    · obtain ⟨m', l', h⟩ := ih ((s.setFb m).setLine (lineAdvance (s.setFb m).line))
      exact ⟨m', l', by rw [h]; rfl⟩

/-- `draw_line` writes the framebuffer, the line registers and the count of free values only. -/
theorem drawLineAt_rest (x1 y1 x2 y2 col)
    (s : State) : ∃ m l k, drawLineAt x1 y1 x2 y2 col s = ((s.setFb m).setLine l).setFree k := by
  unfold drawLineAt
  obtain ⟨m, l, h⟩ := lineLoop_rest col (lineCount (lineStart x1 y1 x2 y2)) (s.setLine (lineStart x1 y1 x2 y2))
  rw [h]
  exact ⟨m, _, _, rfl⟩

/-- What any host operation that answers a next state did. -/
theorem hostOp_next {i : Instr} (hi : i.isCommand = false) (hd : ∀ d, i ≠ .data d) {s t : State} (h : exec i s = .next t) :
   Accepts s ∧ ((i = .setPixel ∧ t = setPixelAt (operand s 0) (operand s 1) (colorOperand s) s) ∨
    (i = .drawLine ∧ t = drawLineAt (operand s 0) (operand s 1) (operand s 2) (operand s 3) (colorOperand s) s) ∨
    (i = .fill ∧ t = fillBytes (colorOperand s) s) ∨ (i = .mapValue ∧ ∃ v, t = s.setRes v) ∨ (i = .updateScreen ∧
        t = acceptScreen .fb s) ∨ (i = .cleanScreen ∧ t = acceptScreen .white s)) := by
  cases i with
  | setPixel => simp only [exec, execSetPixel] at h; obtain ⟨a, b⟩ := hostGate_eq_next h; cases b; exact ⟨a, .inl ⟨rfl, rfl⟩⟩
  | drawLine => simp only [exec, execDrawLine] at h; obtain ⟨a, b⟩ := hostGate_eq_next h; cases b; exact ⟨a, .inr (.inl ⟨rfl, rfl⟩)⟩
  | fill => simp only [exec, execFill] at h; obtain ⟨a, b⟩ := hostGate_eq_next h; cases b; exact ⟨a, .inr (.inr (.inl ⟨rfl, rfl⟩))⟩
  | mapValue =>
    simp only [exec, execMapValue] at h
    obtain ⟨a, b⟩ := hostGate_eq_next h
    split at b
    · cases b
    · cases b; exact ⟨a, .inr (.inr (.inr (.inl ⟨rfl, _, rfl⟩)))⟩
  | updateScreen => simp only [exec, execUpdateScreen] at h; obtain ⟨a, b⟩ := hostGate_eq_next h; cases b; exact ⟨a, .inr (.inr (.inr (.inr (.inl ⟨rfl, rfl⟩))))⟩
  | cleanScreen => simp only [exec, execCleanScreen] at h; obtain ⟨a, b⟩ := hostGate_eq_next h; cases b; exact ⟨a, .inr (.inr (.inr (.inr (.inr ⟨rfl, rfl⟩))))⟩
  | reserved6 => cases h
  | reserved7 => cases h
  | data d => exact absurd rfl (hd d)
  | _ => simp [Instr.isCommand] at hi

/-- A host code decodes to a host operation. -/
theorem decodeHost_isHostOp {op : OpCode} {i : Instr} (h : decodeHost op = some i) : i.isCommand = false ∧
    ∀ d, i ≠ .data d := by
  have : ∀ op, ∀ i ∈ decodeHost op, i.isCommand = false ∧ (match i with | .data _ => false | _ => true) = true := by decide
  have := this op i h
  refine ⟨this.1, ?_⟩
  rintro d rfl
  exact absurd this.2 (by simp)

/-- What a step in flight that answers a next state did. -/
theorem step_inflight {s t : State} (hi : s.inflight = true) (h : step s = .next t) :
   ∃ q, s.seq = some q ∧ ∃ u, Moves s u ∧ u.seq = s.seq ∧ u.inflight = s.inflight ∧
     (((∀ p, micro s.cfg q.src q.upc ≠ .payload p) ∧ t = advance u) ∨ (micro s.cfg q.src q.upc = .wait ∧ t = u) ∨
      ((∃ p, micro s.cfg q.src q.upc = .payload p ∧ q.cnt < payloadLen p) ∧ (t = advance u ∨ t = advanceByte (stepLen s) u)) ∨
      ((∃ p, micro s.cfg q.src q.upc = .payload p ∧ payloadLen p ≤ q.cnt) ∧ t = advance u) ∨
      (micro s.cfg q.src q.upc = .terminal ∧ t = complete u)) := by
  unfold step fetch at h
  simp only [hi, if_true] at h
  cases hq : s.seq with
  | none => simp [hq] at h
  | some q =>
    refine ⟨q, rfl, ?_⟩
    simp only [hq, fetchMicro] at h
    have r : Moves s s := Moves.of_same ⟨rfl, rfl, rfl, rfl, rfl, rfl⟩ rfl rfl rfl
    cases hm : micro s.cfg q.src q.upc with
    | drive l =>
      simp only [hm] at h
      obtain ⟨u, h1, h2⟩ := andThen_eq_next h
      obtain ⟨a, b, c⟩ := moves_callAll (by intro e he; simp at he; subst he; simp [eventLegal]) h1
      cases h2; exact ⟨u, a, by rw [b, hq], by rw [c, hi], .inl ⟨by simp, rfl⟩⟩
    | delay l =>
      simp only [hm] at h
      obtain ⟨u, h1, h2⟩ := andThen_eq_next h
      have : l ≠ .tBit := by
        rintro rfl
        unfold micro at hm
        split at hm <;> cases hm
      obtain ⟨a, b, c⟩ := moves_callAll (by intro e he; simp [delayEvent] at he; subst he; simp [eventLegal, this]) h1
      cases h2; exact ⟨u, a, by rw [b, hq], by rw [c, hi], .inl ⟨by simp, rfl⟩⟩
    | command b =>
      obtain ⟨i, h1, h1', h2⟩ := micro_command hm
      simp only [hm, decode, decodeFrame_command, h2] at h
      obtain ⟨u, a, b, c, d⟩ := frame_next (.inl h1) h
      refine ⟨u, a, by rw [b, hq], by rw [c, hi], .inl ⟨by simp, ?_⟩⟩
      rcases d with d | ⟨rfl, -⟩ | ⟨⟨d, rfl⟩, -⟩
      · exact d
      · exact absurd rfl h1'
      · cases h1
    | wait =>
      simp only [hm, decode, decodeFrame_command] at h
      obtain ⟨u, a, b, c, d⟩ := pollBusy_next (b := 0x71#8) h
      refine ⟨u, a, by rw [b, hq], by rw [c, hi], ?_⟩
      rcases d with d | d
      · exact .inl ⟨by simp, d⟩
      · exact .inr (.inl ⟨rfl, d⟩)
    | payload p =>
      simp only [hm] at h
      by_cases hl : q.cnt < payloadLen p
      · simp only [hl, if_true, decode, decodeFrame_data] at h
        obtain ⟨u, a, b, c, d⟩ := sendData_next (b := payloadByte s.fb q.cnt p) h
        exact ⟨u, a, by rw [b, hq], by rw [c, hi], .inr (.inr (.inl ⟨⟨p, rfl, hl⟩, .inr d⟩))⟩
      · simp only [hl, if_false] at h
        cases h
        exact ⟨s, r, hq, rfl, .inr (.inr (.inr (.inl ⟨⟨p, rfl, by omega⟩, rfl⟩)))⟩
    | terminal =>
      simp only [hm] at h
      cases h
      exact ⟨s, r, hq, rfl, .inr (.inr (.inr (.inr ⟨rfl, rfl⟩)))⟩

/-- Completing an operation. -/
theorem moves_complete (s : State) : Moves s (complete s) := Moves.of_same ⟨rfl, rfl, rfl, rfl, rfl, rfl⟩ rfl rfl rfl

/-- A step in flight, as one move. -/
theorem step_inflight_moves {s t : State} (hi : s.inflight = true) (h : step s = .next t) : Moves s t := by
  obtain ⟨q, hq, u, a, b, c, d⟩ := step_inflight hi h
  rcases d with ⟨-, rfl⟩ | ⟨-, rfl⟩ | ⟨-, rfl | rfl⟩ | ⟨-, rfl⟩ | ⟨-, rfl⟩
  · exact a.trans (moves_advance u)
  · exact a
  · exact a.trans (moves_advance u)
  · exact a.trans (moves_advanceByte _ u)
  · exact a.trans (moves_advance u)
  · exact a.trans (moves_complete u)

/-- What an idle step that answers a next state did. -/
theorem step_idle {s t : State} (hi : s.inflight = false) (h : step s = .next t) :
   (s.env.requests = [] ∧ t = s) ∨ ∃ r rest i, s.env.requests = r :: rest ∧ decodeHost r.op = some i ∧
       exec i (loadRequest r rest s) = .next t := by
  unfold step fetch at h
  simp only [hi] at h
  cases hr : s.env.requests with
  | nil => simp [hr] at h; exact .inl ⟨rfl, h.symm⟩
  | cons r rest =>
    obtain ⟨i, hd⟩ := decodeHost_isSome r.op
    simp [hr, decode, hd] at h
    exact .inr ⟨r, rest, i, rfl, hd, h⟩

end Sys2Proof.Machine
end

