-- ==== Sys2Proof/Laws/Memory.lean ====
section
/-!
SUPPORT. The framebuffer memory: a read after a write, and that every memory operation keeps the canonical form.
-/

namespace Sys2Proof.Machine

/-! ### Read after write -/

theorem memLookup_memWrite (m : Memory) (a b : Nat) (v : Byte) (h : memWf m = true) :
    memLookup (memWrite m a v) b = if a = b then some v else memLookup m b := by
  induction m with
  | nil => simp [memWrite, memLookup]
  | cons cell m ih =>
    obtain ⟨k, w⟩ := cell
    have ih := ih (by cases m with
      | nil => rfl
      | cons c m => obtain ⟨k', w'⟩ := c; simp [memWf] at h; exact h.2)
    unfold memWrite
    split
    · simp [memLookup]
    · split
      · rename_i _ hak
        subst hak
        by_cases hab : a = b <;> simp [memLookup, hab]
      · rename_i hlt hne
        by_cases hkb : k = b
        · subst hkb; simp [memLookup, hne]
        · simp [memLookup, hkb, ih]

/-- A read after a write to the same address gives the byte written (R111). -/
theorem memRead_memWrite_same (m : Memory) (a : Nat) (v : Byte) (h : memWf m = true) :
    memRead (memWrite m a v) a = v := by
  simp [memRead, memLookup_memWrite m a a v h]

/-- A write leaves every other address alone (R57). -/
theorem memRead_memWrite_other (m : Memory) (a b : Nat) (v : Byte) (h : memWf m = true) (hab : a ≠ b) :
    memRead (memWrite m a v) b = memRead m b := by
  simp [memRead, memLookup_memWrite m a b v h, hab]

/-! ### The canonical form -/

/-- Canonical form of a longer list: the head is below every later address, and the rest is canonical. -/
theorem memWf_cons (k : Nat) (v : Byte) (m : Memory) :
    memWf ((k, v) :: m) = true ↔ (∀ cell ∈ m, k < cell.1) ∧ memWf m = true := by
  induction m generalizing k v with
  | nil => simp [memWf]
  | cons c m ih =>
    obtain ⟨k', v'⟩ := c
    simp only [memWf, Bool.and_eq_true, decide_eq_true_eq, List.mem_cons, forall_eq_or_imp]
    constructor
    · rintro ⟨hk, hm⟩
      have := (ih k' v').1 hm
      exact ⟨⟨hk, fun cell hc => lt_trans hk (this.1 cell hc)⟩, hm⟩
    · rintro ⟨⟨hk, -⟩, hm⟩
      exact ⟨hk, hm⟩

theorem mem_memWrite (m : Memory) (a : Nat) (v : Byte) (cell : Host.Cell) (h : cell ∈ memWrite m a v) :
    cell = (a, v) ∨ cell ∈ m := by
  induction m with
  | nil => simpa [memWrite] using h
  | cons c m ih =>
    obtain ⟨k, w⟩ := c
    unfold memWrite at h
    split at h
    · simpa using h
    · split at h
      · rcases List.mem_cons.1 h with h | h
        · exact .inl h
        · exact .inr (List.mem_cons_of_mem _ h)
      · rcases List.mem_cons.1 h with h | h
        · exact .inr (h ▸ List.mem_cons_self)
        · exact (ih h).imp_right (List.mem_cons_of_mem _)

/-- A write keeps the canonical form. -/
theorem memWf_memWrite (m : Memory) (a : Nat) (v : Byte) (h : memWf m = true) :
    memWf (memWrite m a v) = true := by
  induction m with
  | nil => rfl
  | cons c m ih =>
    obtain ⟨k, w⟩ := c
    have hm := (memWf_cons k w m).1 h
    unfold memWrite
    split
    · rename_i hlt
      refine (memWf_cons a v _).2 ⟨?_, h⟩
      intro cell hc
      rcases List.mem_cons.1 hc with rfl | hc
      · exact hlt
      · exact lt_trans hlt (hm.1 cell hc)
    · split
      · rename_i heq
        subst heq
        exact (memWf_cons a v m).2 ⟨hm.1, hm.2⟩
      · refine (memWf_cons k w _).2 ⟨?_, ih hm.2⟩
        intro cell hc
        rcases mem_memWrite m a v cell hc with rfl | hc
        · show k < a
          omega
        · exact hm.1 cell hc

theorem memBelow_memWrite (m : Memory) (a n : Nat) (v : Byte) (h : memBelow n m = true) (ha : a < n) :
    memBelow n (memWrite m a v) = true := by
  simp only [memBelow, List.all_eq_true, decide_eq_true_eq] at h ⊢
  intro cell hc
  rcases mem_memWrite m a v cell hc with rfl | hc
  · exact ha
  · exact h cell hc

/-- The canonical form, as a statement about all pairs of cells. -/
theorem memWf_iff_pairwise (m : Memory) : memWf m = true ↔ m.Pairwise fun c d => c.1 < d.1 := by
  induction m with
  | nil => simp [memWf]
  | cons c m ih =>
    obtain ⟨k, v⟩ := c
    rw [memWf_cons, List.pairwise_cons, ih]

/-- A fill keeps the canonical form. -/
theorem memWf_memFill (m : Memory) (n : Nat) (v : Byte) (h : memWf m = true) : memWf (memFill m n v) = true := by
  rw [memWf_iff_pairwise] at h ⊢
  refine List.pairwise_append.2 ⟨?_, h.sublist List.filter_sublist, ?_⟩
  · exact List.pairwise_map.2 (List.pairwise_lt_range.imp fun h => h)
  · intro c hc d hd
    obtain ⟨a, ha, rfl⟩ := List.mem_map.1 hc
    have hd := (List.mem_filter.1 hd).2
    have ha := List.mem_range.1 ha
    simp only [decide_eq_true_eq] at hd
    exact lt_of_lt_of_le ha hd

theorem memBelow_memFill (m : Memory) (n : Nat) (v : Byte) (h : memBelow n m = true) :
    memBelow n (memFill m n v) = true := by
  simp only [memBelow, List.all_eq_true, decide_eq_true_eq] at h ⊢
  intro c hc
  rcases List.mem_append.1 hc with hc | hc
  · obtain ⟨a, ha, rfl⟩ := List.mem_map.1 hc
    exact List.mem_range.1 ha
  · exact h c (List.mem_filter.1 hc).1

/-! ### Reading after a fill; two writes -/

theorem memLookup_fillPrefix (l : List Nat) (m : Memory) (v : Byte) (a : Nat) :
    memLookup (l.map (fun k => (k, v)) ++ m) a = if a ∈ l then some v else memLookup m a := by
  induction l with
  | nil => simp
  | cons k l ih =>
    simp only [List.map_cons, List.cons_append, memLookup, ih]
    by_cases h : k = a <;> simp [h, eq_comm (a := a) (b := k)]

theorem memLookup_filterAbove (m : Memory) (n a : Nat) (h : n ≤ a) :
    memLookup (m.filter fun cell => n ≤ cell.1) a = memLookup m a := by
  induction m with
  | nil => rfl
  | cons c m ih =>
    obtain ⟨k, b⟩ := c
    by_cases hk : n ≤ k
    · simp [hk, memLookup, ih]
    · have : k ≠ a := by omega
      simp [hk, memLookup, ih, this]

/-- After a fill the first `n` bytes read as the fill byte, the others as before (R116). -/
theorem memRead_memFill (m : Memory) (n : Nat) (v : Byte) (a : Nat) :
    memRead (memFill m n v) a = if a < n then v else memRead m a := by
  simp only [memFill, memRead, memLookup_fillPrefix]
  by_cases h : a < n
  · simp [h]
  · simp [h, memLookup_filterAbove _ _ _ (not_lt.1 h)]

/-- The last write of an address stands. -/
theorem memWrite_memWrite (m : Memory) (a : Nat) (v w : Byte) : memWrite (memWrite m a v) a w = memWrite m a w := by
  induction m with
  | nil => simp [memWrite]
  | cons c m ih =>
    obtain ⟨k, b⟩ := c
    by_cases h1 : a < k
    · simp [memWrite, h1]
    · by_cases h2 : a = k
      · simp [memWrite, h2]
      · simp [memWrite, h1, h2, ih]

end Sys2Proof.Machine
end

