-- ==== Sys2Proof/Laws/Drawing.lean ====
section
/-!
SUPPORT. Pixels and their bytes; the Bresenham registers after any number of advances.
-/

namespace Sys2Proof.Machine

/-- A legal geometry (R6). -/
theorem geometry_of_legal {c : Cfg} (h : cfgLegal c = true) : 0 < c.width ∧ c.width % 8 = 0 ∧ 0 < c.height := by
  simp [cfgLegal, geometryLegal] at h
  omega

/-- `N` is a number of whole rows of bytes (R53). -/
theorem cfg_n_eq {c : Cfg} (h : cfgLegal c = true) : c.n = c.height * (c.width / 8) := by
  obtain ⟨h1, h2, h3⟩ := geometry_of_legal h
  unfold Cfg.n
  obtain ⟨k, hk⟩ := Nat.dvd_of_mod_eq_zero h2
  rw [hk, Nat.mul_div_cancel_left _ (by norm_num : 0 < 8), Nat.mul_assoc, Nat.mul_div_cancel_left _ (by norm_num : 0 < 8), Nat.mul_comm]

/-- In range, as four inequalities (R56). -/
theorem inRange_iff (c : Cfg) (x y : Int) : inRange c x y = true ↔ 0 ≤ x ∧ x < c.width ∧ 0 ≤ y ∧ y < c.height := by
  simp [inRange, and_assoc]

/-- An in-range pixel's byte is one of `FB[0..N-1]` (R53, R56). -/
theorem pixelIdx_lt {c : Cfg} (h : cfgLegal c = true) {x y : Int} (hr : inRange c x y = true) : pixelIdx c x y < c.n := by
  obtain ⟨h1, h2, h3⟩ := geometry_of_legal h
  obtain ⟨a, b, d, e⟩ := (inRange_iff c x y).1 hr
  rw [cfg_n_eq h]
  unfold pixelIdx
  obtain ⟨k, hk⟩ := Nat.dvd_of_mod_eq_zero h2
  have hx : x.toNat / 8 < c.width / 8 := by omega
  have hy : y.toNat + 1 ≤ c.height := by omega
  calc y.toNat * (c.width/8) + x.toNat / 8 < y.toNat * (c.width/8) + c.width/8 := by omega
    _ = (y.toNat + 1) * (c.width/8) := by ring
    _ ≤ _ := Nat.mul_le_mul_right _ hy

/-- A pixel's bit is one of the eight (R53). -/
theorem pixelBit_lt (x) : pixelBit x < 8 := by unfold pixelBit; omega

/-- Writing one bit of a byte (R57). -/
theorem setBit_getLsbD (v : Byte) (i : Nat) (b : Bool) (j : Nat) (hi : i < 8)
    (hj : j < 8) : (setBit v i b).getLsbD j = if j = i then b else v.getLsbD j := by
  revert v b
  interval_cases i <;> interval_cases j <;> decide

/-- `set_pixel` in range (R110). -/
theorem setPixelAt_in {c x y col} {s : State} (h : inRange s.cfg x y = true)
    (hc : c = col) : setPixelAt x y col s = s.setFb (memWrite s.fb (pixelIdx s.cfg x y)
    (setBit (memRead s.fb (pixelIdx s.cfg x y)) (pixelBit x) (colorBit c))) := by
  subst hc; simp [setPixelAt, h]

/-- `set_pixel` out of range (R110). -/
theorem setPixelAt_out {x y col} {s : State} (h : inRange s.cfg x y = false) : setPixelAt x y col s = s := by
  simp [setPixelAt, h]

/-- `set_pixel` keeps the configuration. -/
theorem setPixelAt_cfg (x y col) (s : State) : (setPixelAt x y col s).cfg = s.cfg := by
  obtain ⟨m, h⟩ := setPixelAt_rest x y col s; rw [h]; rfl

/-- `set_pixel` keeps the canonical form. -/
theorem setPixelAt_wf (x y col) (s : State) (h : memWf s.fb = true) : memWf (setPixelAt x y col s).fb = true := by
  unfold setPixelAt; split
  · exact memWf_memWrite _ _ _ h
  · exact h

/-- The registers after `k` advances, of which `i` moved in x and `j` in y (R113): where the point is, what ERR holds, and the bounds
that keep the longer direction moving at every advance. -/
structure LineInv (x1 y1 x2 y2 : Int) (k : Nat) (i j : Nat) (l : LineRegs) : Prop where
  fx : l.x = x1 + lineSign x1 x2 * i
  fy : l.y = y1 + lineSign y1 y2 * j
  fx2 : l.x2 = x2
  fy2 : l.y2 = y2
  fa : l.dxa = (x2 - x1).natAbs
  fb : l.dya = (y2 - y1).natAbs
  fsx : l.sx = lineSign x1 x2
  fsy : l.sy = lineSign y1 y2
  err : l.err = ((j:Int)+1) * (x2 - x1).natAbs - ((i:Int)+1) * (y2 - y1).natAbs
  ik : (y2 - y1).natAbs ≤ (x2 - x1).natAbs → i = k
  jk : (x2 - x1).natAbs ≤ (y2 - y1).natAbs → j = k
  e1 : (y2 - y1).natAbs < (x2 - x1).natAbs → -((y2 - y1).natAbs:Int) < 2 * l.err ∧
      2 * l.err < 3 * (x2 - x1).natAbs - 2 * (y2 - y1).natAbs
  e2 : (x2 - x1).natAbs < (y2 - y1).natAbs → -((x2 - x1).natAbs:Int) < -(2 * l.err) ∧
      -(2 * l.err) < 3 * (y2 - y1).natAbs - 2 * (x2 - x1).natAbs

/-- The registers as loaded. -/
theorem lineInv_start (x1 y1 x2 y2 : Int) : LineInv x1 y1 x2 y2 0 0 0 (lineStart x1 y1 x2 y2) := by
  constructor <;> simp only [lineStart] <;>
    first | rfl | (intro h; first | rfl | (constructor <;> omega)) | (push_cast; ring)

/-- One advance keeps the invariant. -/
theorem lineInv_step {x1 y1 x2 y2 : Int} {k i j l} (h : LineInv x1 y1 x2 y2 k i j l) (hp : x1 ≠ x2 ∨
    y1 ≠ y2) : ∃ i' j', LineInv x1 y1 x2 y2 (k+1) i' j' (lineAdvance l) := by
  obtain ⟨hx,hy,hx2,hy2,hda,hdb,hsx,hsy,he,hik,hjk,h1,h2⟩ := h
  have ha0 : (0:Int) ≤ (x2 - x1).natAbs := by omega
  generalize hA : (x2 - x1).natAbs = A at *
  generalize hB : (y2 - y1).natAbs = B at *
  have hpos : 0 < A ∨ 0 < B := by omega
  have eqc : A = B → l.err = 0 := by
    intro hab
    have a1 := hik (by omega); have a2 := hjk (by omega)
    rw [he, a1, a2, hab]; ring
  by_cases cx : -l.dya < 2 * l.err <;> by_cases cy : 2 * l.err < l.dxa
  · refine ⟨i+1, j+1, ?_⟩
    have hadv : lineAdvance l = { l with err := l.err - l.dya + l.dxa, x := l.x + l.sx, y := l.y + l.sy } := by
      simp [lineAdvance, lineAdvanceX, lineAdvanceY, cx, cy]
    rw [hadv]
    rw [hda] at cy; rw [hdb] at cx
    constructor <;> simp only [hA, hB]
    · rw [hx, hsx]; push_cast; ring
    · rw [hy, hsy]; push_cast; ring
    · exact hx2
    · exact hy2
    · exact hda
    · exact hdb
    · exact hsx
    · exact hsy
    · rw [he, hda, hdb]; push_cast; ring
    · intro h; rw [hik h]
    · intro h; rw [hjk h]
    · intro h; have := h1 h; rw [hda, hdb]; constructor <;> omega
    · intro h; have := h2 h; rw [hda, hdb]; constructor <;> omega
  · refine ⟨i+1, j, ?_⟩
    have hadv : lineAdvance l = { l with err := l.err - l.dya, x := l.x + l.sx } := by
      simp [lineAdvance, lineAdvanceX, lineAdvanceY, cx, cy]
    rw [hadv]
    rw [hda] at cy; rw [hdb] at cx
    constructor <;> simp only [hA, hB]
    · rw [hx, hsx]; push_cast; ring
    · exact hy
    · exact hx2
    · exact hy2
    · exact hda
    · exact hdb
    · exact hsx
    · exact hsy
    · rw [he, hdb]; push_cast; ring
    · intro h; rw [hik h]
    · intro h
      rcases Nat.lt_or_ge A B with hl | hl
      · have := h2 hl; omega
      · have := eqc (by omega); omega
    · intro h; have := h1 h; rw [hdb]; constructor <;> omega
    · intro h; have := h2 h; omega
  · refine ⟨i, j+1, ?_⟩
    have hadv : lineAdvance l = { l with err := l.err + l.dxa, y := l.y + l.sy } := by
      simp [lineAdvance, lineAdvanceX, lineAdvanceY, cx, cy]
    rw [hadv]
    rw [hda] at cy; rw [hdb] at cx
    constructor <;> simp only [hA, hB]
    · exact hx
    · rw [hy, hsy]; push_cast; ring
    · exact hx2
    · exact hy2
    · exact hda
    · exact hdb
    · exact hsx
    · exact hsy
    · rw [he, hda]; push_cast; ring
    · intro h
      rcases Nat.lt_or_ge B A with hl | hl
      · have := h1 hl; omega
      · have := eqc (by omega); omega
    · intro h; rw [hjk h]
    · intro h; have := h1 h; omega
    · intro h; have := h2 h; rw [hda]; constructor <;> omega
  · exfalso
    rw [hda] at cy; rw [hdb] at cx
    omega

/-- The registers after `k` advances. -/
def lineReg (x1 y1 x2 y2 : Int) (k : Nat) : LineRegs := lineAdvance^[k] (lineStart x1 y1 x2 y2)

/-- One advance more. -/
theorem lineReg_succ (x1 y1 x2 y2 : Int)
    (k : Nat) : lineReg x1 y1 x2 y2 (k+1) = lineAdvance (lineReg x1 y1 x2 y2 k) := Function.iterate_succ_apply' _ _ _

/-- The invariant after any number of advances. -/
theorem lineInv_reg {x1 y1 x2 y2 : Int} (hp : x1 ≠ x2 ∨ y1 ≠ y2)
    (k : Nat) : ∃ i j, LineInv x1 y1 x2 y2 k i j (lineReg x1 y1 x2 y2 k) := by
  induction k with
  | zero => exact ⟨0, 0, lineInv_start ..⟩
  | succ k ih => obtain ⟨i, j, h⟩ := ih; rw [lineReg_succ]; exact lineInv_step h hp

/-- `max(DXA, DYA)` (R114). -/
abbrev lineMax (x1 y1 x2 y2 : Int) : Nat := max (x2 - x1).natAbs (y2 - y1).natAbs

/-- Up to `max(DXA, DYA)` advances neither direction overshoots, and then both are at the end. -/
theorem lineInv_bound {x1 y1 x2 y2 : Int} {k i j l} (h : LineInv x1 y1 x2 y2 k i j l) (hk : k ≤ lineMax x1 y1 x2 y2) :
    i ≤ (x2 - x1).natAbs ∧ j ≤ (y2 - y1).natAbs ∧ (k = lineMax x1 y1 x2 y2 → i = (x2 - x1).natAbs ∧
        j = (y2 - y1).natAbs) := by
  obtain ⟨hx,hy,hx2,hy2,hda,hdb,hsx,hsy,he,hik,hjk,h1,h2⟩ := h
  unfold lineMax at *
  generalize hA : (x2 - x1).natAbs = A at *
  generalize hB : (y2 - y1).natAbs = B at *
  rcases Nat.lt_trichotomy A B with hl | hl | hl
  · have e := h2 hl
    have hj := hjk (by omega)
    subst hj
    rw [Nat.max_eq_right (by omega)] at hk ⊢
    rw [he] at e
    have i1 : i ≤ A := by
      have h3 : (2 * ((i:Int)+1) * B) < 3 * B + 2 * j * A := by nlinarith [e.2]
      have h4 : 2 * (j:Int) * A ≤ 2 * B * A := by
        have : (j:Int) ≤ B := by exact_mod_cast hk
        nlinarith
      have h5 : (2 * ((i:Int)+1)) * B < (3 + 2 * A) * B := by nlinarith
      have h6 := lt_of_mul_lt_mul_right h5 (by omega)
      omega
    refine ⟨i1, hk, fun hkk => ?_⟩
    subst hkk
    refine ⟨?_, rfl⟩
    have h5 : 2 * (A:Int) * j < 2 * ((i:Int) + 1) * j := by nlinarith [e.1]
    have h6 := lt_of_mul_lt_mul_right h5 (by omega)
    omega
  · have := hik (by omega); have := hjk (by omega)
    subst hl; simp at hk ⊢; omega
  · have e := h1 hl
    have hj := hik (by omega)
    subst hj
    rw [Nat.max_eq_left (by omega)] at hk ⊢
    rw [he] at e
    have i1 : j ≤ B := by
      have h3 : (2 * ((j:Int)+1) * A) < 3 * A + 2 * i * B := by nlinarith [e.2]
      have h4 : 2 * (i:Int) * B ≤ 2 * A * B := by
        have : (i:Int) ≤ A := by exact_mod_cast hk
        nlinarith
      have h5 : (2 * ((j:Int)+1)) * A < (3 + 2 * B) * A := by nlinarith
      have h6 := lt_of_mul_lt_mul_right h5 (by omega)
      omega
    refine ⟨hk, i1, fun hkk => ?_⟩
    subst hkk
    refine ⟨rfl, ?_⟩
    have h5 : 2 * (B:Int) * i < 2 * ((j:Int) + 1) * i := by nlinarith [e.1]
    have h6 := lt_of_mul_lt_mul_right h5 (by omega)
    omega

/-- The sign times the distance. -/
theorem lineSign_mul (a b : Int) : lineSign a b * (b - a).natAbs = b - a := by
  unfold lineSign; split <;> omega

/-- Where the end coordinate is reached. -/
theorem lineSign_inj {a b : Int} {i : Nat} (hi : i ≤ (b - a).natAbs) (h : a + lineSign a b * i = b) : i = (b - a).natAbs := by
  unfold lineSign at h; split at h <;> omega

/-- The point after `k` advances, for lines of any shape. -/
theorem lineReg_facts (x1 y1 x2 y2 : Int) (k : Nat) (hk : k ≤ lineMax x1 y1 x2 y2) : ∃ i j : Nat,
   (lineReg x1 y1 x2 y2 k).x = x1 + lineSign x1 x2 * i ∧ (lineReg x1 y1 x2 y2 k).y = y1 + lineSign y1 y2 * j ∧
   i ≤ (x2 - x1).natAbs ∧ j ≤ (y2 - y1).natAbs ∧ ((y2 - y1).natAbs ≤ (x2 - x1).natAbs → i = k) ∧
       ((x2 - x1).natAbs ≤ (y2 - y1).natAbs → j = k) ∧
   (lineReg x1 y1 x2 y2 k).x2 = x2 ∧ (lineReg x1 y1 x2 y2 k).y2 = y2 ∧ (k = lineMax x1 y1 x2 y2 → i = (x2 - x1).natAbs ∧
       j = (y2 - y1).natAbs) := by
  by_cases hp : x1 ≠ x2 ∨ y1 ≠ y2
  · obtain ⟨i, j, h⟩ := lineInv_reg hp k
    obtain ⟨b1, b2, b3⟩ := lineInv_bound h hk
    exact ⟨i, j, h.fx, h.fy, b1, b2, h.ik, h.jk, h.fx2, h.fy2, b3⟩
  · have h1 : x1 = x2 := by omega
    have h2 : y1 = y2 := by omega
    subst h1 h2
    simp [lineMax] at hk
    subst hk
    exact ⟨0, 0, by simp [lineReg, lineStart], by simp [lineReg, lineStart], by simp, by simp, by simp, by simp, rfl, rfl,
        by simp⟩

/-- The loop bound of the model (R114). -/
theorem lineCount_eq (x1 y1 x2 y2 : Int) : lineCount (lineStart x1 y1 x2 y2) = lineMax x1 y1 x2 y2 + 1 := by
  simp only [lineCount, lineStart, lineMax]; omega

/-- `set_pixel` does not look at the line registers. -/
theorem setPixelAt_setLine (x y col l) (s : State) : setPixelAt x y col (s.setLine l) = (setPixelAt x y col s).setLine l := by
  have hc : (s.setLine l).cfg = s.cfg := rfl
  unfold setPixelAt; rw [hc]; split <;> rfl

/-- The last load of the line registers stands. -/
theorem setLine_setLine (s : State) (a b) : (s.setLine a).setLine b = s.setLine b := rfl

/-- The loop calls `set_pixel` on the points, in order. -/
theorem lineLoop_fold {col} (n : Nat) (l : LineRegs) (s : State) :
   (lineLoop col n (s.setLine l)).fb = ((linePoints n l).foldl (fun u p => setPixelAt p.1 p.2 col u) s).fb := by
  induction n generalizing l s with
  | zero => rfl
  | succ n ih =>
    unfold lineLoop linePoints
    simp only [setPixelAt_setLine, State.setLine_line, setLine_setLine, List.foldl_cons]
    split
    · simp
    · exact ih _ _

/-- `draw_line` calls `set_pixel` on the points of the line, in order (R113). -/
theorem drawLine_fb (x1 y1 x2 y2 col)
    (s : State) : (drawLineAt x1 y1 x2 y2 col s).fb = ((lineOf x1 y1 x2 y2).foldl (fun u p => setPixelAt p.1 p.2 col u) s).fb := by
  unfold drawLineAt lineOf
  rw [dropLine_fb]
  exact lineLoop_fold _ _ _

end Sys2Proof.Machine
end

