-- ==== Sys2Proof/Laws/PerInstr.lean ====
section
/-!
SUPPORT. For every instruction: its code word is one of the words its row of spec/opcode_table.json covers (mask and match).
-/

namespace Sys2Proof.Laws.TableRow

/-- The row of spec/opcode_table.json: bits, mask, match. -/
def row : Instr → Nat × Nat × Nat
  | .panelSet => (16, 0x1FF, 0x000)
  | .pwrSet => (16, 0x1FF, 0x001)
  | .pwrOff => (16, 0x1FF, 0x002)
  | .pwrOn => (16, 0x1FF, 0x004)
  | .deepSleep => (16, 0x1FF, 0x007)
  | .dataOld => (16, 0x1FF, 0x010)
  | .refresh => (16, 0x1FF, 0x012)
  | .dataNew => (16, 0x1FF, 0x013)
  | .panelSet2 => (16, 0x1FF, 0x015)
  | .vcomCdi => (16, 0x1FF, 0x050)
  | .tconSet => (16, 0x1FF, 0x060)
  | .resSet => (16, 0x1FF, 0x061)
  | .status => (16, 0x1FF, 0x071)
  | .data _ => (16, 0x100, 0x100)
  | .setPixel => (8, 0x7, 0x0)
  | .drawLine => (8, 0x7, 0x1)
  | .fill => (8, 0x7, 0x2)
  | .mapValue => (8, 0x7, 0x3)
  | .updateScreen => (8, 0x7, 0x4)
  | .cleanScreen => (8, 0x7, 0x5)
  | .reserved6 => (8, 0x7, 0x6)
  | .reserved7 => (8, 0x7, 0x7)

/-- The instruction's code word is a word of its table row. -/
def Statement (i : Instr) : Prop :=
  ∃ w : Nat, tableCode (row i).1 w = some (encode i) ∧ w &&& (row i).2.1 = (row i).2.2

theorem panelSet : Statement .panelSet := ⟨0x000, by decide⟩
theorem pwrSet : Statement .pwrSet := ⟨0x001, by decide⟩
theorem pwrOff : Statement .pwrOff := ⟨0x002, by decide⟩
theorem pwrOn : Statement .pwrOn := ⟨0x004, by decide⟩
theorem deepSleep : Statement .deepSleep := ⟨0x007, by decide⟩
theorem dataOld : Statement .dataOld := ⟨0x010, by decide⟩
theorem refresh : Statement .refresh := ⟨0x012, by decide⟩
theorem dataNew : Statement .dataNew := ⟨0x013, by decide⟩
theorem panelSet2 : Statement .panelSet2 := ⟨0x015, by decide⟩
theorem vcomCdi : Statement .vcomCdi := ⟨0x050, by decide⟩
theorem tconSet : Statement .tconSet := ⟨0x060, by decide⟩
theorem resSet : Statement .resSet := ⟨0x061, by decide⟩
theorem status : Statement .status := ⟨0x071, by decide⟩

theorem data (d : Byte) : Statement (.data d) := by
  refine ⟨(frameWord d false).toNat, ?_, ?_⟩
  · have h : (frameWord d false).toNat < 512 := (frameWord d false).isLt
    simp [row, tableCode, encode, h]
  · have h : (frameWord d false) &&& 0x100#9 = 0x100#9 := by
      apply BitVec.eq_of_getLsbD_eq
      intro i hi
      simp only [frameWord, BitVec.getLsbD_and, BitVec.getLsbD_append, Bool.not_false]
      have : i = 8 ∨ i < 8 := by omega
      rcases this with rfl | hlt
      · rfl
      · have h0 : (0x100#9).getLsbD i = false := by
          interval_cases i <;> rfl
        simp [h0]
    have := congrArg BitVec.toNat h
    simpa [row, BitVec.toNat_and] using this

theorem setPixel : Statement .setPixel := ⟨0x0, by decide⟩
theorem drawLine : Statement .drawLine := ⟨0x1, by decide⟩
theorem fill : Statement .fill := ⟨0x2, by decide⟩
theorem mapValue : Statement .mapValue := ⟨0x3, by decide⟩
theorem updateScreen : Statement .updateScreen := ⟨0x4, by decide⟩
theorem cleanScreen : Statement .cleanScreen := ⟨0x5, by decide⟩
theorem reserved6 : Statement .reserved6 := ⟨0x6, by decide⟩
theorem reserved7 : Statement .reserved7 := ⟨0x7, by decide⟩

end Sys2Proof.Laws.TableRow
end

