-- ==== Sys2Proof/Tests/Slice0.lean ====
section
/-!
SUPPORT. Tests: expected results are from spec/95_test_vectors.md and the examples of the rules. Then, for each obligation with
hypotheses, states and operands that meet them.
-/

namespace Sys2Proof.Tests
open Sys2Proof.Machine

/-! ### Small states -/

/-- A device of the given mode and geometry, with the suggested payloads (95_test_vectors.md), ready at HIGH. -/
def dev (m : Mode) (w h : Nat) : Cfg where
  width := w
  height := h
  mode := m
  pins :=
    { busy := 0, rst := 1, dc := 2
      sda := if m.isSw then some 3 else none
      sck := if m.isSw then some 4 else none
      cs := if m.isSw then some 5 else none }
  caps := { gw := true, gr := true, dly := true, tx := !m.isSw }
  pwrPayload := [0x07#8, 0x07#8, 0x3F#8, 0x3F#8]
  psrByte := 0x1F#8
  resHH := BitVec.ofNat 8 (w / 256)
  resHL := BitVec.ofNat 8 w
  resVH := BitVec.ofNat 8 (h / 256)
  resVL := BitVec.ofNat 8 h
  p15Payload := [0x00#8]
  cdiA := 0x10#8
  cdiB := 0x07#8
  tconPayload := [0x22#8]
  durations := { rstLow := 11, rstHigh := 12, refresh := 13, poll := 14, bit := 15 }
  readyLevel := .high
  csActive := .low

/-- An idle device with the given framebuffer bytes. -/
def idle (c : Cfg) (bytes : List Byte) : State where
  cfg := c
  fb := (List.range bytes.length).zip bytes
  txerr := false
  inflight := false
  req := Request.zero
  res := 0#36
  seq := none
  line := { x := 0, y := 0, x2 := 0, y2 := 0, dxa := 0, dya := 0, sx := 0, sy := 0, err := 0 }
  shr := 0#9
  bitn := 0#4
  pinl := { rst := .low, dc := .low, sda := .low, sck := .low, cs := .low }
  env := { trace := [], requests := [], busyIn := [], txIn := [], capFail := none, free := 0 }

/-- A request record. -/
def rq (op : OpCode) (a0 a1 a2 a3 a4 : Int) (c : BitVec 1) : Request where
  op := op
  a0 := BitVec.ofInt 16 a0
  a1 := BitVec.ofInt 16 a1
  a2 := BitVec.ofInt 16 a2
  a3 := BitVec.ofInt 16 a3
  a4 := BitVec.ofInt 16 a4
  c := c

/-- An update in flight at a position. -/
def flying (upc cnt : Nat) (s : State) : State :=
  (s.setInflight true).setSeq (some { upc := upc, cnt := cnt, src := .fb })

/-- The framebuffer bytes of the next state. -/
def bytesOf (a : Answer) : Option (List Byte) :=
  match a with
  | .next s => some (s.fb.map (·.2))
  | .fault _ | .refused _ => none

/-- The events of the next state. -/
def traceOf (a : Answer) : Option (List Event) :=
  match a with
  | .next s => some s.env.trace
  | .fault _ | .refused _ => none

/-- INFLIGHT and the position of the next state. -/
def placeOf (a : Answer) : Option (Bool × Option SeqPos) :=
  match a with
  | .next s => some (s.inflight, s.seq)
  | .fault _ | .refused _ => none

/-- TXERR of the next state. -/
def txerrOf (a : Answer) : Option Bool :=
  match a with
  | .next s => some s.txerr
  | .fault _ | .refused _ => none

/-- RES of the next state, as a signed number. -/
def resOf (a : Answer) : Option Int :=
  match a with
  | .next s => some s.res.toInt
  | .fault _ | .refused _ => none

/-- Whether the answer is a next state. -/
def goesOn (a : Answer) : Bool :=
  match a with
  | .next _ => true
  | .fault _ | .refused _ => false

/-- The refusal, if it is one. -/
def refusalOf (a : Answer) : Option Refusal :=
  match a with
  | .refused r => some r
  | .next _ | .fault _ => none

theorem goesOn_iff (a : Answer) : goesOn a = true ↔ ∃ t, a = .next t := by
  cases a <;> simp [goesOn]

/-- 16x2, the framebuffer of programs P3 and P4. -/
def p3 (m : Mode) : State := idle (dev m 16 2) [0x80#8, 0x40#8, 0x00#8, 0x01#8]

/-- 16x2, the framebuffer of program P1 and of V32, V33. -/
def p1 (r : Request) : State := (idle (dev .hw4 16 2) [0xAA#8, 0x55#8, 0x3C#8, 0xC3#8]).setReq r

/-! ### Well-formedness: the ill-formed terms of each check (R95, R28, R6, R8, R92) -/

theorem test_wf_refuses_reserved6 : Instr.reserved6.wf = false := by decide
theorem test_wf_refuses_reserved7 : Instr.reserved7.wf = false := by decide
theorem test_wf_accepts_data : (Instr.data 0xFF#8).wf = true := by decide
theorem test_cfg_reference_is_legal : cfgLegal Cfg.reference = true := by decide
theorem test_cfg_small_are_legal : ∀ m ∈ [Mode.hw4, .hw3, .sw4, .sw3], cfgLegal (dev m 16 2) = true := by decide
theorem test_cfg_geometry_refused :
    geometryLegal (dev .hw4 15 2) = false ∧ geometryLegal (dev .hw4 0 2) = false ∧ geometryLegal (dev .hw4 16 0) = false ∧
      geometryLegal (dev .hw4 65536 2) = false ∧ geometryLegal (dev .hw4 16 65536) = false := by decide
theorem test_cfg_pins_refused :
    pinsLegal { dev .hw4 16 2 with pins := { busy := 0, rst := 1, dc := 1, sda := none, sck := none, cs := none } } = false ∧
      pinsLegal { dev .sw4 16 2 with pins := { busy := 0, rst := 1, dc := 2, sda := none, sck := some 4, cs := some 5 } } = false ∧
      pinsLegal { dev .hw3 16 2 with pins := (dev .sw3 16 2).pins } = false := by decide
theorem test_cfg_caps_refused :
    capsLegal { dev .hw4 16 2 with caps := { gw := true, gr := true, dly := true, tx := false } } = false ∧
      capsLegal { dev .sw4 16 2 with caps := { gw := true, gr := true, dly := true, tx := true } } = false ∧
      capsLegal { dev .sw4 16 2 with caps := { gw := true, gr := false, dly := true, tx := false } } = false := by decide
theorem test_cfg_resolution_refused : resolutionLegal { dev .hw4 16 2 with resHL := 0x11#8 } = false := by decide
theorem test_mode_codes : Mode.code .hw4 = 0b00#2 ∧ Mode.code .hw3 = 0b01#2 ∧ Mode.code .sw4 = 0b10#2 ∧ Mode.code .sw3 = 0b11#2 ∧
    ∀ m ∈ [Mode.hw4, .hw3, .sw4, .sw3], (Mode.code m).getLsbD 1 = m.isSw ∧ (Mode.code m).getLsbD 0 = m.is3wire := by decide

/-! ### Decoding: every row from its word written out in bits (R89, R94) -/

theorem test_decode_panelSet : decodeTableWord 16 0b000000000 = some .panelSet := by decide
theorem test_decode_pwrSet : decodeTableWord 16 0b000000001 = some .pwrSet := by decide
theorem test_decode_pwrOff : decodeTableWord 16 0b000000010 = some .pwrOff := by decide
theorem test_decode_pwrOn : decodeTableWord 16 0b000000100 = some .pwrOn := by decide
theorem test_decode_deepSleep : decodeTableWord 16 0b000000111 = some .deepSleep := by decide
theorem test_decode_dataOld : decodeTableWord 16 0b000010000 = some .dataOld := by decide
theorem test_decode_refresh : decodeTableWord 16 0b000010010 = some .refresh := by decide
theorem test_decode_dataNew : decodeTableWord 16 0b000010011 = some .dataNew := by decide
theorem test_decode_panelSet2 : decodeTableWord 16 0b000010101 = some .panelSet2 := by decide
theorem test_decode_vcomCdi : decodeTableWord 16 0b001010000 = some .vcomCdi := by decide
theorem test_decode_tconSet : decodeTableWord 16 0b001100000 = some .tconSet := by decide
theorem test_decode_resSet : decodeTableWord 16 0b001100001 = some .resSet := by decide
theorem test_decode_status : decodeTableWord 16 0b001110001 = some .status := by decide
theorem test_decode_data : decodeTableWord 16 0b110100101 = some (.data 0xA5#8) := by decide
theorem test_decode_setPixel : decodeTableWord 8 0b000 = some .setPixel := by decide
theorem test_decode_drawLine : decodeTableWord 8 0b001 = some .drawLine := by decide
theorem test_decode_fill : decodeTableWord 8 0b010 = some .fill := by decide
theorem test_decode_mapValue : decodeTableWord 8 0b011 = some .mapValue := by decide
theorem test_decode_updateScreen : decodeTableWord 8 0b100 = some .updateScreen := by decide
theorem test_decode_cleanScreen : decodeTableWord 8 0b101 = some .cleanScreen := by decide
theorem test_decode_reserved6 : decodeTableWord 8 0b110 = some .reserved6 := by decide
theorem test_decode_reserved7 : decodeTableWord 8 0b111 = some .reserved7 := by decide
/-- Command codes that are no row, and bits above a row's own (R95). -/
theorem test_decode_refuses : decodeTableWord 16 0x003 = none ∧ decodeTableWord 16 0x0FF = none ∧
    decodeTableWord 16 0x200 = none ∧ decodeTableWord 8 8 = none := by decide
/-- V36: frame words and buffers. -/
theorem test_pack : packFrame (frameWord 0x04#8 true) = [0x02#8, 0x00#8] ∧ packFrame (frameWord 0xA5#8 false) = [0xD2#8, 0x80#8] ∧
    packFrame (frameWord 0x00#8 false) = [0x80#8, 0x00#8] ∧ packFrame (frameWord 0xFF#8 true) = [0x7F#8, 0x80#8] ∧
    packFrame (frameWord 0x71#8 true) = [0x38#8, 0x80#8] := by decide

/-! ### Frames -/

/-- The examples of R200 to R211, mode HW3. -/
theorem test_commands_hw3 :
    traceOf (exec .panelSet (p3 .hw3)) = some [.tx9 0x000#9] ∧ traceOf (exec .pwrSet (p3 .hw3)) = some [.tx9 0x001#9] ∧
    traceOf (exec .pwrOff (p3 .hw3)) = some [.tx9 0x002#9] ∧ traceOf (exec .pwrOn (p3 .hw3)) = some [.tx9 0x004#9] ∧
    traceOf (exec .deepSleep (p3 .hw3)) = some [.tx9 0x007#9] ∧ traceOf (exec .dataOld (p3 .hw3)) = some [.tx9 0x010#9] ∧
    traceOf (exec .refresh (p3 .hw3)) = some [.tx9 0x012#9] ∧ traceOf (exec .dataNew (p3 .hw3)) = some [.tx9 0x013#9] ∧
    traceOf (exec .panelSet2 (p3 .hw3)) = some [.tx9 0x015#9] ∧ traceOf (exec .vcomCdi (p3 .hw3)) = some [.tx9 0x050#9] ∧
    traceOf (exec .tconSet (p3 .hw3)) = some [.tx9 0x060#9] ∧ traceOf (exec .resSet (p3 .hw3)) = some [.tx9 0x061#9] := by
  decide

/-- R150, mode HW4. -/
theorem test_pwrOn_hw4 : traceOf (exec .pwrOn (p3 .hw4)) = some [.gw .dc .low, .tx8 0x04#8] := by decide

/-- The cell of one bit, as R131 lists it, with this file's `T_BIT`. -/
def bitCell (l : Level) : List Event :=
  [.gw .sck .low, .dly .tBit 15, .gw .sda l, .dly .tBit 15, .gw .sck .high, .dly .tBit 15]

/-- The 51 events of `write_command(0x04)` in SW4 (95_test_vectors.md 2.5). -/
theorem test_pwrOn_sw4 : traceOf (exec .pwrOn (p3 .sw4)) = some
    ([.gw .dc .low, .gw .cs .low] ++
      (bitCell .low ++ bitCell .low ++ bitCell .low ++ bitCell .low ++ bitCell .low ++ bitCell .high ++ bitCell .low ++ bitCell .low) ++
      [.gw .cs .high]) := by decide

/-- The 56 events of `write_data(0xA5)` in SW3 (95_test_vectors.md 2.5). -/
theorem test_data_sw3 : traceOf (exec (.data 0xA5#8) (p3 .sw3)) = some
    ([.gw .cs .low] ++
      (bitCell .high ++ bitCell .high ++ bitCell .low ++ bitCell .high ++ bitCell .low ++ bitCell .low ++ bitCell .high ++
        bitCell .low ++ bitCell .high) ++
      [.gw .cs .high]) := by decide

/-- The last byte of a step moves on to the next (R24). -/
theorem test_data_last_byte : placeOf (exec (.data 0x3F#8) (flying 5 3 (p3 .hw4))) =
    some (true, some { upc := 6, cnt := 0, src := .fb }) := by decide

/-- The TXERR vectors of 95_test_vectors.md 2.5. -/
theorem test_txerr_set : txerrOf (exec .refresh ((p3 .hw4).setTxIn [false])) = some true ∧
    traceOf (exec .refresh ((p3 .hw4).setTxIn [false])) = some [.gw .dc .low, .tx8 0x12#8] := by decide
theorem test_txerr_sticky : txerrOf (exec .refresh (((p3 .hw4).setTxIn [true]).setTxerr true)) = some true := by decide

/-- V37, and the first poll of V38. -/
theorem test_status_ready : traceOf (exec .status (flying 7 0 ((p3 .hw4).setBusyIn [.high]))) =
      some [.gw .dc .low, .tx8 0x71#8, .gr .busy .high] ∧
    placeOf (exec .status (flying 7 0 ((p3 .hw4).setBusyIn [.high]))) = some (true, some { upc := 8, cnt := 0, src := .fb }) := by
  decide
theorem test_status_not_ready : traceOf (exec .status (flying 7 0 ((p3 .hw4).setBusyIn [.low]))) =
      some [.gw .dc .low, .tx8 0x71#8, .gr .busy .low, .dly .tPoll 14] ∧
    placeOf (exec .status (flying 7 0 ((p3 .hw4).setBusyIn [.low]))) = some (true, some { upc := 7, cnt := 0, src := .fb }) := by
  decide

/-! ### Framebuffer operations -/

/-- V1 to V8: byte and bit. -/
theorem test_pixel_places : [(0, 0), (7, 0), (8, 0), (799, 0), (0, 1), (9, 2), (400, 240), (799, 479)].map
      (fun p : Int × Int => (pixelIdx (dev .hw4 800 480) p.1 p.2, pixelBit p.1)) =
    [(0, 7), (0, 0), (1, 7), (99, 0), (100, 7), (201, 6), (24050, 7), (47999, 0)] := by decide

/-- P1, steps 2 and 5 to 8 in kind: one bit, or nothing. -/
theorem test_setPixel_in_range : bytesOf (exec .setPixel ((p3 .hw4).setReq (rq 0b000#3 9 0 0 0 0 1#1))) =
    some [0x80#8, 0x40#8, 0x00#8, 0x01#8] ∧
    bytesOf (exec .setPixel ((p3 .hw4).setReq (rq 0b000#3 0 0 0 0 0 0#1))) = some [0x00#8, 0x40#8, 0x00#8, 0x01#8] := by decide
theorem test_setPixel_out_of_range :
    [rq 0b000#3 16 0 0 0 0 1#1, rq 0b000#3 (-1) 1 0 0 0 1#1, rq 0b000#3 3 2 0 0 0 1#1, rq 0b000#3 5 (-32768) 0 0 0 0#1].map
      (fun r => bytesOf (exec .setPixel (p1 r))) =
    List.replicate 4 (some [0xAA#8, 0x55#8, 0x3C#8, 0xC3#8]) := by decide

/-- V14 to V20: the octants. -/
theorem test_lines_octants :
    lineOf 0 0 2 1 = [(0, 0), (1, 0), (2, 1)] ∧ lineOf 2 1 0 0 = [(2, 1), (1, 1), (0, 0)] ∧
    lineOf 0 0 3 1 = [(0, 0), (1, 0), (2, 1), (3, 1)] ∧ lineOf 0 0 1 3 = [(0, 0), (0, 1), (1, 2), (1, 3)] ∧
    lineOf 0 0 (-3) 1 = [(0, 0), (-1, 0), (-2, 1), (-3, 1)] ∧ lineOf 0 0 3 (-1) = [(0, 0), (1, 0), (2, -1), (3, -1)] ∧
    lineOf 0 0 (-3) (-1) = [(0, 0), (-1, 0), (-2, -1), (-3, -1)] ∧
    lineOf 0 0 (-1) (-3) = [(0, 0), (0, -1), (-1, -2), (-1, -3)] := by decide

/-- V22 to V31: straight lines, a point, and the lines that depend on strictness. -/
theorem test_lines_shapes :
    lineOf 4 0 0 0 = [(4, 0), (3, 0), (2, 0), (1, 0), (0, 0)] ∧ lineOf 0 0 0 3 = [(0, 0), (0, 1), (0, 2), (0, 3)] ∧
    lineOf 0 3 3 0 = [(0, 3), (1, 2), (2, 1), (3, 0)] ∧ lineOf 5 5 5 5 = [(5, 5)] ∧
    lineOf 0 0 7 3 = [(0, 0), (1, 0), (2, 1), (3, 1), (4, 2), (5, 2), (6, 3), (7, 3)] ∧
    lineOf (-2) (-1) 2 1 = [(-2, -1), (-1, -1), (0, 0), (1, 0), (2, 1)] ∧
    lineOf 4 2 0 0 = [(4, 2), (3, 2), (2, 1), (1, 1), (0, 0)] ∧
    lineOf 0 0 8 7 = [(0, 0), (1, 1), (2, 2), (3, 3), (4, 3), (5, 4), (6, 5), (7, 6), (8, 7)] := by decide

/-- P2, steps 2 and 3: a line across the panel, and one that is clipped. -/
theorem test_drawLine_across :
    bytesOf (exec .drawLine ((idle (dev .hw4 16 8) (List.replicate 16 0x00#8)).setReq (rq 0b001#3 0 0 15 7 0 1#1))) =
    some [0xC0#8, 0x00#8, 0x30#8, 0x00#8, 0x0C#8, 0x00#8, 0x03#8, 0x00#8, 0x00#8, 0xC0#8, 0x00#8, 0x30#8, 0x00#8, 0x0C#8,
      0x00#8, 0x03#8] := by decide
theorem test_drawLine_clipped :
    bytesOf (exec .drawLine ((idle (dev .hw4 16 8) (List.replicate 16 0x00#8)).setReq (rq 0b001#3 (-2) 3 5 3 0 1#1))) =
    some [0x00#8, 0x00#8, 0x00#8, 0x00#8, 0x00#8, 0x00#8, 0xFC#8, 0x00#8, 0x00#8, 0x00#8, 0x00#8, 0x00#8, 0x00#8, 0x00#8,
      0x00#8, 0x00#8] := by decide

/-- V32, V33. -/
theorem test_fill_white : bytesOf (exec .fill (p1 (rq 0b010#3 0 0 0 0 0 0#1))) = some (List.replicate 4 0x00#8) := by decide
theorem test_fill_black : bytesOf (exec .fill (p1 (rq 0b010#3 0 0 0 0 0 1#1))) = some (List.replicate 4 0xFF#8) := by decide

/-- V35a to V35l. -/
theorem test_mapValue : ([(0, 0, 255, 0, 800), (255, 0, 255, 0, 800), (128, 0, 255, 0, 800), (1, 0, 255, 0, 800),
      (254, 0, 255, 0, 800), (-1, 0, 255, 0, 800), (256, 0, 255, 0, 800), (128, 0, 255, 0, 480), (100, 0, 255, 800, 0),
      (10, 255, 0, 0, 800), (-7, 0, 2, 0, 3), (5, 0, 10, -10, 10)].map
      fun v : Int × Int × Int × Int × Int =>
        resOf (exec .mapValue (p1 (rq 0b011#3 v.1 v.2.1 v.2.2.1 v.2.2.2.1 v.2.2.2.2 0#1)))) =
    [some 0, some 800, some 401, some 3, some 796, some (-3), some 803, some 240, some 487, some 768, some (-10), some 0] := by
  decide
/-- V35m. -/
theorem test_mapValue_divides_by_zero : ∃ l, exec .mapValue (p1 (rq 0b011#3 5 3 3 0 9 0#1)) = .fault (.mapDivideByZero l) :=
  ⟨_, rfl⟩

/-! ### The protocol -/

theorem test_updateScreen_accepted : placeOf (exec .updateScreen (p3 .hw4)) =
    some (true, some { upc := 0, cnt := 0, src := .fb }) := by decide
theorem test_cleanScreen_accepted : placeOf (exec .cleanScreen (p3 .hw4)) =
    some (true, some { upc := 0, cnt := 0, src := .white }) := by decide
theorem test_updateScreen_refused_in_flight : refusalOf (exec .updateScreen (flying 0 0 (p3 .hw4))) = some .busy := by decide
theorem test_reserved6_refused : refusalOf (exec .reserved6 (p3 .hw4)) = some (.reservedOp 0b110#3) := by decide
theorem test_reserved7_refused : refusalOf (exec .reserved7 (p3 .hw4)) = some (.reservedOp 0b111#3) := by decide

/-- The first row of the microprogram (R172, R173), and the end (R180). -/
theorem test_step_reset_low : traceOf (step (flying 0 0 (p3 .hw4))) = some [.gw .rst .low] := by decide
theorem test_step_last : placeOf (step (flying 30 0 (p3 .hw4))) = some (false, none) := by decide

/-- The frames of P3, by state, as 9-bit words. -/
def sent (words : List FrameWord) : List Event := words.map .tx9

/-- The trace of P3: the first wait answers not ready once. -/
theorem test_trace_P3_reset_power :
    resetTrace (dev .hw3 16 2) = [.gw .rst .low, .dly .tRstLow 11, .gw .rst .high, .dly .tRstHigh 12] ∧
    powerTrace (dev .hw3 16 2) 1 = sent [0x001#9, 0x107#9, 0x107#9, 0x13F#9, 0x13F#9, 0x004#9, 0x071#9] ++
      ([.gr .busy .low, .dly .tPoll 14, .tx9 0x071#9, .gr .busy .high] : List Event) := by decide
theorem test_trace_P3_panel_image :
    panelTrace (dev .hw3 16 2) = sent [0x000#9, 0x11F#9, 0x061#9, 0x100#9, 0x110#9, 0x100#9, 0x102#9, 0x015#9, 0x100#9, 0x050#9,
      0x110#9, 0x107#9, 0x060#9, 0x122#9] ∧
    imageTrace (dev .hw3 16 2) (p3 .hw3).fb .fb = sent [0x010#9, 0x100#9, 0x100#9, 0x100#9, 0x100#9, 0x013#9, 0x180#9, 0x140#9,
      0x100#9, 0x101#9] := by decide
theorem test_trace_P3_refresh_sleep :
    refreshTrace (dev .hw3 16 2) 0 = [.tx9 0x012#9, .dly .tRefresh 13, .tx9 0x071#9, .gr .busy .high] ∧
    sleepTrace (dev .hw3 16 2) 0 = sent [0x050#9, 0x1F7#9, 0x002#9, 0x071#9] ++
      ([.gr .busy .high, .tx9 0x007#9, .tx9 0x1A5#9] : List Event) := by decide

/-- P3 has 50 events. -/
theorem test_trace_P3_length : (screenTrace (dev .hw3 16 2) (p3 .hw3).fb .fb 1 0 0).length = 50 := by decide

/-- P4: a clean in HW4 has 86 events. -/
theorem test_trace_P4_length : (screenTrace (dev .hw4 16 2) (p3 .hw4).fb .white 0 0 0).length = 86 := by decide

/-- A failing call ends the frame after the events before it (R181). -/
theorem test_abort_cuts_trace : ∃ l, exec .pwrOn (flying 6 0 ((p3 .hw4).setCapFail (some (1, .aborts)))) =
    .fault (.aborted l) ∧ l.env.trace = [.gw .dc .low] ∧ l.inflight = false ∧ l.seq = none := ⟨_, rfl, rfl, rfl, rfl⟩

/-- The run of an answer that is stuck, with its trace's length, SHR and BITN. -/
def stuckOf (a : Answer) : Option (Nat × BitVec 9 × BitVec 4) :=
  match a with
  | .fault (.stuck l) => some (l.env.trace.length, l.shr, l.bitn)
  | .fault (.aborted _) | .fault (.mapDivideByZero _) | .next _ | .refused _ => none

/-- BITN counts the bits left (R23): 8 of the byte before its first cell, 5 after three cells of six events, 0 before chip-select
goes inactive; 9 in SW3. (The 0 in bit 8 of SHR in SW4 is the model's choice, log 30.) -/
theorem test_bitn_counts_down :
    stuckOf (writeByte 0xA5#8 false ((p3 .sw4).setCapFail (some (1, .neverReturns)))) = some (1, 0x0A5#9, 8#4) ∧
    stuckOf (writeByte 0xA5#8 false ((p3 .sw4).setCapFail (some (19, .neverReturns)))) = some (19, 0x0A5#9, 5#4) ∧
    stuckOf (writeByte 0xA5#8 false ((p3 .sw4).setCapFail (some (49, .neverReturns)))) = some (49, 0x0A5#9, 0#4) ∧
    stuckOf (writeByte 0xA5#8 false ((p3 .sw3).setCapFail (some (6, .neverReturns)))) = some (6, 0x1A5#9, 9#4) ∧
    stuckOf (writeByte 0xA5#8 false ((p3 .sw3).setCapFail (some (7, .neverReturns)))) = some (7, 0x1A5#9, 8#4) := by decide

/-- A word placed after reset is what the first step runs. -/
theorem test_placed_runs_first : goesOn (step (State.reset.withFetchWord 16 0x1A5)) = true ∧
    goesOn (step (State.reset.withFetchWord 16 0x071)) = true ∧ goesOn (step (State.reset.withFetchWord 8 1)) = true := by
  decide

/-! ### For each obligation with hypotheses, a state and operands that meet them; one for each clause -/

/-- An idle device with one request waiting. -/
def asked (m : Mode) (r : Request) : State := (p3 m).setRequests [r]

/-- A device with no legal configuration: one resolution byte is wrong. -/
def illegal (r : Request) : State := (idle { dev .hw4 16 2 with resHL := 0x11#8 } []).setRequests [r]

/-- A step that answers a next state. -/
theorem next_of_goesOn {s : State} (h : goesOn (step s) = true) : ∃ t, step s = .next t := (goesOn_iff _).1 h

theorem inv_p3 (m : Mode) : Inv (p3 m) := ⟨by cases m <;> decide, by cases m <;> decide, rfl, fun _ => rfl⟩

theorem accepts_p3 (m : Mode) (r : Request) : Accepts ((p3 m).setReq r) ∧ memWf ((p3 m).setReq r).fb = true := by
  exact ⟨⟨rfl, test_cfg_small_are_legal m (by cases m <;> decide)⟩, (inv_p3 m).canonical⟩

theorem witness_CodeWordsRoundTrip : decode (.frame 0x1FF#9) = some (.data 0xFF#8) ∧ decode (.host 0b111#3) = some .reserved7 := by
  decide

theorem witness_OnlyTheThirteenCodesAreCommands : frameD 0x071#9 = false ∧ frameD 0x003#9 = false ∧ frameD 0x100#9 = true := by decide

theorem witness_EveryStepKeepsTheInvariant :
    (∃ t, Inv (p3 .hw4) ∧ step (p3 .hw4) = .next t) ∧
      (∃ t, Inv (flying 5 3 (p3 .sw3)) ∧ step (flying 5 3 (p3 .sw3)) = .next t) := by
  constructor
  · exact ⟨_, inv_p3 _, rfl⟩
  · obtain ⟨t, h⟩ := next_of_goesOn (s := flying 5 3 (p3 .sw3)) (by decide)
    exact ⟨t, ⟨by decide, by decide, by decide, fun _ => rfl⟩, h⟩

theorem witness_StepRunsTheDecodedInstruction :
    (∃ t, fetch (flying 4 0 (p3 .hw4)) = .code (.frame 0x001#9) t ∧ decode (.frame 0x001#9) = some .pwrSet) ∧
      (∃ t, fetch (asked .hw4 (rq 0b101#3 0 0 0 0 0 0#1)) = .code (.host 0b101#3) t ∧
        decode (.host 0b101#3) = some .cleanScreen) :=
  ⟨⟨_, rfl, by decide⟩, ⟨_, rfl, by decide⟩⟩

theorem witness_IdleStepTakesTheNextRequest :
    (p3 .hw4).inflight = false ∧ (p3 .hw4).env.requests = [] ∧
      (asked .hw4 (rq 0b000#3 15 1 0 0 0 1#1)).inflight = false ∧
      (asked .hw4 (rq 0b000#3 15 1 0 0 0 1#1)).env.requests = rq 0b000#3 15 1 0 0 0 1#1 :: [] := by decide

/-- The states of the next witness: in flight at any position, on the device they were made from, every call returning. -/
theorem flying_facts (u c : Nat) (s : State) (h : CapsReturn s) : (flying u c s).inflight = true ∧
    (flying u c s).seq = some { upc := u, cnt := c, src := .fb } ∧ (flying u c s).cfg = s.cfg ∧ CapsReturn (flying u c s) :=
  ⟨rfl, rfl, rfl, h⟩

/-- StepPerformsTheMicroprogram: with `flying_facts`, a position for each clause, on `dev .hw4 16 2`, with `CNT` 3 at 21; for the
empty payload, on that device with an empty `P15_PAYLOAD`. -/
theorem witness_StepPerformsTheMicroprogram :
    micro (dev .hw4 16 2) .fb 4 = .command 0x01#8 ∧ micro (dev .hw4 16 2) .fb 29 = .command 0x07#8 ∧
      micro (dev .hw4 16 2) .fb 21 = .payload (.image 4) ∧ 3 < payloadLen (.image 4) ∧
      micro { dev .hw4 16 2 with p15Payload := [] } .fb 13 = .payload (.bytes []) ∧ payloadLen (.bytes []) ≤ 0 ∧
      micro (dev .hw4 16 2) .fb 28 = .wait ∧ micro (dev .hw4 16 2) .fb 2 = .drive .high ∧
      micro (dev .hw4 16 2) .fb 23 = .delay .tRefresh ∧ micro (dev .hw4 16 2) .fb 31 = .terminal := by decide

theorem witness_PlacedWordIsTheNextExecuted :
    0 < (p3 .hw4).cfg.n ∧ decodeTableWord 16 0x1FF = some (.data 0xFF#8) ∧ decodeTableWord 8 7 = some .reserved7 := by decide

/-- A step of each kind that answers a next state: for the rules about every step (R13, R25, R26, R28), with TXERR set in a hardware
mode, and in a software mode. -/
theorem witness_steps : (∃ t, step (flying 29 0 ((p3 .hw4).setTxerr true)) = .next t) ∧
    (∃ t, step (flying 29 0 (p3 .sw4)) = .next t) ∧ (p3 .sw4).cfg.mode.isSw = true :=
  ⟨next_of_goesOn (by decide), next_of_goesOn (by decide), rfl⟩

theorem witness_PositionMovesByOne :
    (∃ t, Inv (flying 7 0 ((p3 .hw4).setBusyIn [.low])) ∧ step (flying 7 0 ((p3 .hw4).setBusyIn [.low])) = .next t ∧
      t.seq = some { upc := 7, cnt := 0, src := .fb }) ∧
    (∃ t, Inv (flying 21 2 (p3 .hw4)) ∧ step (flying 21 2 (p3 .hw4)) = .next t ∧ t.seq = some { upc := 21, cnt := 3, src := .fb }) ∧
    (∃ t, Inv (flying 21 3 (p3 .hw4)) ∧ step (flying 21 3 (p3 .hw4)) = .next t ∧ t.seq = some { upc := 22, cnt := 0, src := .fb }) ∧
    (∃ t, Inv (flying 30 0 (p3 .hw4)) ∧ step (flying 30 0 (p3 .hw4)) = .next t ∧ t.seq = none) := by
  refine ⟨⟨_, ⟨by decide, by decide, by decide, fun _ => rfl⟩, rfl, by decide⟩,
    ⟨_, ⟨by decide, by decide, by decide, fun _ => rfl⟩, rfl, by decide⟩,
    ⟨_, ⟨by decide, by decide, by decide, fun _ => rfl⟩, rfl, by decide⟩,
    ⟨_, ⟨by decide, by decide, by decide, fun _ => rfl⟩, rfl, by decide⟩⟩

/-- Steps in flight (OperationInFlightLeavesTheHostSide, RequestRegistersDoNotReachARunningOperation). -/
theorem witness_in_flight : ∃ t, (flying 21 0 (p3 .hw3)).inflight = true ∧ step (flying 21 0 (p3 .hw3)) = .next t := by
  obtain ⟨t, h⟩ := next_of_goesOn (s := flying 21 0 (p3 .hw3)) (by decide)
  exact ⟨t, rfl, h⟩

theorem witness_StepRefusesOnlyRequests :
    (Inv (asked .hw4 (rq 0b110#3 0 0 0 0 0 0#1)) ∧ step (asked .hw4 (rq 0b110#3 0 0 0 0 0 0#1)) = .refused (.reservedOp 0b110#3)) ∧
    (Inv (asked .hw4 (rq 0b111#3 0 0 0 0 0 0#1)) ∧ step (asked .hw4 (rq 0b111#3 0 0 0 0 0 0#1)) = .refused (.reservedOp 0b111#3)) ∧
    (Inv (illegal (rq 0b010#3 0 0 0 0 0 0#1)) ∧ step (illegal (rq 0b010#3 0 0 0 0 0 0#1)) = .refused .illegalCfg) :=
  ⟨⟨⟨by decide, by decide, by decide, fun _ => rfl⟩, rfl⟩, ⟨⟨by decide, by decide, by decide, fun _ => rfl⟩, rfl⟩,
    ⟨⟨by decide, by decide, by decide, fun _ => rfl⟩, rfl⟩⟩

/-- A fault of each cause (EveryFaultHasItsCause). -/
theorem witness_EveryFaultHasItsCause :
    (∃ l, step (flying 0 0 ((p3 .hw4).setCapFail (some (0, .aborts)))) = .fault (.aborted l)) ∧
    (∃ l, step (flying 0 0 ((p3 .hw4).setCapFail (some (0, .neverReturns)))) = .fault (.stuck l)) ∧
    (∃ l, step (asked .hw4 (rq 0b011#3 5 3 3 0 9 0#1)) = .fault (.mapDivideByZero l)) := ⟨⟨_, rfl⟩, ⟨_, rfl⟩, ⟨_, rfl⟩⟩

/-- SetPixelWritesOneBit: the last pixel in range, and the first ones out of range on each side. -/
theorem witness_SetPixelWritesOneBit :
    (Accepts ((p3 .hw4).setReq (rq 0b000#3 15 1 0 0 0 1#1)) ∧ memWf ((p3 .hw4).setReq (rq 0b000#3 15 1 0 0 0 1#1)).fb = true) ∧
    inRange (dev .hw4 16 2) 15 1 = true ∧ inRange (dev .hw4 16 2) 0 0 = true ∧ inRange (dev .hw4 16 2) 16 1 = false ∧
    inRange (dev .hw4 16 2) 15 2 = false ∧ inRange (dev .hw4 16 2) (-1) 0 = false ∧ inRange (dev .hw4 16 2) 0 (-1) = false ∧
    operand ((p3 .hw4).setReq (rq 0b000#3 15 1 0 0 0 1#1)) 0 = 15 ∧ operand ((p3 .hw4).setReq (rq 0b000#3 15 1 0 0 0 1#1)) 1 = 1 :=
  ⟨accepts_p3 _ _, by decide, by decide, by decide, by decide, by decide, by decide, by decide, by decide⟩

/-- SetPixelObeysItsLaws, PixelMapIsABijection. -/
theorem witness_SetPixelObeysItsLaws :
    cfgLegal (p3 .hw4).cfg = true ∧ memWf (p3 .hw4).fb = true ∧ inRange (p3 .hw4).cfg 15 1 = true ∧
      inRange (p3 .hw4).cfg 14 1 = true ∧ ((15, 1) : Int × Int) ≠ (14, 1) ∧ inRange (p3 .hw4).cfg 16 1 = false := by decide
theorem witness_PixelMapIsABijection :
    cfgLegal (dev .hw4 16 2) = true ∧ pixelIdx (dev .hw4 16 2) 15 1 = 3 ∧ pixelBit 15 = 0 ∧ 3 < (dev .hw4 16 2).n ∧
      pixelIdx (dev .hw4 16 2) 0 0 = 0 ∧ pixelBit 0 = 7 := by decide

/-- The line obligations: a line of two advances (its last is number 2), a horizontal, a vertical, a diagonal line, a point. -/
theorem witness_DrawLine :
    (Accepts ((p3 .hw4).setReq (rq 0b001#3 0 0 2 1 0 1#1)) ∧ memWf ((p3 .hw4).setReq (rq 0b001#3 0 0 2 1 0 1#1)).fb = true) ∧
    2 ≤ max ((2 - 0 : Int)).natAbs ((1 - 0 : Int)).natAbs ∧
    inRange (dev .hw4 16 2) 1 0 = true ∧ (1, 0) ∈ lineOf 0 0 2 1 ∧ inRange (dev .hw4 16 2) 1 1 = true ∧ (1, 1) ∉ lineOf 0 0 2 1 :=
  ⟨accepts_p3 _ _, by decide, by decide, by decide, by decide, by decide⟩
theorem witness_StraightLines :
    lineOf 4 0 0 0 = [(4, 0), (3, 0), (2, 0), (1, 0), (0, 0)] ∧ lineOf 0 0 0 3 = [(0, 0), (0, 1), (0, 2), (0, 3)] ∧
    ((0 - 3 : Int)).natAbs = ((3 - 0 : Int)).natAbs ∧ lineOf 5 5 5 5 = [(5, 5)] := by decide

theorem witness_Fill : Accepts ((p3 .hw4).setReq (rq 0b010#3 0 0 0 0 0 1#1)) ∧
    memWf ((p3 .hw4).setReq (rq 0b010#3 0 0 0 0 0 1#1)).fb = true ∧ 3 < (p3 .hw4).cfg.n ∧ ¬ 4 < (p3 .hw4).cfg.n :=
  ⟨(accepts_p3 _ _).1, (accepts_p3 _ _).2, by decide, by decide⟩

/-- MapValueIsExact at the ends of the operand range, MapValueDividingByZeroFaults. -/
theorem witness_MapValue :
    Accepts ((p3 .hw4).setReq (rq 0b011#3 (-32768) 32767 (-32768) 32767 (-32768) 0#1)) ∧
    operand ((p3 .hw4).setReq (rq 0b011#3 (-32768) 32767 (-32768) 32767 (-32768) 0#1)) 2 ≠
      operand ((p3 .hw4).setReq (rq 0b011#3 (-32768) 32767 (-32768) 32767 (-32768) 0#1)) 1 ∧
    Accepts ((p3 .hw4).setReq (rq 0b011#3 5 3 3 0 9 0#1)) ∧
    operand ((p3 .hw4).setReq (rq 0b011#3 5 3 3 0 9 0#1)) 2 = operand ((p3 .hw4).setReq (rq 0b011#3 5 3 3 0 9 0#1)) 1 :=
  ⟨(accepts_p3 _ _).1, by decide, (accepts_p3 _ _).1, by decide⟩

/-- DrawingFrame, of `set_pixel`: an in-range operand, and one out of range whose place would be byte 0 (x = -1, y = 0). -/
theorem witness_DrawingFrame_setPixel :
    (memWf ((p3 .hw4).setReq (rq 0b000#3 15 1 0 0 0 1#1)).fb = true ∧
      goesOn (exec .setPixel ((p3 .hw4).setReq (rq 0b000#3 15 1 0 0 0 1#1))) = true ∧
      (inRange (dev .hw4 16 2) 15 1 = true → 0 ≠ pixelIdx (dev .hw4 16 2) 15 1)) ∧
    (memWf ((p3 .hw4).setReq (rq 0b000#3 (-1) 0 0 0 0 1#1)).fb = true ∧
      goesOn (exec .setPixel ((p3 .hw4).setReq (rq 0b000#3 (-1) 0 0 0 0 1#1))) = true ∧
      operand ((p3 .hw4).setReq (rq 0b000#3 (-1) 0 0 0 0 1#1)) 0 = -1 ∧
      pixelIdx (dev .hw4 16 2) (-1) 0 = 0 ∧ (inRange (dev .hw4 16 2) (-1) 0 = true → 0 ≠ pixelIdx (dev .hw4 16 2) (-1) 0)) := by
  decide
theorem witness_DrawingFrame : memWf (p3 .hw4).fb = true ∧ goesOn (exec .setPixel (p3 .hw4)) = true ∧
    goesOn (exec .drawLine (p3 .hw4)) = true ∧ goesOn (exec .fill (p3 .hw4)) = true ∧
    goesOn (exec .mapValue ((p3 .hw4).setReq (rq 0b011#3 1 0 255 0 800 0#1))) = true ∧
    (4 ≠ pixelIdx (dev .hw4 16 2) 0 0 ∧ (p3 .hw4).cfg.n ≤ 4) := by decide

theorem witness_HostOperationsAreRefusedInFlight : (flying 0 0 (p3 .hw4)).inflight = true := by decide
theorem witness_IllegalConfigurationIsRefused :
    (illegal Request.zero).inflight = false ∧ cfgLegal (illegal Request.zero).cfg = false := by decide

/-- CapsReturn, in each mode: the transport, command channel and frame obligations. -/
theorem witness_CapsReturn : ∀ m, CapsReturn (p3 m) ∧ (p3 m).cfg.mode = m := by intro m; cases m <;> exact ⟨rfl, rfl⟩
theorem witness_LineLevelsAfterASoftwareByte : CapsReturn (p3 .sw3) ∧ (p3 .sw3).cfg.mode.isSw = true := ⟨rfl, rfl⟩

/-- StatusPollsOnce: a scripted answer of each level. -/
theorem witness_StatusPollsOnce :
    CapsReturn ((p3 .hw4).setBusyIn [.high]) ∧ ((p3 .hw4).setBusyIn [.high]).env.busyIn = .high :: [] ∧
    ((p3 .hw4).setBusyIn [.low]).env.busyIn = .low :: [] ∧ Level.high = (p3 .hw4).cfg.readyLevel := ⟨rfl, rfl, rfl, rfl⟩

/-- WaitEndsAtTheFirstReadyPoll, for `k` 0 and 2, and UnreadyPanelHoldsTheOperation: all hypotheses of one state together. -/
theorem witness_waits :
    (∃ (s : State) (q : SeqPos), s.inflight = true ∧ s.seq = some q ∧ micro s.cfg q.src q.upc = .wait ∧ CapsReturn s ∧
      s.env.busyIn = waitAnswers s.cfg 0 ++ []) ∧
    (∃ (s : State) (q : SeqPos), s.inflight = true ∧ s.seq = some q ∧ micro s.cfg q.src q.upc = .wait ∧ CapsReturn s ∧
      s.env.busyIn = waitAnswers s.cfg 2 ++ [.low]) ∧
    (∃ (s : State) (q : SeqPos), s.inflight = true ∧ s.seq = some q ∧ micro s.cfg q.src q.upc = .wait ∧ CapsReturn s ∧
      s.env.busyIn = List.replicate 2 (notReady s.cfg) ++ []) :=
  ⟨⟨flying 7 0 ((p3 .hw4).setBusyIn [.high]), { upc := 7, cnt := 0, src := .fb }, rfl, rfl, rfl, rfl, rfl⟩,
    ⟨flying 24 0 ((p3 .sw3).setBusyIn [.low, .low, .high, .low]), { upc := 24, cnt := 0, src := .fb }, rfl, rfl, rfl, rfl, rfl⟩,
    ⟨flying 28 0 ((p3 .hw4).setBusyIn [.low, .low]), { upc := 28, cnt := 0, src := .fb }, rfl, rfl, rfl, rfl, rfl⟩⟩

theorem witness_FramesLeaveTheHostSide : Instr.isCommand .status = true ∧ goesOn (exec .refresh (p3 .hw4)) = true ∧
    goesOn (exec (.data 0x00#8) (p3 .sw4)) = true := by decide

theorem witness_ScreenOperationsAreAccepted : Accepts (p3 .sw3) := ⟨rfl, by decide⟩

/-- The state obligations: `AtStep` at each first step of a state of the protocol, with the answers of its wait. -/
theorem witness_AtStep : ∀ u ∈ [0, 4, 8, 18, 22, 25], AtStep (flying u 0 (p3 .hw4)) u .fb := by
  intro u _; exact ⟨rfl, rfl, rfl⟩

/-- A whole operation: an update and a clean, with the answers of P3. -/
theorem witness_WholeOperation :
    Accepts ((asked .hw3 (rq 0b100#3 0 0 0 0 0 0#1)).setBusyIn [.low, .high, .high, .high]) ∧
    CapsReturn ((asked .hw3 (rq 0b100#3 0 0 0 0 0 0#1)).setBusyIn [.low, .high, .high, .high]) ∧
    ((asked .hw3 (rq 0b101#3 0 0 0 0 0 0#1)).env.requests = rq 0b101#3 0 0 0 0 0 0#1 :: []) ∧
    ([.low, .high, .high, .high] : List Level) =
      waitAnswers (dev .hw3 16 2) 1 ++ (waitAnswers (dev .hw3 16 2) 0 ++ (waitAnswers (dev .hw3 16 2) 0 ++ [])) :=
  ⟨⟨rfl, by decide⟩, rfl, rfl, rfl⟩

/-- UpdateAndCleanAgreeOnWhite: a white framebuffer, and runs of one step. -/
theorem witness_UpdateAndCleanAgreeOnWhite :
    (∀ a, a < (dev .hw4 16 2).n → memRead (idle (dev .hw4 16 2) (List.replicate 4 0x00#8)).fb a = 0x00#8) ∧
    (∃ t, runFor 1 (acceptScreen .fb (idle (dev .hw4 16 2) (List.replicate 4 0x00#8))) = .next t) ∧
    (∃ u, runFor 1 (acceptScreen .white (idle (dev .hw4 16 2) (List.replicate 4 0x00#8))) = .next u) :=
  ⟨by decide, ⟨_, rfl⟩, ⟨_, rfl⟩⟩

/-- AbortDiscardsTheOperation and RestartAfterAnAbort: an abort, a legal configuration, and each request waiting. -/
theorem witness_abort :
    (∃ l, step (flying 0 0 ((asked .hw4 (rq 0b100#3 0 0 0 0 0 0#1)).setCapFail (some (0, .aborts)))) = .fault (.aborted l)) ∧
    (∃ l, step (flying 0 0 ((asked .hw4 (rq 0b101#3 0 0 0 0 0 0#1)).setCapFail (some (0, .aborts)))) = .fault (.aborted l)) ∧
    cfgLegal (dev .hw4 16 2) = true := ⟨⟨_, rfl⟩, ⟨_, rfl⟩, by decide⟩

/-- AbortDiscardsTheOperation in a software mode, and with TXERR set. -/
theorem witness_abort_txerr :
    (∃ l, step (flying 4 0 ((p3 .sw4).setCapFail (some (20, .aborts)))) = .fault (.aborted l)) ∧ (p3 .sw4).cfg.mode.isSw = true ∧
    (∃ l, step (flying 4 0 (((p3 .hw4).setTxerr true).setCapFail (some (1, .aborts)))) = .fault (.aborted l)) :=
  ⟨⟨_, rfl⟩, rfl, ⟨_, rfl⟩⟩

/-- FailingCallCutsTheFrame: for each kind of frame the first or the last call of it, and both ways it may end. -/
theorem witness_FailingCallCutsTheFrame :
    (1 < (dataTrace (p3 .hw4).cfg 0xA5#8).length ∧ ((p3 .hw4).setCapFail (some (1, .aborts))).env.capFail = some (1, .aborts)) ∧
    (55 < (dataTrace (p3 .sw3).cfg 0xA5#8).length ∧
      ((p3 .sw3).setCapFail (some (55, .neverReturns))).env.capFail = some (55, .neverReturns)) ∧
    (0 < (commandTrace (p3 .hw4).cfg 0x04#8).length ∧ 50 < (commandTrace (p3 .sw4).cfg 0x04#8).length) ∧
    (3 < (commandTrace (p3 .hw4).cfg 0x71#8 ++ ([.gr .busy .low] : List Event) ++
      (if Level.low = (p3 .hw4).cfg.readyLevel then [] else [Event.dly .tPoll ((p3 .hw4).cfg.duration .tPoll)])).length ∧
      (((p3 .hw4).setBusyIn [.low]).setCapFail (some (3, .aborts))).env.busyIn = .low :: []) ∧
    (micro (p3 .hw4).cfg .fb 0 = .drive .low ∧ micro (p3 .hw4).cfg .fb 1 = .delay .tRstLow ∧
      (flying 0 0 ((p3 .hw4).setCapFail (some (0, .aborts)))).inflight = true ∧
      (flying 1 0 ((p3 .hw4).setCapFail (some (0, .neverReturns)))).env.capFail = some (0, .neverReturns)) := by decide

/-- BitnCountsTheBitsLeft: the first and the last event of a byte, in each software mode. -/
theorem witness_BitnCountsTheBitsLeft :
    ((p3 .sw4).cfg.mode.isSw = true ∧ 49 < (byteTrace (p3 .sw4).cfg 0xA5#8 true).length ∧
      ((p3 .sw4).setCapFail (some (49, .neverReturns))).env.capFail = some (49, .neverReturns) ∧ (p3 .sw4).cfg.mode.is3wire = false) ∧
    ((p3 .sw3).cfg.mode.isSw = true ∧ 0 < (byteTrace (p3 .sw3).cfg 0xA5#8 false).length ∧
      ((p3 .sw3).setCapFail (some (0, .neverReturns))).env.capFail = some (0, .neverReturns) ∧ (p3 .sw3).cfg.mode.is3wire = true) := by
  decide

end Sys2Proof.Tests
end

section
/-!
PROOFS. The statements of 00_scope.md: what a step adds to the trace (O13), and the configurations on which the block
accepts no host operation (O35).
-/

namespace Sys2Proof.Machine

/-! ### What a step adds to the trace -/

/-- A host operation calls no capability (R110 to R118, R170, R171): it leaves the configuration, the trace, the pin latches
and TXERR as they are. -/
theorem hostOp_keepsBus {i : Instr} (hi : i.isCommand = false) (hd : ∀ d, i ≠ .data d) {s t : State}
    (h : exec i s = .next t) :
    t.cfg = s.cfg ∧ t.env.trace = s.env.trace ∧ t.pinl = s.pinl ∧ t.txerr = s.txerr := by
  obtain ⟨-, ⟨-, rfl⟩ | ⟨-, rfl⟩ | ⟨-, rfl⟩ | ⟨-, v, rfl⟩ | ⟨-, rfl⟩ | ⟨-, rfl⟩⟩ := hostOp_next hi hd h
  case inl =>
    obtain ⟨m, hm⟩ := setPixelAt_rest (operand s 0) (operand s 1) (colorOperand s) s
    simp [hm]
  case inr.inl =>
    obtain ⟨m, l, k, hm⟩ :=
      drawLineAt_rest (operand s 0) (operand s 1) (operand s 2) (operand s 3) (colorOperand s) s
    simp [hm]
  case inr.inr.inl => simp [fillBytes]
  case inr.inr.inr.inl => simp
  case inr.inr.inr.inr.inl => simp [acceptScreen]
  case inr.inr.inr.inr.inr => simp [acceptScreen]

/-- An idle step, waiting or taking a request, leaves the configuration, the trace, the pin latches and TXERR as they are. -/
theorem step_idle_keepsBus {s t : State} (hi : s.inflight = false) (h : step s = .next t) :
    t.cfg = s.cfg ∧ t.env.trace = s.env.trace ∧ t.pinl = s.pinl ∧ t.txerr = s.txerr := by
  obtain ⟨-, rfl⟩ | ⟨r, rest, i, -, hdec, hexec⟩ := step_idle hi h
  · exact ⟨rfl, rfl, rfl, rfl⟩
  · obtain ⟨hcmd, hdata⟩ := decodeHost_isHostOp hdec
    simpa [loadRequest] using hostOp_keepsBus hcmd hdata hexec

/-- Settles O13: an idle step adds no event, and a step in flight is one of the moves of the sequencer, whose events are all
of the mode. -/
theorem stepsAddOnlyEventsOfTheMode : Obligations.StepsAddOnlyEventsOfTheMode := by
  intro s t h
  cases hi : s.inflight with
  | false =>
    obtain ⟨-, htrace, -, -⟩ := step_idle_keepsBus hi h
    exact ⟨[], by simp [htrace], by simp⟩
  | true =>
    obtain ⟨-, ⟨es, htrace, -, hlegal⟩, -, -⟩ := step_inflight_moves hi h
    exact ⟨es, htrace, hlegal⟩

/-! ### Configurations that are not legal -/

/-- The gate refuses every operation while idle on a configuration that is not legal (U5, log 16). -/
theorem hostGate_of_illegal {s : State} (go : State → Answer) (hi : s.inflight = false) (hc : cfgLegal s.cfg = false) :
    hostGate s go = .refused .illegalCfg := by
  simp [hostGate, hi, hc]

/-- Each of the six host operations stands behind the gate (R237, R268). -/
theorem exec_eq_hostGate {i : Instr}
    (hmem : i ∈ [Instr.setPixel, .drawLine, .fill, .mapValue, .updateScreen, .cleanScreen]) (s : State) :
    ∃ go, exec i s = hostGate s go := by
  simp only [List.mem_cons, List.not_mem_nil, or_false] at hmem
  rcases hmem with rfl | rfl | rfl | rfl | rfl | rfl
  · exact ⟨_, by rw [exec, execSetPixel]⟩
  · exact ⟨_, by rw [exec, execDrawLine]⟩
  · exact ⟨_, by rw [exec, execFill]⟩
  · exact ⟨_, by rw [exec, execMapValue]⟩
  · exact ⟨_, by rw [exec, execUpdateScreen]⟩
  · exact ⟨_, by rw [exec, execCleanScreen]⟩

/-- Settles O35: the gate, behind which each of the six operations stands, refuses the configuration. -/
theorem illegalConfigurationIsRefused : Obligations.IllegalConfigurationIsRefused := by
  intro s hi hc i hmem
  obtain ⟨go, hgo⟩ := exec_eq_hostGate hmem s
  rw [hgo, hostGate_of_illegal go hi hc]

end Sys2Proof.Machine
end

section
/-!
PROOFS. The statements of 10_state.md: the invariant holds at reset and every step keeps it (O5, O6, O7), where the sequence
position goes (O16), what a step does to the latches and TXERR (O14, O15), that the request registers do not reach a running
operation (O18), and what a byte cut short leaves in SHR and BITN (O60).
-/

namespace Sys2Proof.Machine

/-! ### Where the sequence position goes -/

/-- The position of an operation in flight, as R24 bounds it. -/
theorem seqWf_iff_of_some {s : State} {q : SeqPos} (hq : s.seq = some q) :
    seqWf s = true ↔ s.inflight = true ∧ q.upc < 31 ∧ (q.cnt = 0 ∨ q.cnt < stepLen s) := by
  cases hi : s.inflight with
  | false => simp [seqWf, hi, hq]
  | true =>
    simp only [seqWf, hi, hq, Bool.and_eq_true, Bool.or_eq_true, decide_eq_true_eq, true_and]
    rfl

/-- Without a position nothing is in flight, and conversely (R24, R25). -/
theorem seqWf_iff_of_none {s : State} (hq : s.seq = none) : seqWf s = true ↔ s.inflight = false := by
  cases hi : s.inflight <;> simp [seqWf, hi, hq]

/-- While idle there is no position (R24). -/
theorem seq_of_idle {s : State} (hwf : seqWf s = true) (hi : s.inflight = false) : s.seq = none := by
  cases hq : s.seq with
  | none => rfl
  | some q => simp [((seqWf_iff_of_some hq).1 hwf).1] at hi

/-- How many bytes a step has depends on the configuration, UPC and SRC only. -/
theorem stepLen_congr {s t : State} {q q' : SeqPos} (hcfg : t.cfg = s.cfg) (hs : s.seq = some q) (ht : t.seq = some q')
    (hsrc : q'.src = q.src) (hupc : q'.upc = q.upc) : stepLen t = stepLen s := by
  simp only [stepLen, hs, ht, hcfg, hsrc, hupc]

/-- Only the indices at and above 31 are terminal (R172). -/
theorem micro_ne_terminal (c : Cfg) (src : Src) {upc : Nat} (h : upc < 31) : micro c src upc ≠ .terminal := by
  interval_cases upc <;> simp [micro]

/-- The four ways in which the position goes from `q` in a step of `len` bytes, with what `row` does (R24, R180). -/
def PositionMoves (row : Micro) (len : Nat) (q : SeqPos) (t : State) : Prop :=
  (t.inflight = true ∧ t.seq = some q ∧ row = .wait) ∨
  (t.inflight = true ∧ t.seq = some { upc := q.upc, cnt := q.cnt + 1, src := q.src } ∧ q.cnt + 1 < len) ∨
  (t.inflight = true ∧ t.seq = some { upc := q.upc + 1, cnt := 0, src := q.src } ∧ q.upc < 30) ∨
  (t.inflight = false ∧ t.seq = none ∧ q.upc = 30)

section Position

variable {u : State} {q : SeqPos} {row : Micro} {len : Nat}

/-- A completed step raises UPC, or ends the operation after index 30. -/
theorem positionMoves_advance (hi : u.inflight = true) (hq : u.seq = some q) (hupc : q.upc < 31) :
    PositionMoves row len q (advance u) := by
  obtain ⟨hnone, -⟩ | ⟨p, hp, hlt, h⟩ | ⟨p, hp, hge, h⟩ := advance_cases u
  · simp [hq] at hnone
  · obtain rfl : q = p := by simpa [hq] using hp
    simp only [terminalUpc] at hlt
    exact .inr (.inr (.inl ⟨by simp [h, hi], by simp [h], by omega⟩))
  · obtain rfl : q = p := by simpa [hq] using hp
    simp only [terminalUpc] at hge
    exact .inr (.inr (.inr ⟨by simp [h], by simp [h], by omega⟩))

/-- A byte sent raises CNT, or completes its step. -/
theorem positionMoves_advanceByte (hi : u.inflight = true) (hq : u.seq = some q) (hupc : q.upc < 31) :
    PositionMoves row len q (advanceByte len u) := by
  obtain ⟨p, hp, hlt, h⟩ | h := advanceByte_cases len u
  · obtain rfl : q = p := by simpa [hq] using hp
    exact .inr (.inl ⟨by simp [h, hi], by simp [h], hlt⟩)
  · rw [h]; exact positionMoves_advance hi hq hupc

end Position

/-- Settles O16: every move of the sequencer completes its step, sends a byte of it, or stays in a wait; the terminal row is out
of reach below index 31. -/
theorem positionMovesByOne : Obligations.PositionMovesByOne := by
  intro s t q hinv hq h
  obtain ⟨hi, hupc, -⟩ := (seqWf_iff_of_some hq).1 hinv.position
  obtain ⟨p, hp, u, -, hseq, hin, hmove⟩ := step_inflight hi h
  obtain rfl : q = p := by simpa [hq] using hp
  rw [hq] at hseq
  rw [hi] at hin
  change PositionMoves (micro s.cfg q.src q.upc) (stepLen s) q t
  obtain ⟨-, rfl⟩ | ⟨hwait, rfl⟩ | ⟨-, rfl | rfl⟩ | ⟨-, rfl⟩ | ⟨hterm, -⟩ := hmove
  · exact positionMoves_advance hin hseq hupc
  · exact .inl ⟨hin, hseq, hwait⟩
  · exact positionMoves_advance hin hseq hupc
  · exact positionMoves_advanceByte hin hseq hupc
  · exact positionMoves_advance hin hseq hupc
  · exact absurd hterm (micro_ne_terminal _ _ hupc)

/-- A step in flight keeps the position a position (R24, R25). -/
theorem step_inflight_seqWf {s t : State} {q : SeqPos} (hinv : Inv s) (hq : s.seq = some q) (h : step s = .next t)
    (hcfg : t.cfg = s.cfg) : seqWf t = true := by
  obtain ⟨-, hupc, hcnt⟩ := (seqWf_iff_of_some hq).1 hinv.position
  obtain ⟨hi, ht, -⟩ | ⟨hi, ht, hlt⟩ | ⟨hi, ht, hlt⟩ | ⟨hi, ht, -⟩ := positionMovesByOne s t q hinv hq h
  · exact (seqWf_iff_of_some ht).2 ⟨hi, hupc, by rwa [stepLen_congr hcfg hq ht rfl rfl]⟩
  · exact (seqWf_iff_of_some ht).2 ⟨hi, hupc, .inr (by rwa [stepLen_congr hcfg hq ht rfl rfl])⟩
  · exact (seqWf_iff_of_some ht).2 ⟨hi, by simp; omega, .inl rfl⟩
  · exact (seqWf_iff_of_none ht).2 hi

/-! ### What the host operations do to the framebuffer -/

/-- The part of the invariant that speaks of the framebuffer: canonical form, no address outside `0 .. N-1` (R56). -/
def FbWf (s : State) : Prop := memWf s.fb = true ∧ memBelow s.cfg.n s.fb = true

/-- `set_pixel` forms no address outside the framebuffer (R53, R56). -/
theorem fbWf_setPixelAt {s : State} (hc : cfgLegal s.cfg = true) (h : FbWf s) (x y : Int) (col : Color) :
    FbWf (setPixelAt x y col s) := by
  refine ⟨setPixelAt_wf x y col s h.1, ?_⟩
  cases hr : inRange s.cfg x y with
  | false => rw [setPixelAt_out hr]; exact h.2
  | true => rw [setPixelAt_in hr rfl]; exact memBelow_memWrite _ _ _ _ h.2 (pixelIdx_lt hc hr)

/-- A run of `set_pixel` calls keeps the framebuffer well formed, and the configuration. -/
theorem fbWf_foldl_setPixelAt (col : Color) (ps : List (Int × Int)) {s : State} (hc : cfgLegal s.cfg = true) (h : FbWf s) :
    FbWf (ps.foldl (fun u p => setPixelAt p.1 p.2 col u) s) ∧
      (ps.foldl (fun u p => setPixelAt p.1 p.2 col u) s).cfg = s.cfg := by
  induction ps generalizing s with
  | nil => exact ⟨h, rfl⟩
  | cons p ps ih =>
    have hcfg := setPixelAt_cfg p.1 p.2 col s
    obtain ⟨hwf, hkeep⟩ := ih (by rwa [hcfg]) (fbWf_setPixelAt hc h p.1 p.2 col)
    exact ⟨hwf, hkeep.trans hcfg⟩

/-- `draw_line` calls `set_pixel` only (R113). -/
theorem fbWf_drawLineAt {s : State} (hc : cfgLegal s.cfg = true) (h : FbWf s) (x1 y1 x2 y2 : Int) (col : Color) :
    FbWf (drawLineAt x1 y1 x2 y2 col s) := by
  obtain ⟨m, l, k, hm⟩ := drawLineAt_rest x1 y1 x2 y2 col s
  have hcfg : (drawLineAt x1 y1 x2 y2 col s).cfg = s.cfg := by rw [hm]; rfl
  obtain ⟨⟨hwf, hbelow⟩, hkeep⟩ := fbWf_foldl_setPixelAt col (lineOf x1 y1 x2 y2) hc h
  rw [hkeep] at hbelow
  unfold FbWf
  rw [drawLine_fb, hcfg]
  exact ⟨hwf, hbelow⟩

/-- An accepted host operation keeps the framebuffer well formed. -/
theorem hostOp_fbWf {i : Instr} (hi : i.isCommand = false) (hd : ∀ d, i ≠ .data d) {s t : State} (h : exec i s = .next t)
    (hwf : FbWf s) : FbWf t := by
  obtain ⟨⟨-, hc⟩, ⟨-, rfl⟩ | ⟨-, rfl⟩ | ⟨-, rfl⟩ | ⟨-, v, rfl⟩ | ⟨-, rfl⟩ | ⟨-, rfl⟩⟩ := hostOp_next hi hd h
  case inl => exact fbWf_setPixelAt hc hwf _ _ _
  case inr.inl => exact fbWf_drawLineAt hc hwf _ _ _ _ _
  case inr.inr.inl => exact ⟨memWf_memFill _ _ _ hwf.1, memBelow_memFill _ _ _ hwf.2⟩
  case inr.inr.inr.inl => exact hwf
  case inr.inr.inr.inr.inl => exact hwf
  case inr.inr.inr.inr.inr => exact hwf

/-- An accepted host operation leaves the block idle, or at the start of the microprogram (R170, R171). -/
theorem hostOp_seqWf {i : Instr} (hi : i.isCommand = false) (hd : ∀ d, i ≠ .data d) {s t : State} (h : exec i s = .next t)
    (hwf : seqWf s = true) : seqWf t = true := by
  obtain ⟨⟨hidle, -⟩, hcases⟩ := hostOp_next hi hd h
  have hseq := seq_of_idle hwf hidle
  have accept : ∀ src, seqWf (acceptScreen src s) = true := fun src =>
    (seqWf_iff_of_some (q := { upc := 0, cnt := 0, src := src }) rfl).2 ⟨rfl, by simp, .inl rfl⟩
  have keep : t.inflight = s.inflight → t.seq = s.seq → seqWf t = true := fun h1 h2 =>
    (seqWf_iff_of_none (h2.trans hseq)).2 (h1.trans hidle)
  obtain ⟨-, rfl⟩ | ⟨-, rfl⟩ | ⟨-, rfl⟩ | ⟨-, v, rfl⟩ | ⟨-, rfl⟩ | ⟨-, rfl⟩ := hcases
  case inl =>
    obtain ⟨m, hm⟩ := setPixelAt_rest (operand s 0) (operand s 1) (colorOperand s) s
    exact keep (by rw [hm]; rfl) (by rw [hm]; rfl)
  case inr.inl =>
    obtain ⟨m, l, k, hm⟩ :=
      drawLineAt_rest (operand s 0) (operand s 1) (operand s 2) (operand s 3) (colorOperand s) s
    exact keep (by rw [hm]; rfl) (by rw [hm]; rfl)
  case inr.inr.inl => exact keep rfl rfl
  case inr.inr.inr.inl => exact keep rfl rfl
  case inr.inr.inr.inr.inl => exact accept .fb
  case inr.inr.inr.inr.inr => exact accept .white

/-! ### The invariant -/

/-- An accepted host operation keeps the invariant. -/
theorem hostOp_inv {i : Instr} (hi : i.isCommand = false) (hd : ∀ d, i ≠ .data d) {s t : State} (h : exec i s = .next t)
    (hinv : Inv s) : Inv t := by
  obtain ⟨hcfg, -, -, htx⟩ := hostOp_keepsBus hi hd h
  obtain ⟨hcanon, hbelow⟩ := hostOp_fbWf hi hd h ⟨hinv.canonical, hinv.below⟩
  exact ⟨hcanon, hbelow, hostOp_seqWf hi hd h hinv.position, by rw [hcfg, htx]; exact hinv.soft⟩

/-- Taking a request keeps the invariant. -/
theorem inv_loadRequest {s : State} (r : Request) (rest : List Request) (hinv : Inv s) : Inv (loadRequest r rest s) :=
  ⟨hinv.canonical, hinv.below, hinv.position, hinv.soft⟩

/-- Settles O7: idle, a step waits or performs a host operation; in flight it keeps the framebuffer and the configuration, keeps
TXERR in software modes, and moves the position as O16 says. -/
theorem everyStepKeepsTheInvariant : Obligations.EveryStepKeepsTheInvariant := by
  intro s t hinv h
  cases hi : s.inflight with
  | false =>
    obtain ⟨-, rfl⟩ | ⟨r, rest, i, -, hdec, hexec⟩ := step_idle hi h
    · exact hinv
    · obtain ⟨hcmd, hdata⟩ := decodeHost_isHostOp hdec
      exact hostOp_inv hcmd hdata hexec (inv_loadRequest r rest hinv)
  | true =>
    obtain ⟨q, hq, -⟩ := step_inflight hi h
    obtain ⟨⟨hcfg, hfb, -⟩, -, -, hsoft⟩ := step_inflight_moves hi h
    refine ⟨by rw [hfb]; exact hinv.canonical, by rw [hfb, hcfg]; exact hinv.below,
      step_inflight_seqWf hinv hq h hcfg, fun hsw => ?_⟩
    rw [hcfg] at hsw
    rw [hsoft hsw, hinv.soft hsw]

/-- Settles O6: no byte is listed, nothing is in flight, and TXERR is 0. -/
theorem resetMeetsTheInvariant : Obligations.ResetMeetsTheInvariant :=
  ⟨rfl, rfl, rfl, fun _ => rfl⟩

/-- Settles O5: no byte is listed, so each reads as its free value, and no request waits. -/
theorem resetLeavesTheBlockIdle : Obligations.ResetLeavesTheBlockIdle :=
  ⟨rfl, rfl, rfl, rfl, fun _ => rfl, rfl⟩

/-! ### Latches and TXERR -/

/-- Settles O14: an idle step adds no event and writes no pin; in flight the latches follow the events. -/
theorem latchesFollowTheTrace : Obligations.LatchesFollowTheTrace := by
  intro s t h
  cases hi : s.inflight with
  | false =>
    obtain ⟨-, htrace, hpinl, -⟩ := step_idle_keepsBus hi h
    exact ⟨[], by simp [htrace], by simp [hpinl]⟩
  | true =>
    obtain ⟨-, ⟨es, htrace, hpinl, -⟩, -, -⟩ := step_inflight_moves hi h
    exact ⟨es, htrace, hpinl⟩

/-- Settles O15: an idle step keeps TXERR, and every move in flight only raises it, in hardware modes. -/
theorem transmitErrorIsSticky : Obligations.TransmitErrorIsSticky := by
  intro s t h
  cases hi : s.inflight with
  | false =>
    obtain ⟨-, -, -, htx⟩ := step_idle_keepsBus hi h
    exact ⟨htx.trans, fun _ => htx⟩
  | true =>
    obtain ⟨-, -, hsticky, hsoft⟩ := step_inflight_moves hi h
    exact ⟨hsticky, hsoft⟩

/-! ### What the request registers hold does not reach a running operation

Every operation that a step in flight performs commutes with an update of the request registers (R21). -/

/-- A fault whose state has other request registers. -/
def Fault.setReq (r : Request) : Fault → Fault
  | .aborted l => .aborted (l.setReq r)
  | .stuck l => .stuck (l.setReq r)
  | .mapDivideByZero l => .mapDivideByZero (l.setReq r)

/-- An answer whose state has other request registers. -/
def answerSetReq (r : Request) : Answer → Answer
  | .next t => .next (t.setReq r)
  | .fault f => .fault (f.setReq r)
  | .refused e => .refused e

section SetReq

variable (s : State) (r : Request)

/-- A sequence commutes with the update when both its parts do. -/
theorem andThen_setReq {a a' : Answer} {f f' : State → Answer} (ha : a' = answerSetReq r a)
    (hf : ∀ t, f' (t.setReq r) = answerSetReq r (f t)) : andThen a' f' = answerSetReq r (andThen a f) := by
  subst ha
  cases a with
  | next t => exact hf t
  | fault e => rfl
  | refused e => rfl

/-- Capability calls do not look at the request registers. -/
theorem callAll_setReq (es : List Event) : callAll es (s.setReq r) = answerSetReq r (callAll es s) := by
  simp only [callAll, State.setReq_capFail]
  split
  · rfl
  · rename_i k how _
    split
    · rfl
    · cases how <;> rfl

theorem sendBit_setReq : sendBit (s.setReq r) = answerSetReq r (sendBit s) :=
  andThen_setReq r (callAll_setReq s r _) fun _ => rfl

theorem sendBits_setReq (n : Nat) : sendBits n (s.setReq r) = answerSetReq r (sendBits n s) := by
  induction n generalizing s with
  | zero => rfl
  | succ n ih => exact andThen_setReq r (sendBit_setReq s r) ih

theorem softByte_setReq : softByte (s.setReq r) = answerSetReq r (softByte s) :=
  andThen_setReq r (callAll_setReq s r _) fun t =>
    andThen_setReq r (sendBits_setReq t r _) fun u => callAll_setReq u r _

theorem noteTx_setReq : noteTx (s.setReq r) = (noteTx s).setReq r := by
  cases hin : s.env.txIn <;> simp only [noteTx, dropTx, txAnswer, State.setReq_txIn, hin] <;> rfl

theorem hardByte_setReq : hardByte (s.setReq r) = answerSetReq r (hardByte s) :=
  andThen_setReq r (callAll_setReq s r _) fun t => by rw [noteTx_setReq]; rfl

theorem loadFrame_setReq (v : Byte) (b : Bool) : loadFrame v b (s.setReq r) = (loadFrame v b s).setReq r := by
  rw [loadFrame, loadFrame, State.setReq_cfg]; split <;> rfl

theorem writeByte_setReq (v : Byte) (b : Bool) : writeByte v b (s.setReq r) = answerSetReq r (writeByte v b s) := by
  refine andThen_setReq r ?_ fun _ => rfl
  rw [loadFrame_setReq, State.setReq_cfg]
  split
  · exact softByte_setReq _ r
  · exact hardByte_setReq _ r

theorem selectDc_setReq (l : Level) : selectDc l (s.setReq r) = answerSetReq r (selectDc l s) := by
  rw [selectDc, selectDc, State.setReq_cfg]
  split
  · rfl
  · exact callAll_setReq s r _

theorem writeCommand_setReq (b : Byte) : writeCommand b (s.setReq r) = answerSetReq r (writeCommand b s) :=
  andThen_setReq r (selectDc_setReq s r _) fun t => writeByte_setReq t r _ _

theorem writeData_setReq (b : Byte) : writeData b (s.setReq r) = answerSetReq r (writeData b s) :=
  andThen_setReq r (selectDc_setReq s r _) fun t => writeByte_setReq t r _ _

theorem advance_setReq : advance (s.setReq r) = (advance s).setReq r := by
  simp only [advance, State.setReq_seq]
  split
  · rfl
  · split <;> rfl

theorem advanceByte_setReq (len : Nat) : advanceByte len (s.setReq r) = (advanceByte len s).setReq r := by
  simp only [advanceByte, State.setReq_seq]
  split
  · rfl
  · split
    · rfl
    · exact advance_setReq s r

theorem ownEvent_setReq (e : Event) : ownEvent e (s.setReq r) = answerSetReq r (ownEvent e s) :=
  andThen_setReq r (callAll_setReq s r _) fun t => by rw [advance_setReq]; rfl

theorem sendCommand_setReq (b : Byte) : sendCommand b (s.setReq r) = answerSetReq r (sendCommand b s) :=
  andThen_setReq r (writeCommand_setReq s r b) fun t => by rw [advance_setReq]; rfl

theorem sendData_setReq (b : Byte) : sendData b (s.setReq r) = answerSetReq r (sendData b s) :=
  andThen_setReq r (writeData_setReq s r b) fun t => by rw [advanceByte_setReq]; rfl

theorem dropBusy_setReq : dropBusy (s.setReq r) = (dropBusy s).setReq r := by
  simp only [dropBusy, State.setReq_busyIn]; split <;> rfl

theorem pollBusy_setReq (b : Byte) : pollBusy b (s.setReq r) = answerSetReq r (pollBusy b s) := by
  simp only [pollBusy_eq]
  refine andThen_setReq r (writeCommand_setReq s r b) fun t => andThen_setReq r (callAll_setReq t r _) fun u => ?_
  have hbusy : busyAnswer (t.setReq r) = busyAnswer t := rfl
  rw [hbusy, dropBusy_setReq, State.setReq_cfg]
  split
  · rw [advance_setReq]; rfl
  · exact callAll_setReq _ r _

/-- A command frame of the microprogram sends its one byte, or polls. -/
theorem exec_command_cases {i : Instr} (hi : i.isCommand = true) :
    i = .status ∨ ∃ b, ∀ s, exec i s = sendCommand b s := by
  cases i <;> simp only [Instr.isCommand, Bool.false_eq_true] at hi
  case status => exact .inl rfl
  all_goals exact .inr ⟨_, fun _ => rfl⟩

theorem exec_command_setReq {i : Instr} (hi : i.isCommand = true) :
    exec i (s.setReq r) = answerSetReq r (exec i s) := by
  obtain rfl | ⟨b, hb⟩ := exec_command_cases hi
  · exact pollBusy_setReq s r _
  · rw [hb, hb]; exact sendCommand_setReq s r b

/-- A step in flight does the same whatever the request registers hold (R21). -/
theorem step_setReq_of_inflight (hi : s.inflight = true) : step (s.setReq r) = answerSetReq r (step s) := by
  cases hq : s.seq with
  | none => simp [step, fetch, hi, hq, answerSetReq]
  | some q =>
    simp only [step, fetch, fetchMicro, State.setReq_inflight, State.setReq_seq, State.setReq_cfg, State.setReq_fb, hi, hq,
      if_true]
    cases hm : micro s.cfg q.src q.upc with
    | drive l => exact ownEvent_setReq s r _
    | delay d => exact ownEvent_setReq s r _
    | command b =>
      obtain ⟨i, hcmd, -, hlookup⟩ := micro_command hm
      simp only [decode, decodeFrame_command, hlookup]
      exact exec_command_setReq s r hcmd
    | wait =>
      simp only [decode, decodeFrame_command]
      exact pollBusy_setReq s r 0x71#8
    | payload p =>
      by_cases hlt : q.cnt < payloadLen p
      · simp only [hlt, if_true, decode, decodeFrame_data]
        exact sendData_setReq s r _
      · simp only [hlt, if_false, advance_setReq]; rfl
    | terminal => rfl

end SetReq

/-- Settles O18: a step in flight commutes with the update of the request registers. -/
theorem requestRegistersDoNotReachARunningOperation : Obligations.RequestRegistersDoNotReachARunningOperation := by
  intro s t r hi h
  rw [step_setReq_of_inflight s r hi, h]
  rfl

/-! ### A software byte cut short -/

/-- SHR as loaded: {D, value} in 3-wire modes, the value in 4-wire modes (R23, R81, R82). -/
theorem loadFrame_shr (v : Byte) (b : Bool) (s : State) :
    (loadFrame v b s).shr = if s.cfg.mode.is3wire then frameWord v b else 0#1 ++ v := by
  unfold loadFrame; split <;> rfl

/-- Nine bits go on the wire in 3-wire modes, eight in 4-wire modes (R81, R82). -/
theorem serialBits_length (m : Mode) (v : Byte) (b : Bool) :
    (serialBits m v b).length = if m.is3wire then 9 else 8 := by
  unfold serialBits; split <;> rfl

/-- Settles O60: the byte is cut off at the failing call, where SHR is the loaded frame and BITN counts the cells not completed. -/
theorem bitnCountsTheBitsLeft : Obligations.BitnCountsTheBitsLeft := by
  intro s v b k hsw hk hfail
  have hcut := writeByte_of_fail v b hfail hk
  rw [if_pos hsw] at hcut
  refine ⟨_, hcut, by simp, fun h3 => ?_, fun h4 => ?_, ?_⟩
  · simp [loadFrame_shr, h3, frameWord]
  · simpa [loadFrame_shr, h4] using BitVec.setWidth_append_eq_right
  · rw [serialBits_length]
    simp only [State.setBitn_bitn, BitVec.toNat_ofNat]
    split <;> omega

end Sys2Proof.Machine
end

section
/-!
PROOFS. The statement of 20_memory.md: in-range pixels and the bits of FB[0..N-1] correspond one to one (O23). The byte index of
a pixel is a number in base WIDTH / 8, whose quotient is the pixel's row and whose remainder is its byte in the row; reading a
byte index that way gives the inverse of the pixel map.
-/

namespace Sys2Proof.Machine

/-- The x coordinate of the pixel that bit `b` of byte `a` stores (R53). -/
def pixelX (c : Cfg) (a b : Nat) : Int := (8 * (a % (c.width / 8)) + (7 - b) : Nat)

/-- The y coordinate of the pixels that byte `a` stores (R53). -/
def pixelY (c : Cfg) (a : Nat) : Int := (a / (c.width / 8) : Nat)

/-- An in-range pixel's byte within its row is one of WIDTH / 8 (R53). -/
theorem byteInRow_lt {c : Cfg} (h : cfgLegal c = true) {x y : Int} (hr : inRange c x y = true) :
    x.toNat / 8 < c.width / 8 := by
  obtain ⟨-, hmod, -⟩ := geometry_of_legal h
  obtain ⟨hx0, hx, -⟩ := (inRange_iff c x y).1 hr
  omega

/-- The x coordinate is found again in the byte and bit of an in-range pixel (R53). -/
theorem pixelX_pixelIdx {c : Cfg} (h : cfgLegal c = true) {x y : Int} (hr : inRange c x y = true) :
    pixelX c (pixelIdx c x y) (pixelBit x) = x := by
  have hrem : pixelIdx c x y % (c.width / 8) = x.toNat / 8 := by
    rw [pixelIdx, Nat.mul_add_mod_of_lt (byteInRow_lt h hr)]
  obtain ⟨hx, -⟩ := (inRange_iff c x y).1 hr
  rw [pixelX, hrem, pixelBit]
  omega

/-- The y coordinate is found again in the byte of an in-range pixel (R53). -/
theorem pixelY_pixelIdx {c : Cfg} (h : cfgLegal c = true) {x y : Int} (hr : inRange c x y = true) :
    pixelY c (pixelIdx c x y) = y := by
  have hlt := byteInRow_lt h hr
  have hquot : pixelIdx c x y / (c.width / 8) = y.toNat := by
    rw [pixelIdx, Nat.mul_comm, Nat.mul_add_div (by omega), Nat.div_eq_of_lt hlt, Nat.add_zero]
  obtain ⟨-, -, hy, -⟩ := (inRange_iff c x y).1 hr
  rw [pixelY, hquot, Int.toNat_of_nonneg hy]

/-- A bit of FB[0..N-1] stores an in-range pixel (R53, R56). -/
theorem inRange_pixelX_pixelY {c : Cfg} (h : cfgLegal c = true) {a : Nat} (ha : a < c.n) (b : Nat) :
    inRange c (pixelX c a b) (pixelY c a) = true := by
  obtain ⟨hpos, hmod, -⟩ := geometry_of_legal h
  have hrem : a % (c.width / 8) < c.width / 8 := Nat.mod_lt _ (by omega)
  have hquot : a / (c.width / 8) < c.height := by
    rw [cfg_n_eq h, Nat.mul_comm] at ha
    exact Nat.div_lt_of_lt_mul ha
  exact (inRange_iff ..).2
    ⟨Int.natCast_nonneg _, Int.ofNat_lt.2 (by omega), Int.natCast_nonneg _, Int.ofNat_lt.2 hquot⟩

/-- Bit `b` of byte `a` is the bit that its pixel is stored in (R53). -/
theorem pixelBit_pixelX (c : Cfg) (a : Nat) {b : Nat} (hb : b < 8) : pixelBit (pixelX c a b) = b := by
  rw [pixelBit, pixelX, Int.toNat_natCast]
  omega

/-- Byte `a` is the byte that its pixels are stored in (R53). -/
theorem pixelIdx_pixelX_pixelY (c : Cfg) (a b : Nat) : pixelIdx c (pixelX c a b) (pixelY c a) = a := by
  have hbyte : (8 * (a % (c.width / 8)) + (7 - b)) / 8 = a % (c.width / 8) := by omega
  rw [pixelIdx, pixelX, pixelY, Int.toNat_natCast, Int.toNat_natCast, hbyte, Nat.div_add_mod']

/-- Settles O23: `pixelX` and `pixelY` are a left inverse of the pixel map, so that different pixels have different bits, and a
right inverse, so that every bit is some pixel's. -/
theorem pixelMapIsABijection : Obligations.PixelMapIsABijection := by
  intro c h
  refine ⟨fun x y hr => ⟨pixelIdx_lt h hr, pixelBit_lt x⟩, fun x y x' y' hr hr' hidx hbit => ⟨?_, ?_⟩, fun a b ha hb =>
    ⟨pixelX c a b, pixelY c a, inRange_pixelX_pixelY h ha b, pixelIdx_pixelX_pixelY c a b, pixelBit_pixelX c a hb⟩⟩
  · rw [← pixelX_pixelIdx h hr, hidx, hbit, pixelX_pixelIdx h hr']
  · rw [← pixelY_pixelIdx h hr, hidx, pixelY_pixelIdx h hr']

end Sys2Proof.Machine
end

section
/-!
PROOFS. The statements of 30_encoding.md: the decoder and the encoder agree (O1, O2, O3), the buffer of a 9-bit transfer (O4), a
step runs what its fetch decodes to (O8, O9), which steps are refused (O19, O34), and what a frame puts on the wire (O40).
-/

namespace Sys2Proof.Machine

/-! ### The decoder and the encoder -/

/-- Decoding an instruction's code word gives it back (R89, R94). -/
theorem decode_encode (i : Instr) : decode (encode i) = some i := by
  cases i with
  | data d => exact decodeFrame_data d
  | _ => rfl

/-- What a table lookup finds stands in the table beside its key. -/
theorem mem_of_lookup_eq_some {α β : Type} [BEq α] [LawfulBEq α] {l : List (α × β)} {k : α} {v : β}
    (h : l.lookup k = some v) : (k, v) ∈ l := by
  obtain ⟨l₁, l₂, rfl, -⟩ := List.lookup_eq_some_iff.1 h
  simp

/-- Each row of the command table holds the instruction that its code encodes, as a frame with D = 0 (R89). -/
theorem encode_of_mem_commandTable : ∀ row ∈ commandTable, encode row.2 = .frame (frameWord row.1 true) := by
  decide

/-- Each row of the host table holds the instruction that its code encodes (R94, R95). -/
theorem encode_of_mem_hostTable : ∀ row ∈ hostTable, encode row.2 = .host row.1 := by
  decide

/-- A frame word that decodes is the code word of what it decodes to (R89, R90). -/
theorem encode_of_decodeFrame {fw : FrameWord} {i : Instr} (h : decodeFrame fw = some i) : encode i = .frame fw := by
  have hparts := frameWord_parts fw
  cases hD : frameD fw with
  | true =>
    obtain rfl : Instr.data (frameValue fw) = i := by simpa [decodeFrame, hD] using h
    rw [hD] at hparts
    exact congrArg Code.frame hparts
  | false =>
    have hlookup : commandTable.lookup (frameValue fw) = some i := by simpa [decodeFrame, hD] using h
    rw [hD] at hparts
    rw [encode_of_mem_commandTable _ (mem_of_lookup_eq_some hlookup)]
    exact congrArg Code.frame hparts

/-- A host code is the code word of what it decodes to (R94). -/
theorem encode_of_decodeHost {op : OpCode} {i : Instr} (h : decodeHost op = some i) : encode i = .host op :=
  encode_of_mem_hostTable _ (mem_of_lookup_eq_some h)

/-- Settles O1: an instruction's code word stands in its row of the tables, and every row holds the instruction that encodes to
the row's code. -/
theorem codeWordsRoundTrip : Obligations.CodeWordsRoundTrip := by
  refine ⟨decode_encode, fun c i h => ?_⟩
  cases c with
  | frame fw => exact encode_of_decodeFrame h
  | host op => exact encode_of_decodeHost h

/-- Settles O2: each word is the code word of its instruction, which decodes to it. -/
theorem writtenOutWordsDecode : Obligations.WrittenOutWordsDecode :=
  ⟨decode_encode .panelSet, decode_encode .vcomCdi, decode_encode .status, decode_encode (.data 0xA5#8),
    decode_encode .drawLine, decode_encode .updateScreen⟩

/-- Settles O3: a lookup finds something exactly for the codes that stand in the table, and the command table's codes are these
thirteen. -/
theorem onlyTheThirteenCodesAreCommands : Obligations.OnlyTheThirteenCodesAreCommands := by
  intro fw
  refine ⟨fun hD => ?_, fun hD => by simp [decodeFrame, hD]⟩
  have hlookup : decodeFrame fw = commandTable.lookup (frameValue fw) := by simp [decodeFrame, hD]
  rw [hlookup, List.lookup_isSome_iff]
  simp [commandTable]

/-! ### The buffer of a 9-bit transfer -/

/-- The first byte of the buffer holds bits 8 to 1 of the frame word (R86). -/
theorem byteBits_packFrame_first (fw : FrameWord) :
    byteBits (fw.extractLsb' 1 8) = (List.range 8).map fun k => fw.getLsbD (8 - k) := by
  simp [byteBits, List.range_succ]

/-- A byte of one bit and seven zeros below it. -/
theorem byteBits_append_zeros (d : BitVec 1) :
    byteBits (d ++ 0b0000000#7) = d.getLsbD 0 :: List.replicate 7 false := by
  revert d; decide

/-- The second byte of the buffer holds bit 0 of the frame word, then seven zero bits (R86). -/
theorem byteBits_packFrame_second (fw : FrameWord) :
    byteBits (fw.extractLsb' 0 1 ++ 0b0000000#7) = fw.getLsbD 0 :: List.replicate 7 false := by
  rw [byteBits_append_zeros]; simp

/-- Settles O4: the first byte holds the first eight bits of the word, the second byte the ninth and the seven zeros. -/
theorem nineBitBufferIsLeftAligned : Obligations.NineBitBufferIsLeftAligned := by
  intro fw
  refine ⟨_, _, rfl, ?_⟩
  rw [byteBits_packFrame_first, byteBits_packFrame_second, List.range_succ, List.map_append, List.append_assoc]
  rfl

/-! ### A step runs what its fetch decodes to -/

/-- Settles O8: this is the fetch, decode and execute of the step. -/
theorem stepRunsTheDecodedInstruction : Obligations.StepRunsTheDecodedInstruction := by
  intro s t c i hfetch hdec
  simp only [step, hfetch, hdec]

/-- Idle with no request, the block waits (R260). -/
theorem step_of_no_request {s : State} (hi : s.inflight = false) (hr : s.env.requests = []) : step s = .next s := by
  simp [step, fetch, hi, hr]

/-- Idle, the fetch takes the first request (R93). -/
theorem fetch_of_request {s : State} {q : Request} {rest : List Request} (hi : s.inflight = false)
    (hr : s.env.requests = q :: rest) : fetch s = .code (.host q.op) (loadRequest q rest s) := by
  simp [fetch, hi, hr]

/-- Idle with a request, a step executes the operation its code decodes to, with the record loaded (R93, R94). -/
theorem step_of_request {s : State} {q : Request} {rest : List Request} (hi : s.inflight = false)
    (hr : s.env.requests = q :: rest) : ∃ i, decodeHost q.op = some i ∧ step s = exec i (loadRequest q rest s) := by
  obtain ⟨i, hdec⟩ := decodeHost_isSome q.op
  exact ⟨i, hdec, stepRunsTheDecodedInstruction s _ _ i (fetch_of_request hi hr) hdec⟩

/-- Settles O9: with no request the block waits, and every host code decodes. -/
theorem idleStepTakesTheNextRequest : Obligations.IdleStepTakesTheNextRequest :=
  fun _ hi => ⟨step_of_no_request hi, fun _ _ => step_of_request hi⟩

/-! ### Refusals -/

/-- Settles O34: the meaning of a reserved code does not look at the state. -/
theorem reservedCodesAreRefused : Obligations.ReservedCodesAreRefused :=
  fun _ => ⟨rfl, rfl⟩

section NeverRefused

variable {s : State} {r : Refusal}

/-- A sequence is not refused when neither of its parts is. -/
theorem andThen_ne_refused {a : Answer} {f : State → Answer} (ha : a ≠ .refused r) (hf : ∀ u, f u ≠ .refused r) :
    andThen a f ≠ .refused r := by
  cases a with
  | next u => exact hf u
  | fault e => exact nofun
  | refused e => exact ha

theorem selectDc_ne_refused (l : Level) : selectDc l s ≠ .refused r := by
  unfold selectDc
  split
  · exact nofun
  · exact callAll_ne_refused _ s r

theorem writeCommand_ne_refused (b : Byte) : writeCommand b s ≠ .refused r :=
  andThen_ne_refused (selectDc_ne_refused _) fun u => writeByte_ne_refused b true u r

theorem writeData_ne_refused (b : Byte) : writeData b s ≠ .refused r :=
  andThen_ne_refused (selectDc_ne_refused _) fun u => writeByte_ne_refused b false u r

theorem ownEvent_ne_refused (e : Event) : ownEvent e s ≠ .refused r :=
  andThen_ne_refused (callAll_ne_refused _ s r) fun _ => nofun

theorem sendCommand_ne_refused (b : Byte) : sendCommand b s ≠ .refused r :=
  andThen_ne_refused (writeCommand_ne_refused b) fun _ => nofun

theorem sendData_ne_refused (b : Byte) : sendData b s ≠ .refused r :=
  andThen_ne_refused (writeData_ne_refused b) fun _ => nofun

theorem pollBusy_ne_refused (b : Byte) : pollBusy b s ≠ .refused r := by
  rw [pollBusy_eq]
  refine andThen_ne_refused (writeCommand_ne_refused b) fun t =>
    andThen_ne_refused (callAll_ne_refused _ t r) fun u => ?_
  split
  · exact nofun
  · exact callAll_ne_refused _ _ r

/-- No command frame is refused. -/
theorem exec_command_ne_refused {i : Instr} (hi : i.isCommand = true) : exec i s ≠ .refused r := by
  obtain rfl | ⟨b, hb⟩ := exec_command_cases hi
  · exact pollBusy_ne_refused _
  · rw [hb]; exact sendCommand_ne_refused b

/-- No step in flight at a position is refused: every command byte of the microprogram decodes (R172, log 14). -/
theorem step_inflight_ne_refused {q : SeqPos} (hi : s.inflight = true) (hq : s.seq = some q) : step s ≠ .refused r := by
  simp only [step, fetch, fetchMicro, hi, hq, if_true]
  cases hm : micro s.cfg q.src q.upc with
  | drive l => exact ownEvent_ne_refused _
  | delay d => exact ownEvent_ne_refused _
  | command b =>
    obtain ⟨i, hcmd, -, hlookup⟩ := micro_command hm
    simp only [decode, decodeFrame_command, hlookup]
    exact exec_command_ne_refused hcmd
  | wait =>
    simp only [decode, decodeFrame_command]
    exact pollBusy_ne_refused 0x71#8
  | payload p =>
    by_cases hlt : q.cnt < payloadLen p
    · simp only [hlt, if_true, decode, decodeFrame_data]
      exact sendData_ne_refused _
    · simp only [hlt, if_false]
      exact nofun
  | terminal => exact nofun

end NeverRefused

/-- A host operation that the block accepts is not refused (R95, R237). -/
theorem exec_ne_refused_of_accepts {i : Instr}
    (hmem : i ∈ [Instr.setPixel, .drawLine, .fill, .mapValue, .updateScreen, .cleanScreen]) {s : State} {r : Refusal}
    (h : Accepts s) : exec i s ≠ .refused r := by
  simp only [List.mem_cons, List.not_mem_nil, or_false] at hmem
  rcases hmem with rfl | rfl | rfl | rfl | rfl | rfl
  · rw [exec, execSetPixel, hostGate_of_accepts _ h]; nofun
  · rw [exec, execDrawLine, hostGate_of_accepts _ h]; nofun
  · rw [exec, execFill, hostGate_of_accepts _ h]; nofun
  · rw [exec, execMapValue, hostGate_of_accepts _ h]
    split
    · rw [mapFault]; nofun
    · nofun
  · rw [exec, execUpdateScreen, hostGate_of_accepts _ h]; nofun
  · rw [exec, execCleanScreen, hostGate_of_accepts _ h]; nofun

/-- Each row of the host table is one of the six operations or one of the two reserved codes (R94, R95). -/
theorem hostTable_rows : ∀ row ∈ hostTable,
    row.2 ∈ [Instr.setPixel, .drawLine, .fill, .mapValue, .updateScreen, .cleanScreen] ∨
      row = (0b110#3, .reserved6) ∨ row = (0b111#3, .reserved7) := by
  decide

/-- An idle block refuses a request because its code is reserved, or because the configuration is not legal (R95, U5). -/
theorem exec_request_refused {op : OpCode} {i : Instr} (hdec : decodeHost op = some i) {s : State} {r : Refusal}
    (hi : s.inflight = false) (h : exec i s = .refused r) :
    (r = .reservedOp op ∧ (op = 0b110#3 ∨ op = 0b111#3)) ∨ (r = .illegalCfg ∧ cfgLegal s.cfg = false) := by
  obtain hmem | hrow | hrow := hostTable_rows _ (mem_of_lookup_eq_some hdec)
  · cases hc : cfgLegal s.cfg with
    | true => exact absurd h (exec_ne_refused_of_accepts hmem ⟨hi, hc⟩)
    | false =>
      rw [illegalConfigurationIsRefused s hi hc i hmem] at h
      exact .inr ⟨(Host.Outcome.refused.inj h).symm, rfl⟩
  · obtain ⟨rfl, rfl⟩ := Prod.mk.inj hrow
    exact .inl ⟨(Host.Outcome.refused.inj h).symm, .inl rfl⟩
  · obtain ⟨rfl, rfl⟩ := Prod.mk.inj hrow
    exact .inl ⟨(Host.Outcome.refused.inj h).symm, .inr rfl⟩

/-- Settles O19: in flight the invariant gives a position, at which no step is refused; idle, a step waits or presents the first
request. -/
theorem stepRefusesOnlyRequests : Obligations.StepRefusesOnlyRequests := by
  intro s r hinv h
  cases hi : s.inflight with
  | true =>
    cases hq : s.seq with
    | none => simp [(seqWf_iff_of_none hq).1 hinv.position] at hi
    | some q => exact absurd h (step_inflight_ne_refused hi hq)
  | false =>
    refine ⟨rfl, ?_⟩
    cases hr : s.env.requests with
    | nil => rw [step_of_no_request hi hr] at h; cases h
    | cons q rest =>
      obtain ⟨i, hdec, hstep⟩ := step_of_request hi hr
      exact ⟨q, rest, rfl, exec_request_refused hdec (s := loadRequest q rest s) hi (hstep ▸ h)⟩

/-! ### What a frame puts on the wire -/

/-- A byte's events in a software mode: chip-select around the cells of `ser(MODE, value, is_command)` (R83, R134, R135). -/
theorem byteTrace_of_soft {c : Cfg} (v : Byte) (b : Bool) (h : c.mode.isSw = true) :
    byteTrace c v b =
      [.gw .cs c.csActive] ++ (serialBits c.mode v b).flatMap (cellTrace c) ++ [.gw .cs c.csActive.other] := by
  cases hm : c.mode with
  | hw4 => simp [hm, Mode.isSw] at h
  | hw3 => simp [hm, Mode.isSw] at h
  | sw4 => simp [byteTrace, hm, serialBits, Mode.is3wire]
  | sw3 => simp [byteTrace, hm, serialBits, Mode.is3wire]

/-- A receiver takes one bit from each bit cell: the level SDA has at its rising clock edge (R83, R131). -/
theorem sampled_cells (c : Cfg) (bits : List Bool) (es : List Event) (l : Level) :
    ∃ l', sampled l (bits.flatMap (cellTrace c) ++ es) = bits.map Level.ofBit ++ sampled l' es := by
  induction bits generalizing l with
  | nil => exact ⟨l, rfl⟩
  | cons b bits ih =>
    obtain ⟨l', h⟩ := ih (Level.ofBit b)
    exact ⟨l', by rw [List.flatMap_cons, List.append_assoc, List.map_cons, List.cons_append, ← h]; rfl⟩

/-- A receiver takes `ser(MODE, value, is_command)` from a byte in a software mode, whatever SDA was before (R83, R136). -/
theorem sampled_byteTrace {c : Cfg} {m : Mode} (v : Byte) (b : Bool) (hm : c.mode = m) (h : m.isSw = true) (l : Level) :
    sampled l (byteTrace c v b) = (serialBits m v b).map Level.ofBit := by
  subst hm
  obtain ⟨l', hcells⟩ := sampled_cells c (serialBits c.mode v b) [.gw .cs c.csActive.other] l
  calc sampled l (byteTrace c v b)
      = sampled l ((serialBits c.mode v b).flatMap (cellTrace c) ++ [.gw .cs c.csActive.other]) := by
        rw [byteTrace_of_soft v b h]; rfl
    _ = (serialBits c.mode v b).map Level.ofBit ++ sampled l' [.gw .cs c.csActive.other] := hcells
    _ = (serialBits c.mode v b).map Level.ofBit := List.append_nil _

/-- A frame word, most significant bit first, is D and then its value (R80, R82). -/
theorem frameWord_bits (v : Byte) (b : Bool) :
    (List.range 9).map (fun k => (frameWord v b).getLsbD (8 - k)) = (!b) :: byteBits v :=
  (lowBits_frame v b).1

/-- What ends a byte adds no event (R23, R137). -/
theorem byteDone_trace (c : Cfg) (s : State) : (byteDone c s).env.trace = s.env.trace := by
  obtain ⟨-, htrace, -⟩ := dropTx_keeps s
  cases hc : c.mode.isSw with
  | true => simp [byteDone, hc]
  | false => simp [byteDone, hc, noteTx_eq, htrace]

/-- Settles O40: the events of the byte are those of its mode, one TX of the frame or the cells of its bits. -/
theorem wireCarriesTheSerialBits : Obligations.WireCarriesTheSerialBits := by
  intro s v b hcaps
  refine ⟨_, byteTrace s.cfg v b, writeByte_of_returns v b hcaps, by simp [byteDone_trace], ?_⟩
  cases hm : s.cfg.mode with
  | hw4 => exact ⟨v, by simp [byteTrace, hm], rfl⟩
  | hw3 => exact ⟨frameWord v b, by simp [byteTrace, hm, frameWord], frameWord_bits v b⟩
  | sw4 => exact sampled_byteTrace v b hm rfl
  | sw3 => exact sampled_byteTrace v b hm rfl

end Sys2Proof.Machine
end

section
/-!
PROOFS. The statements of 40_framebuffer.md: set_pixel and its laws (O21, O22), lines (O24 to O28), fill (O29), map_value (O30),
and what the four operations leave unchanged (O32).
-/

namespace Sys2Proof.Machine

/-! ### One bit of a byte; two writes -/

/-- The last write of a bit stands (R57). -/
theorem setBit_setBit_same (v : Byte) {i : Nat} (hi : i < 8) (b : Bool) : setBit (setBit v i b) i b = setBit v i b := by
  refine BitVec.eq_of_getLsbD_eq fun k hk => ?_
  rw [setBit_getLsbD _ _ _ _ hi hk, setBit_getLsbD _ _ _ _ hi hk]
  split <;> rfl

/-- Writes of two different bits commute (R57). -/
theorem setBit_comm (v : Byte) {i j : Nat} (hi : i < 8) (hj : j < 8) (hij : i ≠ j) (b b' : Bool) :
    setBit (setBit v i b) j b' = setBit (setBit v j b') i b := by
  refine BitVec.eq_of_getLsbD_eq fun k hk => ?_
  simp only [setBit_getLsbD _ _ _ _ hi hk, setBit_getLsbD _ _ _ _ hj hk]
  by_cases hki : k = i
  · simp [hki, hij]
  · simp [hki]

/-- Writes of two addresses commute, the lower one named first. -/
theorem memWrite_comm_of_lt (m : Memory) {a b : Nat} (hab : a < b) (v w : Byte) :
    memWrite (memWrite m a v) b w = memWrite (memWrite m b w) a v := by
  have hba : ¬ b < a := hab.asymm
  induction m with
  | nil => simp [memWrite, hab, hba, hab.ne']
  | cons cell m ih =>
    obtain ⟨k, u⟩ := cell
    rcases lt_trichotomy a k with hak | rfl | hka
    · rcases lt_trichotomy b k with hbk | rfl | hkb
      · simp [memWrite, hab, hba, hab.ne', hak, hbk]
      · simp [memWrite, hab, hba, hab.ne']
      · simp [memWrite, hba, hab.ne', hak, hkb.asymm, hkb.ne']
    · simp [memWrite, hba, hab.ne']
    · have hkb := hka.trans hab
      simp [memWrite, hka.asymm, hka.ne', hkb.asymm, hkb.ne', ih]

/-- Writes of two different addresses commute. -/
theorem memWrite_comm (m : Memory) {a b : Nat} (hab : a ≠ b) (v w : Byte) :
    memWrite (memWrite m a v) b w = memWrite (memWrite m b w) a v := by
  rcases hab.lt_or_gt with h | h
  · exact memWrite_comm_of_lt m h v w
  · exact (memWrite_comm_of_lt m h w v).symm

/-! ### set_pixel -/

/-- What every bit of the framebuffer is after a `set_pixel`, in range or not (R110). -/
theorem memRead_setPixelAt_bit {s : State} (hwf : memWf s.fb = true) (x y : Int) (col : Color) (a : Nat) {b : Nat}
    (hb : b < 8) :
    (memRead (setPixelAt x y col s).fb a).getLsbD b =
      if inRange s.cfg x y = true ∧ a = pixelIdx s.cfg x y ∧ b = pixelBit x then colorBit col
      else (memRead s.fb a).getLsbD b := by
  cases hr : inRange s.cfg x y with
  | false => simp [setPixelAt_out hr]
  | true =>
    rw [setPixelAt_in hr rfl, State.setFb_fb]
    by_cases ha : a = pixelIdx s.cfg x y
    · rw [ha, memRead_memWrite_same _ _ _ hwf, setBit_getLsbD _ _ _ _ (pixelBit_lt x) hb]
      simp
    · rw [memRead_memWrite_other _ _ _ _ hwf (Ne.symm ha)]
      simp [ha]

/-- A byte that does not hold the pixel reads as before (R57, R110). -/
theorem memRead_setPixelAt_other {s : State} (hwf : memWf s.fb = true) {x y : Int} (col : Color) {a : Nat}
    (ha : inRange s.cfg x y = true → a ≠ pixelIdx s.cfg x y) :
    memRead (setPixelAt x y col s).fb a = memRead s.fb a := by
  refine BitVec.eq_of_getLsbD_eq fun b hb => ?_
  rw [memRead_setPixelAt_bit hwf x y col a hb, if_neg fun ⟨hr, hidx, _⟩ => ha hr hidx]

/-- The pixels after a `set_pixel`: the one written has the colour, every other one the colour it had (R111). -/
theorem pixel_setPixelAt {s : State} (hc : cfgLegal s.cfg = true) (hwf : memWf s.fb = true) {x y : Int}
    (hr : inRange s.cfg x y = true) (x' y' : Int) (col : Color) :
    pixel (setPixelAt x' y' col s) x y = if (x', y') = (x, y) then colorBit col else pixel s x y := by
  obtain ⟨-, hinj, -⟩ := pixelMapIsABijection s.cfg hc
  have hplace : (inRange s.cfg x' y' = true ∧ pixelIdx s.cfg x y = pixelIdx s.cfg x' y' ∧ pixelBit x = pixelBit x') ↔
      (x', y') = (x, y) := by
    constructor
    · rintro ⟨hr', hidx, hbit⟩
      obtain ⟨rfl, rfl⟩ := hinj x y x' y' hr hr' hidx hbit
      rfl
    · rintro ⟨⟩
      exact ⟨hr, rfl, rfl⟩
  rw [pixel, setPixelAt_cfg, memRead_setPixelAt_bit hwf x' y' col _ (pixelBit_lt x)]
  simp only [hplace, pixel]

/-- An in-range `set_pixel` on another framebuffer (R110). -/
theorem setPixelAt_setFb {s : State} {x y : Int} (hr : inRange s.cfg x y = true) (col : Color) (m : Memory) :
    setPixelAt x y col (s.setFb m) = s.setFb (memWrite m (pixelIdx s.cfg x y)
      (setBit (memRead m (pixelIdx s.cfg x y)) (pixelBit x) (colorBit col))) :=
  setPixelAt_in (s := s.setFb m) hr rfl

/-- The same `set_pixel` twice is one (R111). -/
theorem setPixelAt_idem (x y : Int) (col : Color) {s : State} (hwf : memWf s.fb = true) :
    setPixelAt x y col (setPixelAt x y col s) = setPixelAt x y col s := by
  cases hr : inRange s.cfg x y with
  | false => rw [setPixelAt_out hr, setPixelAt_out hr]
  | true =>
    rw [setPixelAt_in hr rfl, setPixelAt_setFb hr, memRead_memWrite_same _ _ _ hwf, setBit_setBit_same _ (pixelBit_lt x),
      memWrite_memWrite]

/-- Writes of two different in-range pixels commute: in different bytes because the writes of the bytes do, in one byte because
the writes of its bits do (R111). -/
theorem setPixelAt_comm {s : State} (hc : cfgLegal s.cfg = true) (hwf : memWf s.fb = true) {x y x' y' : Int}
    (col col' : Color) (hr : inRange s.cfg x y = true) (hr' : inRange s.cfg x' y' = true) (hne : (x, y) ≠ (x', y')) :
    setPixelAt x' y' col' (setPixelAt x y col s) = setPixelAt x y col (setPixelAt x' y' col' s) := by
  obtain ⟨-, hinj, -⟩ := pixelMapIsABijection s.cfg hc
  rw [setPixelAt_in hr rfl, setPixelAt_in hr' rfl, setPixelAt_setFb hr', setPixelAt_setFb hr]
  by_cases hidx : pixelIdx s.cfg x y = pixelIdx s.cfg x' y'
  · have hbit : pixelBit x ≠ pixelBit x' := fun hbit => hne (by
      obtain ⟨rfl, rfl⟩ := hinj x y x' y' hr hr' hidx hbit
      rfl)
    rw [hidx, memRead_memWrite_same _ _ _ hwf, memRead_memWrite_same _ _ _ hwf, memWrite_memWrite, memWrite_memWrite,
      setBit_comm _ (pixelBit_lt x) (pixelBit_lt x') hbit]
  · rw [memRead_memWrite_other _ _ _ _ hwf hidx, memRead_memWrite_other _ _ _ _ hwf (Ne.symm hidx), memWrite_comm _ hidx]

/-- An accepted `set_pixel` completes (R110). -/
theorem exec_setPixel {s : State} (h : Accepts s) :
    exec .setPixel s = .next (setPixelAt (operand s 0) (operand s 1) (colorOperand s) s) := by
  rw [exec, execSetPixel, hostGate_of_accepts _ h]

/-- The bit of the colour operand is the operand (R52, R91). -/
theorem colorBit_colorOperand (s : State) : colorBit (colorOperand s) = decide (s.req.c = 1#1) := by
  unfold colorOperand colorOfBit
  split <;> simp [colorBit, *]

/-- Settles O21: in range, what each bit is after the write; out of range, nothing is written. -/
theorem setPixelWritesOneBit : Obligations.SetPixelWritesOneBit := by
  intro s hacc hwf
  refine ⟨_, exec_setPixel hacc, ?_⟩
  split
  case isTrue hr =>
    refine ⟨?_, fun a b hb => ?_⟩
    · obtain ⟨m, hm⟩ := setPixelAt_rest (operand s 0) (operand s 1) (colorOperand s) s
      rw [hm]
      rfl
    · rw [memRead_setPixelAt_bit hwf _ _ _ a hb, colorBit_colorOperand]
      simp only [(inRange_iff ..).2 hr, true_and, pixelIdx, pixelBit]
  case isFalse hr => exact setPixelAt_out (Bool.eq_false_iff.2 fun h => hr ((inRange_iff ..).1 h))

/-- Settles O22: the first and third law are what the pixels are after a write. -/
theorem setPixelObeysItsLaws : Obligations.SetPixelObeysItsLaws := by
  intro s x y x' y' col col' hc hwf
  refine ⟨fun hr => ?_, setPixelAt_out, fun _ hr' hne => ?_, setPixelAt_idem x y col hwf, setPixelAt_comm hc hwf col col'⟩
  · rw [pixel_setPixelAt hc hwf hr, if_pos rfl]
  · rw [pixel_setPixelAt hc hwf hr', if_neg hne]

/-! ### The points of a line -/

/-- The registers an advance leaves alone (R113). -/
theorem lineAdvance_keeps (l : LineRegs) : (lineAdvance l).dxa = l.dxa ∧ (lineAdvance l).dya = l.dya ∧
    (lineAdvance l).sx = l.sx ∧ (lineAdvance l).sy = l.sy := by
  unfold lineAdvance lineAdvanceY lineAdvanceX
  split <;> split <;> exact ⟨rfl, rfl, rfl, rfl⟩

/-- One advance, as the recurrence of R113: both tests are on the ERR of before. -/
theorem lineAdvance_moves (l : LineRegs) :
    (lineAdvance l).x = (if 2 * l.err > -l.dya then l.x + l.sx else l.x) ∧
    (lineAdvance l).y = (if 2 * l.err < l.dxa then l.y + l.sy else l.y) ∧
    (lineAdvance l).err = l.err - (if 2 * l.err > -l.dya then l.dya else 0) + (if 2 * l.err < l.dxa then l.dxa else 0) := by
  unfold lineAdvance lineAdvanceX lineAdvanceY
  by_cases hx : -l.dya < 2 * l.err <;> by_cases hy : 2 * l.err < l.dxa <;> simp [hx, hy]

/-- The lengths and directions of a line stay as loaded (R113). -/
theorem lineReg_keeps (x1 y1 x2 y2 : Int) (k : Nat) :
    (lineReg x1 y1 x2 y2 k).dxa = (x2 - x1).natAbs ∧ (lineReg x1 y1 x2 y2 k).dya = (y2 - y1).natAbs ∧
    (lineReg x1 y1 x2 y2 k).sx = lineSign x1 x2 ∧ (lineReg x1 y1 x2 y2 k).sy = lineSign y1 y2 := by
  induction k with
  | zero => exact ⟨rfl, rfl, rfl, rfl⟩
  | succ k ih =>
    obtain ⟨hdxa, hdya, hsx, hsy⟩ := lineAdvance_keeps (lineReg x1 y1 x2 y2 k)
    rwa [lineReg_succ, hdxa, hdya, hsx, hsy]

/-- ERR stays below `2 * max(DXA, DYA)` in magnitude (R114). -/
theorem lineReg_err_lt {x1 y1 x2 y2 : Int} (hpos : 0 < lineMax x1 y1 x2 y2) (k : Nat) :
    (lineReg x1 y1 x2 y2 k).err.natAbs < 2 * lineMax x1 y1 x2 y2 := by
  unfold lineMax at *
  obtain ⟨i, j, h⟩ := lineInv_reg (x1 := x1) (y1 := y1) (x2 := x2) (y2 := y2) (by omega) k
  rcases lt_trichotomy (x2 - x1).natAbs (y2 - y1).natAbs with hlt | heq | hgt
  · have := h.e2 hlt
    omega
  · have herr := h.err
    rw [h.ik heq.ge, h.jk heq.le, heq, sub_self] at herr
    rw [herr]
    omega
  · have := h.e1 hgt
    omega

/-- The point after `k` advances. -/
def linePoint (x1 y1 x2 y2 : Int) (k : Nat) : Int × Int := ((lineReg x1 y1 x2 y2 k).x, (lineReg x1 y1 x2 y2 k).y)

/-- Of the first `max(DXA, DYA)` advances, `i` have moved in x and `j` in y; the longer direction moves at every one, and at the
last both are at the end (R114). -/
theorem linePoint_eq {x1 y1 x2 y2 : Int} {k : Nat} (hk : k ≤ lineMax x1 y1 x2 y2) : ∃ i j : Nat,
    linePoint x1 y1 x2 y2 k = (x1 + lineSign x1 x2 * i, y1 + lineSign y1 y2 * j) ∧
    i ≤ (x2 - x1).natAbs ∧ j ≤ (y2 - y1).natAbs ∧
    ((y2 - y1).natAbs ≤ (x2 - x1).natAbs → i = k) ∧ ((x2 - x1).natAbs ≤ (y2 - y1).natAbs → j = k) ∧
    (k = lineMax x1 y1 x2 y2 → i = (x2 - x1).natAbs ∧ j = (y2 - y1).natAbs) := by
  obtain ⟨i, j, hx, hy, hi, hj, hik, hjk, -, -, hend⟩ := lineReg_facts x1 y1 x2 y2 k hk
  exact ⟨i, j, Prod.ext hx hy, hi, hj, hik, hjk, hend⟩

/-- A line starts at its first point. -/
theorem linePoint_zero (x1 y1 x2 y2 : Int) : linePoint x1 y1 x2 y2 0 = (x1, y1) := rfl

/-- The end point is reached after exactly `max(DXA, DYA)` advances, and not before (R114). -/
theorem linePoint_eq_end_iff {x1 y1 x2 y2 : Int} {k : Nat} (hk : k ≤ lineMax x1 y1 x2 y2) :
    linePoint x1 y1 x2 y2 k = (x2, y2) ↔ k = lineMax x1 y1 x2 y2 := by
  obtain ⟨i, j, hpt, hi, hj, hik, hjk, hend⟩ := linePoint_eq hk
  rw [hpt, Prod.mk.injEq]
  constructor
  · rintro ⟨hx, hy⟩
    have := lineSign_inj hi hx
    have := lineSign_inj hj hy
    unfold lineMax
    omega
  · intro h
    obtain ⟨rfl, rfl⟩ := hend h
    rw [lineSign_mul, lineSign_mul]
    exact ⟨add_sub_cancel .., add_sub_cancel ..⟩

/-- The registers are at the end exactly after the last advance (R113, R114). -/
theorem lineAtEnd_lineReg_iff {x1 y1 x2 y2 : Int} {k : Nat} (hk : k ≤ lineMax x1 y1 x2 y2) :
    lineAtEnd (lineReg x1 y1 x2 y2 k) = true ↔ k = lineMax x1 y1 x2 y2 := by
  obtain ⟨-, -, -, -, -, -, -, -, hx2, hy2, -⟩ := lineReg_facts x1 y1 x2 y2 k hk
  rw [← linePoint_eq_end_iff hk, linePoint, Prod.mk.injEq, lineAtEnd, hx2, hy2]
  simp

/-- Points drawn without meeting the end before the last: those of the first `n` advances. -/
theorem linePoints_eq_map {n : Nat} {l : LineRegs} (h : ∀ k < n, lineAtEnd (lineAdvance^[k] l) = false) :
    linePoints (n + 1) l = (List.range (n + 1)).map fun k => ((lineAdvance^[k] l).x, (lineAdvance^[k] l).y) := by
  induction n generalizing l with
  | zero => simp [linePoints]
  | succ n ih =>
    have hnext := ih (l := lineAdvance l) fun k hk => h (k + 1) (by omega)
    rw [linePoints, show lineAtEnd l = false from h 0 (by omega), if_neg (by decide), hnext, List.range_succ_eq_map (n := n + 1),
      List.map_cons, List.map_map]
    rfl

/-- The points of a line are those after 0 to `max(DXA, DYA)` advances (R113, R114). -/
theorem lineOf_eq_map (x1 y1 x2 y2 : Int) :
    lineOf x1 y1 x2 y2 = (List.range (lineMax x1 y1 x2 y2 + 1)).map (linePoint x1 y1 x2 y2) := by
  rw [lineOf, lineCount_eq]
  exact linePoints_eq_map fun k hk => Bool.eq_false_iff.2 fun h => hk.ne ((lineAtEnd_lineReg_iff hk.le).1 h)

/-- Membership in a line, by the number of advances. -/
theorem mem_lineOf_iff {x1 y1 x2 y2 : Int} {p : Int × Int} :
    p ∈ lineOf x1 y1 x2 y2 ↔ ∃ k ≤ lineMax x1 y1 x2 y2, linePoint x1 y1 x2 y2 k = p := by
  simp only [lineOf_eq_map, List.mem_map, List.mem_range, Nat.lt_succ_iff]

/-- A coordinate that has moved `i` times toward the end lies between start and end. -/
theorem lineSign_between {a b : Int} {i : Nat} (hi : i ≤ (b - a).natAbs) :
    min a b ≤ a + lineSign a b * i ∧ a + lineSign a b * i ≤ max a b := by
  unfold lineSign
  split <;> omega

/-- Settles O25: the points are those after 0 to `max(DXA, DYA)` advances, and neither direction overshoots. -/
theorem linePointsSpanTheBox : Obligations.LinePointsSpanTheBox := by
  intro x1 y1 x2 y2
  refine ⟨by simp [lineOf_eq_map], ?_, ?_, fun p hp => ?_⟩
  · rw [lineOf_eq_map, List.range_succ_eq_map, List.map_cons, List.head?_cons, linePoint_zero]
  · rw [lineOf_eq_map, List.range_succ, List.map_append, List.map_singleton, List.getLast?_concat,
      (linePoint_eq_end_iff le_rfl).2 rfl]
  · obtain ⟨k, hk, rfl⟩ := mem_lineOf_iff.1 hp
    obtain ⟨i, j, hpt, hi, hj, -⟩ := linePoint_eq hk
    rw [hpt]
    obtain ⟨hxmin, hxmax⟩ := lineSign_between hi
    obtain ⟨hymin, hymax⟩ := lineSign_between hj
    exact ⟨hxmin, hxmax, hymin, hymax⟩

/-! ### Straight lines -/

/-- The number of advances of a horizontal line (R114). -/
theorem lineMax_of_horizontal (x1 x2 y : Int) : lineMax x1 y x2 y = (x2 - x1).natAbs := by simp [lineMax]

/-- The number of advances of a vertical line (R114). -/
theorem lineMax_of_vertical (x y1 y2 : Int) : lineMax x y1 x y2 = (y2 - y1).natAbs := by simp [lineMax]

/-- The number of advances of an exact diagonal (R114). -/
theorem lineMax_of_diagonal {x1 y1 x2 y2 : Int} (hd : (x2 - x1).natAbs = (y2 - y1).natAbs) :
    lineMax x1 y1 x2 y2 = (x2 - x1).natAbs := by simp [lineMax, hd]

/-- A horizontal line moves in x at every advance (R114). -/
theorem linePoint_of_horizontal (x1 x2 y : Int) {k : Nat} (hk : k ≤ (x2 - x1).natAbs) :
    linePoint x1 y x2 y k = (x1 + lineSign x1 x2 * k, y) := by
  obtain ⟨i, j, hpt, -, hj, hik, -⟩ := linePoint_eq (hk.trans_eq (lineMax_of_horizontal x1 x2 y).symm)
  obtain rfl : j = 0 := by omega
  rw [hpt, hik (by omega), Nat.cast_zero, mul_zero, add_zero]

/-- A vertical line moves in y at every advance (R114). -/
theorem linePoint_of_vertical (x y1 y2 : Int) {k : Nat} (hk : k ≤ (y2 - y1).natAbs) :
    linePoint x y1 x y2 k = (x, y1 + lineSign y1 y2 * k) := by
  obtain ⟨i, j, hpt, hi, -, -, hjk, -⟩ := linePoint_eq (hk.trans_eq (lineMax_of_vertical x y1 y2).symm)
  obtain rfl : i = 0 := by omega
  rw [hpt, hjk (by omega), Nat.cast_zero, mul_zero, add_zero]

/-- An exact diagonal moves in both directions at every advance (R114). -/
theorem linePoint_of_diagonal {x1 y1 x2 y2 : Int} (hd : (x2 - x1).natAbs = (y2 - y1).natAbs) {k : Nat}
    (hk : k ≤ (x2 - x1).natAbs) :
    linePoint x1 y1 x2 y2 k = (x1 + lineSign x1 x2 * k, y1 + lineSign y1 y2 * k) := by
  obtain ⟨i, j, hpt, -, -, hik, hjk, -⟩ := linePoint_eq (hk.trans_eq (lineMax_of_diagonal hd).symm)
  rw [hpt, hik hd.ge, hjk hd.le]

/-- A line of `n` advances whose points are known. -/
theorem lineOf_eq_map_of_linePoint {x1 y1 x2 y2 : Int} {n : Nat} {f : Nat → Int × Int} (hn : lineMax x1 y1 x2 y2 = n)
    (h : ∀ k ≤ n, linePoint x1 y1 x2 y2 k = f k) : lineOf x1 y1 x2 y2 = (List.range (n + 1)).map f := by
  rw [lineOf_eq_map, hn]
  exact List.map_congr_left fun k hk => h k (Nat.lt_succ_iff.1 (List.mem_range.1 hk))

/-- Settles O26, class by class. -/
theorem straightLinesAdvanceEvenly : Obligations.StraightLinesAdvanceEvenly := by
  refine fun x1 y1 x2 y2 => ⟨?_, ?_, fun hd => ?_⟩
  · rintro rfl
    exact lineOf_eq_map_of_linePoint (lineMax_of_horizontal ..) fun k => linePoint_of_horizontal x1 x2 y1
  · rintro rfl
    exact lineOf_eq_map_of_linePoint (lineMax_of_vertical ..) fun k => linePoint_of_vertical x1 y1 y2
  · exact lineOf_eq_map_of_linePoint (lineMax_of_diagonal hd) fun k => linePoint_of_diagonal hd

/-- A line that is horizontal, vertical or an exact diagonal (R115). -/
def LineStraight (x1 y1 x2 y2 : Int) : Prop := x1 = x2 ∨ y1 = y2 ∨ (x2 - x1).natAbs = (y2 - y1).natAbs

/-- A coordinate that moves at every advance comes back the same way. -/
theorem lineSign_reverse {a b : Int} {k : Nat} (hk : k ≤ (b - a).natAbs) :
    b + lineSign b a * ((b - a).natAbs - k : Nat) = a + lineSign a b * k := by
  unfold lineSign
  split <;> split <;> omega

/-- The reverse of a straight line passes the same points in the opposite order (R115). -/
theorem linePoint_reverse_of_straight {x1 y1 x2 y2 : Int} (h : LineStraight x1 y1 x2 y2) {k : Nat}
    (hk : k ≤ lineMax x1 y1 x2 y2) :
    linePoint x2 y2 x1 y1 (lineMax x1 y1 x2 y2 - k) = linePoint x1 y1 x2 y2 k := by
  obtain rfl | rfl | hd := h
  · rw [lineMax_of_vertical] at hk ⊢
    rw [linePoint_of_vertical x1 y1 y2 hk, linePoint_of_vertical x1 y2 y1 (by omega), lineSign_reverse hk]
  · rw [lineMax_of_horizontal] at hk ⊢
    rw [linePoint_of_horizontal x1 x2 y1 hk, linePoint_of_horizontal x2 x1 y1 (by omega), lineSign_reverse hk]
  · rw [lineMax_of_diagonal hd] at hk ⊢
    rw [linePoint_of_diagonal hd hk, linePoint_of_diagonal (by omega) (by omega), lineSign_reverse hk, hd,
      lineSign_reverse (hd ▸ hk)]

/-- A line and its reverse have as many advances (R114). -/
theorem lineMax_reverse (x1 y1 x2 y2 : Int) : lineMax x2 y2 x1 y1 = lineMax x1 y1 x2 y2 := by
  unfold lineMax
  omega

/-- Every point of a straight line is one of its reverse (R115). -/
theorem mem_lineOf_reverse_of_straight {x1 y1 x2 y2 : Int} (h : LineStraight x1 y1 x2 y2) {p : Int × Int}
    (hp : p ∈ lineOf x1 y1 x2 y2) : p ∈ lineOf x2 y2 x1 y1 := by
  obtain ⟨k, hk, rfl⟩ := mem_lineOf_iff.1 hp
  exact mem_lineOf_iff.2 ⟨lineMax x1 y1 x2 y2 - k, by rw [lineMax_reverse]; omega, linePoint_reverse_of_straight h hk⟩

/-- Settles O27: a straight line and its reverse pass the same points in opposite order; of the others, three lines that the
recurrence draws. -/
theorem straightLinesAreSymmetricOthersNeedNotBe : Obligations.StraightLinesAreSymmetricOthersNeedNotBe := by
  refine ⟨fun x1 y1 x2 y2 h p => ⟨mem_lineOf_reverse_of_straight h, mem_lineOf_reverse_of_straight ?_⟩, by decide, by decide,
    fun p => ?_⟩
  · unfold LineStraight
    omega
  · have hrev : lineOf 3 1 0 0 = (lineOf 0 0 3 1).reverse := by decide
    rw [hrev, List.mem_reverse]

/-! ### draw_line -/

/-- The registers of a line follow the recurrence of R113. -/
theorem lineReg_recurrence (x1 y1 x2 y2 : Int) (k : Nat) :
    (lineReg x1 y1 x2 y2 (k + 1)).x = (if 2 * (lineReg x1 y1 x2 y2 k).err > -((y2 - y1).natAbs : Int)
      then (lineReg x1 y1 x2 y2 k).x + lineSign x1 x2 else (lineReg x1 y1 x2 y2 k).x) ∧
    (lineReg x1 y1 x2 y2 (k + 1)).y = (if 2 * (lineReg x1 y1 x2 y2 k).err < ((x2 - x1).natAbs : Int)
      then (lineReg x1 y1 x2 y2 k).y + lineSign y1 y2 else (lineReg x1 y1 x2 y2 k).y) ∧
    (lineReg x1 y1 x2 y2 (k + 1)).err = (lineReg x1 y1 x2 y2 k).err
      - (if 2 * (lineReg x1 y1 x2 y2 k).err > -((y2 - y1).natAbs : Int) then ((y2 - y1).natAbs : Int) else 0)
      + (if 2 * (lineReg x1 y1 x2 y2 k).err < ((x2 - x1).natAbs : Int) then ((x2 - x1).natAbs : Int) else 0) := by
  obtain ⟨hdxa, hdya, hsx, hsy⟩ := lineReg_keeps x1 y1 x2 y2 k
  rw [lineReg_succ, ← hdxa, ← hdya, ← hsx, ← hsy]
  exact lineAdvance_moves _

/-- `set_pixel` on a list of points, one after another. -/
def setPixels (col : Color) (ps : List (Int × Int)) (s : State) : State :=
  ps.foldl (fun u p => setPixelAt p.1 p.2 col u) s

@[simp] theorem setPixels_nil (col : Color) (s : State) : setPixels col [] s = s := rfl

@[simp] theorem setPixels_cons (col : Color) (p : Int × Int) (ps : List (Int × Int)) (s : State) :
    setPixels col (p :: ps) s = setPixels col ps (setPixelAt p.1 p.2 col s) := rfl

/-- Setting pixels keeps the configuration. -/
@[simp] theorem setPixels_cfg (col : Color) (ps : List (Int × Int)) (s : State) : (setPixels col ps s).cfg = s.cfg := by
  induction ps generalizing s with
  | nil => rfl
  | cons p ps ih => rw [setPixels_cons, ih, setPixelAt_cfg]

/-- A byte that holds none of the points reads as before (R57). -/
theorem memRead_setPixels_other (col : Color) {ps : List (Int × Int)} {s : State} (hwf : memWf s.fb = true) {a : Nat}
    (ha : ∀ p ∈ ps, inRange s.cfg p.1 p.2 = true → a ≠ pixelIdx s.cfg p.1 p.2) :
    memRead (setPixels col ps s).fb a = memRead s.fb a := by
  induction ps generalizing s with
  | nil => rfl
  | cons p ps ih =>
    obtain ⟨hp, hps⟩ := List.forall_mem_cons.1 ha
    rw [setPixels_cons, ih (setPixelAt_wf _ _ _ _ hwf) (by rwa [setPixelAt_cfg]), memRead_setPixelAt_other hwf col hp]

/-- The pixels after setting a list of points: those of the list have the colour, the others the colour they had (R111). -/
theorem pixel_setPixels (col : Color) (ps : List (Int × Int)) {s : State} (hc : cfgLegal s.cfg = true)
    (hwf : memWf s.fb = true) {x y : Int} (hr : inRange s.cfg x y = true) :
    pixel (setPixels col ps s) x y = if (x, y) ∈ ps then colorBit col else pixel s x y := by
  induction ps generalizing s with
  | nil => simp
  | cons p ps ih =>
    have hcfg := setPixelAt_cfg p.1 p.2 col s
    rw [setPixels_cons, ih (hcfg ▸ hc) (setPixelAt_wf _ _ _ _ hwf) (hcfg ▸ hr), pixel_setPixelAt hc hwf hr]
    by_cases hmem : (x, y) ∈ ps
    · simp [hmem]
    · simp [hmem, eq_comm (a := (x, y))]

/-- An accepted `draw_line` completes (R113). -/
theorem exec_drawLine {s : State} (h : Accepts s) : exec .drawLine s =
    .next (drawLineAt (operand s 0) (operand s 1) (operand s 2) (operand s 3) (colorOperand s) s) := by
  rw [exec, execDrawLine, hostGate_of_accepts _ h]

/-- `draw_line` leaves in the framebuffer what `set_pixel` on the points of the line leaves (R113). -/
theorem drawLineAt_fb (x1 y1 x2 y2 : Int) (col : Color) (s : State) :
    (drawLineAt x1 y1 x2 y2 col s).fb = (setPixels col (lineOf x1 y1 x2 y2) s).fb := drawLine_fb ..

/-- `draw_line` writes no register but its own (R22, R113). -/
theorem drawLineAt_keeps (x1 y1 x2 y2 : Int) (col : Color) (s : State) :
    KeepsBusSide s (drawLineAt x1 y1 x2 y2 col s) ∧ (drawLineAt x1 y1 x2 y2 col s).res = s.res := by
  obtain ⟨m, l, k, hm⟩ := drawLineAt_rest x1 y1 x2 y2 col s
  simp [hm, KeepsBusSide]

/-- Settles O24: the registers after `k` advances follow the recurrence and reach the end point at the last, and the points of
the line are theirs. -/
theorem drawLineFollowsTheRecurrence : Obligations.DrawLineFollowsTheRecurrence := by
  intro s hacc
  generalize hx1 : operand s 0 = x1
  generalize hy1 : operand s 1 = y1
  generalize hx2 : operand s 2 = x2
  generalize hy2 : operand s 3 = y2
  obtain ⟨hbus, hres⟩ := drawLineAt_keeps x1 y1 x2 y2 (colorOperand s) s
  have hrec := lineReg_recurrence x1 y1 x2 y2
  simp only [forall_and] at hrec
  obtain ⟨hX, hY, hE⟩ := hrec
  refine ⟨drawLineAt x1 y1 x2 y2 (colorOperand s) s, fun k => (lineReg x1 y1 x2 y2 k).x, fun k => (lineReg x1 y1 x2 y2 k).y,
    fun k => (lineReg x1 y1 x2 y2 k).err, ?_, hbus, hres, rfl, rfl, rfl, hX, hY, hE,
    fun k hk => ⟨?_, fun hpos => lineReg_err_lt hpos k⟩, ?_⟩
  · rw [exec_drawLine hacc, hx1, hy1, hx2, hy2]
  · rw [← linePoint_eq_end_iff hk, linePoint, Prod.mk.injEq]
  · rw [drawLineAt_fb, lineOf_eq_map, setPixels, List.foldl_map]
    rfl

/-- The pixels after `draw_line` are those after setting the points of the line (R113). -/
theorem pixel_drawLineAt (x1 y1 x2 y2 : Int) (col : Color) (s : State) (x y : Int) :
    pixel (drawLineAt x1 y1 x2 y2 col s) x y = pixel (setPixels col (lineOf x1 y1 x2 y2) s) x y := by
  obtain ⟨⟨hcfg, -⟩, -⟩ := drawLineAt_keeps x1 y1 x2 y2 col s
  rw [pixel, pixel, drawLineAt_fb, hcfg, setPixels_cfg]

/-- Settles O28: the pixels after `draw_line` are those after setting the points of the line. -/
theorem drawLinePaintsExactlyItsPoints : Obligations.DrawLinePaintsExactlyItsPoints := by
  intro s hacc hwf
  refine ⟨_, exec_drawLine hacc, fun x y hr => ?_⟩
  obtain ⟨-, hc⟩ := hacc
  rw [pixel_drawLineAt, pixel_setPixels _ _ hc hwf hr]
  exact ⟨fun hmem => if_pos hmem, fun hmem => if_neg hmem⟩

/-! ### fill -/

/-- The coordinate space, rows outer (R116). -/
def allPixels (c : Cfg) : List (Int × Int) :=
  (List.range c.height).flatMap fun y : Nat => (List.range c.width).map fun x : Nat => ((x : Int), (y : Int))

/-- Every in-range pixel is in the coordinate space (R56, R116). -/
theorem mem_allPixels {c : Cfg} {x y : Int} (hr : inRange c x y = true) : (x, y) ∈ allPixels c := by
  obtain ⟨hx0, hx, hy0, hy⟩ := (inRange_iff c x y).1 hr
  lift x to Nat using hx0
  lift y to Nat using hy0
  simp only [allPixels, List.mem_flatMap, List.mem_map, List.mem_range]
  exact ⟨y, Int.ofNat_lt.1 hy, x, Int.ofNat_lt.1 hx, rfl⟩

/-- `fill` as R116 writes it sets every pixel of the coordinate space. -/
theorem fillPixels_eq_setPixels (col : Color) (s : State) : fillPixels col s = setPixels col (allPixels s.cfg) s := by
  rw [setPixels, allPixels, List.foldl_flatMap]
  simp only [List.foldl_map]
  rfl

/-- Each bit of the byte of eight pixels of one colour is that colour's (R116). -/
theorem colorByte_getLsbD (col : Color) {b : Nat} (hb : b < 8) : (colorByte col).getLsbD b = colorBit col := by
  cases col <;> interval_cases b <;> rfl

/-- What every byte is after setting all pixels: in FB[0..N-1] each of its bits is some pixel's, and no pixel is elsewhere
(R53, R116). -/
theorem memRead_fillPixels (col : Color) {s : State} (hc : cfgLegal s.cfg = true) (hwf : memWf s.fb = true) (a : Nat) :
    memRead (fillPixels col s).fb a = if a < s.cfg.n then colorByte col else memRead s.fb a := by
  rw [fillPixels_eq_setPixels]
  split
  case isTrue ha =>
    refine BitVec.eq_of_getLsbD_eq fun b hb => ?_
    have hr := inRange_pixelX_pixelY hc ha b
    have hpx := pixel_setPixels col (allPixels s.cfg) hc hwf hr
    rw [pixel, setPixels_cfg, pixelIdx_pixelX_pixelY, pixelBit_pixelX _ _ hb, if_pos (mem_allPixels hr)] at hpx
    rw [hpx, colorByte_getLsbD col hb]
  case isFalse ha => exact memRead_setPixels_other col hwf fun p _ hr hidx => ha (hidx ▸ pixelIdx_lt hc hr)

/-- What every byte is after a `fill` (R116). -/
theorem memRead_fillBytes (col : Color) (s : State) (a : Nat) :
    memRead (fillBytes col s).fb a = if a < s.cfg.n then colorByte col else memRead s.fb a := memRead_memFill ..

/-- An accepted `fill` completes (R116). -/
theorem exec_fill {s : State} (h : Accepts s) : exec .fill s = .next (fillBytes (colorOperand s) s) := by
  rw [exec, execFill, hostGate_of_accepts _ h]

/-- The byte of eight pixels of the colour operand (R116). -/
theorem colorByte_colorOperand (s : State) : colorByte (colorOperand s) = if s.req.c = 1#1 then 0xFF#8 else 0x00#8 := by
  unfold colorOperand colorOfBit
  split <;> rfl

/-- Settles O29: the byte fill and setting all pixels leave the same in every byte. -/
theorem fillSetsEveryByte : Obligations.FillSetsEveryByte := by
  intro s hacc hwf
  refine ⟨_, exec_fill hacc, rfl, fun a => ?_, fun a => ?_⟩
  · obtain ⟨-, hc⟩ := hacc
    rw [memRead_fillBytes, memRead_fillPixels _ hc hwf]
  · rw [memRead_fillBytes, colorByte_colorOperand]

/-! ### map_value -/

/-- An operand is a signed 16-bit number (R12, R21). -/
theorem operand_bounds (s : State) (i : Fin 5) : -32768 ≤ operand s i ∧ operand s i < 32768 := by
  fin_cases i <;> exact ⟨BitVec.le_toInt _, BitVec.toInt_lt⟩

/-- The difference of two operands. -/
theorem operand_sub_natAbs_le (s : State) (i j : Fin 5) : (operand s i - operand s j).natAbs ≤ 65535 := by
  have := operand_bounds s i
  have := operand_bounds s j
  omega

/-- The formula's value fits a signed 36-bit number: the quotient is no longer than the product (R119). -/
theorem mapFormula_bounds (s : State) :
    -2 ^ 35 ≤ mapFormula (operand s 0) (operand s 1) (operand s 2) (operand s 3) (operand s 4) ∧
      mapFormula (operand s 0) (operand s 1) (operand s 2) (operand s 3) (operand s 4) < 2 ^ 35 := by
  have hquot := calc
    (((operand s 0 - operand s 1) * (operand s 4 - operand s 3)).tdiv (operand s 2 - operand s 1)).natAbs
      ≤ ((operand s 0 - operand s 1) * (operand s 4 - operand s 3)).natAbs := Int.natAbs_tdiv_le_natAbs ..
    _ = (operand s 0 - operand s 1).natAbs * (operand s 4 - operand s 3).natAbs := Int.natAbs_mul ..
    _ ≤ 65535 * 65535 := Nat.mul_le_mul (operand_sub_natAbs_le s 0 1) (operand_sub_natAbs_le s 4 3)
  have := operand_bounds s 3
  unfold mapFormula
  omega

/-- An accepted `map_value` with `in_hi` different from `in_lo` completes (R118). -/
theorem exec_mapValue {s : State} (h : Accepts s) (hne : operand s 2 ≠ operand s 1) : exec .mapValue s =
    .next (s.setRes (BitVec.ofInt 36
      (mapFormula (operand s 0) (operand s 1) (operand s 2) (operand s 3) (operand s 4)))) := by
  rw [exec, execMapValue, hostGate_of_accepts _ h, if_neg hne]

/-- Settles O30: the value fits RES, so that none of its bits are lost. -/
theorem mapValueIsExact : Obligations.MapValueIsExact := by
  intro s hacc hne
  refine ⟨_, exec_mapValue hacc hne, rfl, ?_⟩
  obtain ⟨hlo, hhi⟩ := mapFormula_bounds s
  rw [State.setRes_res, BitVec.toInt_ofInt_eq_self (by decide) hlo hhi, mapFormula]

/-! ### What the four operations leave unchanged -/

/-- What a `set_pixel` that answers a next state did (R110). -/
theorem setPixel_next {s t : State} (h : exec .setPixel s = .next t) :
    t = setPixelAt (operand s 0) (operand s 1) (colorOperand s) s := by
  obtain ⟨-, hcases⟩ := hostOp_next rfl (fun _ => Instr.noConfusion) h
  simpa using hcases

/-- What a `draw_line` that answers a next state did (R113). -/
theorem drawLine_next {s t : State} (h : exec .drawLine s = .next t) :
    t = drawLineAt (operand s 0) (operand s 1) (operand s 2) (operand s 3) (colorOperand s) s := by
  obtain ⟨-, hcases⟩ := hostOp_next rfl (fun _ => Instr.noConfusion) h
  simpa using hcases

/-- What a `fill` that answers a next state did (R116). -/
theorem fill_next {s t : State} (h : exec .fill s = .next t) : t = fillBytes (colorOperand s) s := by
  obtain ⟨-, hcases⟩ := hostOp_next rfl (fun _ => Instr.noConfusion) h
  simpa using hcases

/-- A `map_value` that answers a next state wrote RES (R118). -/
theorem mapValue_next {s t : State} (h : exec .mapValue s = .next t) : ∃ v, t = s.setRes v := by
  obtain ⟨-, hcases⟩ := hostOp_next rfl (fun _ => Instr.noConfusion) h
  simpa using hcases

/-- What a write of the framebuffer leaves unchanged. -/
theorem setFb_keeps (s : State) (m : Memory) : KeepsBusSide s (s.setFb m) ∧ (s.setFb m).res = s.res ∧
    (s.setFb m).line = s.line ∧ (s.setFb m).env.free = s.env.free := by
  simp [KeepsBusSide]

/-- Settles O32: `set_pixel` and `fill` write the framebuffer only, `draw_line` also its own registers, `map_value` RES only; and
a byte that holds none of the pixels set reads as before. -/
theorem drawingFrame : Obligations.DrawingFrame := by
  refine fun s t hwf => ⟨fun h => ?_, fun h => ?_, fun h => ?_, fun h => ?_⟩
  · obtain rfl := setPixel_next h
    obtain ⟨m, hm⟩ := setPixelAt_rest (operand s 0) (operand s 1) (colorOperand s) s
    obtain ⟨hbus, hres, hline, hfree⟩ := hm ▸ setFb_keeps s m
    exact ⟨hbus, hres, hline, hfree, fun a => memRead_setPixelAt_other hwf _⟩
  · obtain rfl := drawLine_next h
    obtain ⟨hbus, hres⟩ := drawLineAt_keeps (operand s 0) (operand s 1) (operand s 2) (operand s 3) (colorOperand s) s
    exact ⟨hbus, hres, fun a ha => by rw [drawLineAt_fb, memRead_setPixels_other _ hwf ha]⟩
  · obtain rfl := fill_next h
    obtain ⟨hbus, hres, hline, hfree⟩ := setFb_keeps s (memFill s.fb s.cfg.n (colorByte (colorOperand s)))
    exact ⟨hbus, hres, hline, hfree, fun a ha => by rw [memRead_fillBytes, if_neg ha.not_gt]⟩
  · obtain ⟨v, rfl⟩ := mapValue_next h
    simp [KeepsBusSide]

end Sys2Proof.Machine
end

section
/-!
PROOFS. The statements of 41_transport.md: what `write_byte` emits and leaves (O36), and where the lines rest after a
software-mode byte (O39).
-/

namespace Sys2Proof.Machine

/-! ### What ends a byte -/

/-- In software modes no TX is called, so no answer is noted (R134, R135). -/
theorem byteDone_of_soft {c : Cfg} (h : c.mode.isSw = true) (s : State) : byteDone c s = dropShift s := by
  rw [byteDone, if_pos h]

/-- In hardware modes the answer of the TX is noted (R137). -/
theorem byteDone_of_hard {c : Cfg} (h : c.mode.isSw = false) (s : State) : byteDone c s = dropShift (noteTx s) := by
  rw [byteDone, h]
  rfl

/-- What ends a byte writes no pin, uses up no busy answer, and leaves the plan of the failing call (R130, R137). -/
theorem byteDone_keeps (c : Cfg) (s : State) : (byteDone c s).pinl = s.pinl ∧
    (byteDone c s).env.busyIn = s.env.busyIn ∧ (byteDone c s).env.capFail = s.env.capFail := by
  cases h : c.mode.isSw with
  | true => simp [byteDone_of_soft h]
  | false =>
    obtain ⟨-, -, hpinl, -, -, -, hbusy, hcap⟩ := dropTx_keeps s
    simp [byteDone_of_hard h, noteTx_eq, hpinl, hbusy, hcap]

/-- What ends a byte sets TXERR exactly for a failed TX in a hardware mode (R137). -/
theorem byteDone_txerr (s : State) : (byteDone s.cfg s).txerr = txerrAfterFrame s := by
  cases h : s.cfg.mode.isSw with
  | true => simp [byteDone_of_soft h, txerrAfterFrame, h]
  | false => simp [byteDone_of_hard h, noteTx_eq, txerrAfterFrame, h]

/-! ### write_byte -/

/-- Loading a frame and recording events leave TXERR, the mode and the answer of the next TX (R23, R26). -/
theorem txerrAfterFrame_record_loadFrame (es : List Event) (v : Byte) (b : Bool) (s : State) :
    txerrAfterFrame (record es (loadFrame v b s)) = txerrAfterFrame s := by
  simp [txerrAfterFrame, txAnswer]

/-- Settles O36: the events are recorded on the loaded frame, and then the byte ends as its mode says. -/
theorem writeByteEmitsItsFrame : Obligations.WriteByteEmitsItsFrame := by
  intro s v b hcaps
  have hrun := writeByte_of_returns v b hcaps
  obtain ⟨⟨hhost, -⟩, hseq, hinflight⟩ := moves_writeByte hrun
  obtain ⟨hpinl, hbusy, hcap⟩ := byteDone_keeps s.cfg (record (byteTrace s.cfg v b) (loadFrame v b s))
  have htxerr := byteDone_txerr (record (byteTrace s.cfg v b) (loadFrame v b s))
  rw [txerrAfterFrame_record_loadFrame, record_cfg, loadFrame_cfg] at htxerr
  refine ⟨_, hrun, ⟨?_, ?_, htxerr, hhost, ?_, ?_, fun hsw => ?_⟩, hinflight, hseq⟩
  · simp [byteDone_trace]
  · simp [hpinl]
  · simpa [CapsReturn, hcap] using hcaps
  · simp [hbusy]
  · simp [byteDone_of_soft hsw]

/-! ### Where the lines rest -/

/-- The last bit on the wire is bit 0 of the byte (R81, R82). -/
theorem serialBits_ends_in_bit_zero (m : Mode) (v : Byte) (b : Bool) :
    ∃ bits, serialBits m v b = bits ++ [v.getLsbD 0] := by
  unfold serialBits
  split
  · exact ⟨(!b) :: (byteBits v).dropLast, rfl⟩
  · exact ⟨(byteBits v).dropLast, rfl⟩

/-- The last events of a byte in a software mode: the cell of bit 0, then chip-select inactive (R134, R135). -/
theorem byteTrace_ends_in_last_cell {c : Cfg} (v : Byte) (b : Bool) (h : c.mode.isSw = true) :
    ∃ es, byteTrace c v b = es ++ (cellTrace c (v.getLsbD 0) ++ [.gw .cs c.csActive.other]) := by
  obtain ⟨bits, hbits⟩ := serialBits_ends_in_bit_zero c.mode v b
  refine ⟨[.gw .cs c.csActive] ++ bits.flatMap (cellTrace c), ?_⟩
  rw [byteTrace_of_soft v b h, hbits]
  simp

/-- A bit cell and a write of chip-select set SCK, SDA and CS, whatever they were (R26, R131). -/
theorem foldl_latch_cell_cs (c : Cfg) (bit : Bool) (l : Level) (p : PinLatches) :
    (cellTrace c bit ++ [Event.gw .cs l]).foldl latch p = { p with sda := Level.ofBit bit, sck := .high, cs := l } := rfl

/-- Settles O39: the latches follow the events of the byte (O36), and the last of these decide. -/
theorem lineLevelsAfterASoftwareByte : Obligations.LineLevelsAfterASoftwareByte := by
  intro s v b hcaps hsw
  obtain ⟨t, hrun, ⟨-, hpinl, -⟩, -⟩ := writeByteEmitsItsFrame s v b hcaps
  obtain ⟨es, htrace⟩ := byteTrace_ends_in_last_cell v b hsw
  rw [htrace, List.foldl_append, foldl_latch_cell_cs] at hpinl
  exact ⟨t, hrun, by simp [hpinl]⟩

end Sys2Proof.Machine
end

section
/-!
PROOFS. The statements of 42_command_channel.md: `DC`, where a mode has it, then the byte (O37), and how many events a byte and a
call are in each mode (O38).
-/

namespace Sys2Proof.Machine

/-! ### DC, then the byte -/

/-- The write of `DC`, while every call returns: one event in 4-wire modes, none in 3-wire modes (R150, R151, R152). -/
theorem selectDc_of_returns {s : State} (l : Level) (h : CapsReturn s) :
    selectDc l s = .next (record (if s.cfg.mode.is3wire then [] else [.gw .dc l]) s) := by
  unfold selectDc
  split
  · rw [record_nil]
  · exact callAll_of_returns _ h

/-- A frame sent after some recorded events: both together are what was sent, since recording only adds to the trace and moves
the latches (R16, R26). -/
theorem frameSent_of_record {s t : State} {es fs : List Event} (h : FrameSent (record es s) t fs) :
    FrameSent s t (es ++ fs) := by
  obtain ⟨htrace, hpinl, hrest⟩ := h
  refine ⟨?_, ?_, hrest⟩
  · rw [htrace, record_trace, List.append_assoc]
  · rw [hpinl, record_pinl, List.foldl_append]

/-- A byte after a write of `DC` emits the events of both (R150, R151): the form `write_command` and `write_data` share. -/
theorem selectDc_writeByte_sends {s : State} (l : Level) (v : Byte) (b : Bool) (h : CapsReturn s) :
    ∃ t, andThen (selectDc l s) (writeByte v b) = .next t ∧
      FrameSent s t ((if s.cfg.mode.is3wire then [] else [.gw .dc l]) ++ byteTrace s.cfg v b) := by
  rw [selectDc_of_returns l h, andThen_next]
  obtain ⟨t, hrun, hsent, -⟩ := writeByteEmitsItsFrame (record _ s) v b h
  exact ⟨t, hrun, frameSent_of_record hsent⟩

/-- Settles O37: both calls are a write of `DC` and a byte; only the level and the kind of byte differ. -/
theorem commandChannelBracketsTheByte : Obligations.CommandChannelBracketsTheByte :=
  fun _ v h => ⟨selectDc_writeByte_sends .low v true h, selectDc_writeByte_sends .high v false h⟩

/-! ### How many events -/

/-- A byte is one TX in hardware modes; in software modes two chip-select writes around a cell of six events for each bit on the
wire, nine in 3-wire modes and eight in 4-wire modes (R131 to R135, R138). -/
theorem byteTrace_length (c : Cfg) (v : Byte) (b : Bool) :
    (byteTrace c v b).length = if c.mode.isSw then 6 * (if c.mode.is3wire then 9 else 8) + 2 else 1 := by
  cases hsw : c.mode.isSw with
  | true =>
    have hcells : ((serialBits c.mode v b).flatMap (cellTrace c)).length = 6 * (serialBits c.mode v b).length := by
      simp [List.length_flatMap, cellTrace, Nat.mul_comm]
    rw [byteTrace_of_soft v b hsw, if_pos rfl, ← serialBits_length c.mode v b, ← hcells]
    simp only [List.length_append, List.length_cons, List.length_nil]
    omega
  | false =>
    cases hm : c.mode with
    | hw4 | hw3 => simp [byteTrace, hm]
    | sw4 | sw3 => simp [hm, Mode.isSw] at hsw

/-- `DC` costs a call one event in 4-wire modes and none in 3-wire modes (R152, R154). -/
theorem dcWrite_length (m : Mode) (l : Level) :
    (if m.is3wire then [] else [Event.gw .dc l]).length = if m.is3wire then 0 else 1 := by
  split <;> rfl

/-- A frame that was sent makes the trace longer by its events (R16). -/
theorem trace_length_of_frameSent {s t : State} {es : List Event} (h : FrameSent s t es) :
    t.env.trace.length = s.env.trace.length + es.length := by
  obtain ⟨htrace, -⟩ := h
  rw [htrace, List.length_append]

/-- Settles O38: what is sent is known (O36, O37), so its events are counted, mode by mode. -/
theorem eventCountsByMode : Obligations.EventCountsByMode := by
  intro s v b hcaps
  obtain ⟨t, hbyte, hsent, -⟩ := writeByteEmitsItsFrame s v b hcaps
  obtain ⟨⟨tc, hcommand, hcommandSent⟩, td, hdata, hdataSent⟩ := commandChannelBracketsTheByte s v hcaps
  refine ⟨⟨t, hbyte, ?_⟩, ⟨tc, hcommand, ?_⟩, td, hdata, ?_⟩
  · rw [trace_length_of_frameSent hsent, byteTrace_length]
    cases s.cfg.mode <;> rfl
  · rw [trace_length_of_frameSent hcommandSent, List.length_append, dcWrite_length, byteTrace_length]
    cases s.cfg.mode <;> rfl
  · rw [trace_length_of_frameSent hdataSent, List.length_append, dcWrite_length, byteTrace_length]
    cases s.cfg.mode <;> rfl

end Sys2Proof.Machine
end

section
/-!
PROOFS. The statements of 43_busy_sync.md: what one poll does (O43), that a panel which is not ready holds the operation in its
wait (O56), and that the wait ends at the first ready poll (O44).
-/

namespace Sys2Proof.Machine

/-! ### What frames and polls are made of -/

/-- `write_command`, while every call returns: its frame is sent (O37), and the sequence position stays (R150). -/
theorem writeCommand_sends {s : State} (b : Byte) (h : CapsReturn s) :
    ∃ t, writeCommand b s = .next t ∧ FrameSent s t (commandTrace s.cfg b) ∧ t.seq = s.seq ∧ t.inflight = s.inflight := by
  obtain ⟨⟨t, hrun, hsent⟩, -⟩ := commandChannelBracketsTheByte s b h
  obtain ⟨-, hseq, hinflight⟩ := moves_writeCommand hrun
  exact ⟨t, hrun, hsent, hseq, hinflight⟩

/-- A busy read takes the first scripted answer, and uses it up. -/
theorem busyAnswer_of_scripted {s : State} {x : Level} {rest : List Level} (h : s.env.busyIn = x :: rest) :
    busyAnswer s = x ∧ (dropBusy s).env.busyIn = rest := by
  simp [busyAnswer, dropBusy, h]

/-- Completing a step of the microprogram changes nothing but INFLIGHT and the position (R24, R180). -/
theorem advance_keeps (s : State) : KeepsHostSide s (advance s) ∧ (advance s).env = s.env ∧ (advance s).pinl = s.pinl ∧
    (advance s).txerr = s.txerr := by
  obtain ⟨-, h⟩ | ⟨q, -, -, h⟩ | ⟨q, -, -, h⟩ := advance_cases s <;> rw [h] <;>
    exact ⟨⟨rfl, rfl, rfl, rfl, rfl, rfl⟩, rfl, rfl, rfl⟩

/-- Completing a step leaves INFLIGHT and the position as R24 and R180 write it. -/
theorem advance_position (s : State) : ((advance s).inflight, (advance s).seq) = afterStep s := by
  obtain ⟨hseq, h⟩ | ⟨q, hseq, hlt, h⟩ | ⟨q, hseq, hge, h⟩ := advance_cases s
  · simp [h, afterStep, hseq]
  · have hupc : q.upc < 30 := by simp only [terminalUpc] at hlt; omega
    simp [h, afterStep, hseq, hupc]
  · have hupc : ¬ q.upc < 30 := by simp only [terminalUpc] at hge; omega
    simp [h, afterStep, hseq, hupc]

/-- Where a completed step leads depends on INFLIGHT and the position only. -/
theorem afterStep_congr {s t : State} (hinflight : t.inflight = s.inflight) (hseq : t.seq = s.seq) :
    afterStep t = afterStep s := by
  simp only [afterStep, hinflight, hseq]

theorem KeepsHostSide.trans {s t u : State} (h : KeepsHostSide s t) (k : KeepsHostSide t u) : KeepsHostSide s u := by
  obtain ⟨hcfg, hfb, hreq, hres, hline, hrequests⟩ := h
  obtain ⟨kcfg, kfb, kreq, kres, kline, krequests⟩ := k
  exact ⟨kcfg.trans hcfg, kfb.trans hfb, kreq.trans hreq, kres.trans hres, kline.trans hline, krequests.trans hrequests⟩

/-! ### One poll -/

/-- A poll of `s` that read `l` has got to `t`: these events, INFLIGHT and the position as in `pos`, the answer used up, the rest
as a frame leaves it. -/
structure AfterRead (s t : State) (l : Level) (es : List Event) (pos : Bool × Option SeqPos) : Prop where
  host : KeepsHostSide s t
  caps : CapsReturn t
  txerr : t.txerr = txerrAfterFrame s
  trace : t.env.trace = s.env.trace ++ es
  latches : t.pinl = es.foldl latch s.pinl
  position : (t.inflight, t.seq) = pos
  answer : ∀ x rest, s.env.busyIn = x :: rest → l = x ∧ t.env.busyIn = rest

/-- A poll that asks for more events adds them to the trace. -/
theorem AfterRead.record {s t : State} {l : Level} {es : List Event} {pos : Bool × Option SeqPos}
    (h : AfterRead s t l es pos) (fs : List Event) : AfterRead s (record fs t) l (es ++ fs) pos :=
  ⟨h.host, h.caps, h.txerr, by rw [record_trace, h.trace, List.append_assoc],
    by rw [record_pinl, h.latches, List.foldl_append], h.position, h.answer⟩

/-- A poll that ends its row moves the position on. -/
theorem AfterRead.advance {s t : State} {l : Level} {es : List Event} (h : AfterRead s t l es (s.inflight, s.seq)) :
    AfterRead s (advance t) l es (afterStep s) := by
  obtain ⟨hhost, henv, hpinl, htxerr⟩ := advance_keeps t
  obtain ⟨hinflight, hseq⟩ := Prod.mk.inj h.position
  exact ⟨h.host.trans hhost, by rw [CapsReturn, henv]; exact h.caps, htxerr.trans h.txerr, by rw [henv]; exact h.trace,
    hpinl.trans h.latches, (advance_position t).trans (afterStep_congr hinflight hseq), by rw [henv]; exact h.answer⟩

/-- A poll up to its busy read, after a frame sent: the read is one event more, and takes the next answer (R160). -/
theorem FrameSent.afterRead {s u : State} {es : List Event} (h : FrameSent s u es) (hinflight : u.inflight = s.inflight)
    (hseq : u.seq = s.seq) :
    AfterRead s (dropBusy (record [.gr .busy (busyAnswer u)] u)) (busyAnswer u) (es ++ [.gr .busy (busyAnswer u)])
      (s.inflight, s.seq) := by
  obtain ⟨htrace, hpinl, htxerr, hhost, hcaps, hbusy, -⟩ := h
  obtain ⟨dhost, dtrace, dpinl, dtxerr, dseq, dinflight, dcaps, -⟩ := dropBusy_keeps (record [.gr .busy (busyAnswer u)] u)
  refine ⟨hhost.trans dhost, dcaps.trans hcaps, dtxerr.trans htxerr, ?_, ?_, ?_, fun x rest hx => ⟨?_, ?_⟩⟩
  · rw [dtrace, record_trace, htrace, List.append_assoc]
  · rw [dpinl, record_pinl, hpinl, List.foldl_append]
  · rw [dinflight, dseq, record_inflight, record_seq, hinflight, hseq]
  · exact (busyAnswer_of_scripted (hbusy.trans hx)).1
  · exact (busyAnswer_of_scripted (s := record _ u) (hbusy.trans hx)).2

/-- The events of one poll that reads `l` (R160, D18). -/
def pollTrace (c : Cfg) (l : Level) : List Event :=
  commandTrace c 0x71#8 ++ if l = c.readyLevel then [.gr .busy l] else [.gr .busy l, .dly .tPoll (c.duration .tPoll)]

theorem pollTrace_of_ready {c : Cfg} {l : Level} (h : l = c.readyLevel) :
    pollTrace c l = commandTrace c 0x71#8 ++ [.gr .busy l] := by
  rw [pollTrace, if_pos h]

theorem pollTrace_of_unready {c : Cfg} {l : Level} (h : l ≠ c.readyLevel) :
    pollTrace c l = commandTrace c 0x71#8 ++ [.gr .busy l, .dly .tPoll (c.duration .tPoll)] := by
  rw [pollTrace, if_neg h]

/-- While every call returns, STATUS is one poll: the command and the busy read, and then either the row is complete or the delay
is asked for (R160, R212). -/
theorem exec_status_polls {s : State} (h : CapsReturn s) : ∃ t l, exec .status s = .next t ∧
    AfterRead s t l (pollTrace s.cfg l) (if l = s.cfg.readyLevel then afterStep s else (s.inflight, s.seq)) := by
  obtain ⟨u, hcmd, hsent, hseq, hinflight⟩ := writeCommand_sends 0x71#8 h
  have hread := hsent.afterRead hinflight hseq
  obtain ⟨-, -, -, -, hcaps, -⟩ := hsent
  obtain ⟨hcfg, -⟩ := hread.host
  have hrun : exec .status s = pollBusy 0x71#8 s := rfl
  rw [hrun, pollBusy_eq, hcmd, andThen_next, callAll_of_returns _ hcaps, andThen_next, hcfg]
  by_cases hready : busyAnswer u = s.cfg.readyLevel
  · refine ⟨_, busyAnswer u, if_pos hready, ?_⟩
    rw [pollTrace_of_ready hready, if_pos hready]
    exact hread.advance
  · refine ⟨_, busyAnswer u, (if_neg hready).trans (callAll_of_returns _ hread.caps), ?_⟩
    rw [pollTrace_of_unready hready, if_neg hready, List.append_cons]
    exact hread.record _

/-- Settles O43: what one poll leaves, read off for each of its two ends. -/
theorem statusPollsOnce : Obligations.StatusPollsOnce := by
  intro s h
  obtain ⟨t, l, hrun, hpoll⟩ := exec_status_polls h
  refine ⟨t, l, hrun, hpoll.host, hpoll.caps, hpoll.txerr, hpoll.answer, ?_⟩
  have hposition := hpoll.position
  split
  case isTrue hready =>
    rw [if_pos hready] at hposition
    exact ⟨by rw [hpoll.trace, pollTrace_of_ready hready], hposition⟩
  case isFalse hready =>
    rw [if_neg hready] at hposition
    exact ⟨by rw [hpoll.trace, pollTrace_of_unready hready], Prod.mk.inj hposition⟩

/-! ### A wait, step by step -/

/-- A run in flight stands at a wait of the microprogram, and every call returns (R160, R172). -/
structure Waits (s : State) (q : SeqPos) : Prop where
  inflight : s.inflight = true
  seq : s.seq = some q
  row : micro s.cfg q.src q.upc = .wait
  caps : CapsReturn s

/-- The waits are the rows 7, 24 and 28 (R172). -/
theorem upc_of_wait {c : Cfg} {src : Src} {upc : Nat} (h : micro c src upc = .wait) : upc = 7 ∨ upc = 24 ∨ upc = 28 := by
  unfold micro at h
  split at h <;> simp at h ⊢

/-- At a wait the step is a poll (R160, R172). -/
theorem step_of_waits {s : State} {q : SeqPos} (h : Waits s q) : step s = exec .status s := by
  have hfetch : fetch s = .code (.frame (frameWord 0x71#8 true)) s := by
    simp only [fetch, fetchMicro, h.inflight, if_true, h.seq, h.row]
  exact stepRunsTheDecodedInstruction s s _ .status hfetch (decodeFrame_command 0x71#8)

/-- The level that is not READY_LEVEL is another one. -/
theorem notReady_ne (c : Cfg) : notReady c ≠ c.readyLevel := by
  rw [notReady]
  cases c.readyLevel <;> decide

/-- A poll of a wait gets to the position of its answer. -/
theorem step_of_waits_scripted {s : State} {q : SeqPos} {l : Level} {rest : List Level} (h : Waits s q)
    (hbusy : s.env.busyIn = l :: rest) : ∃ t, step s = .next t ∧
      Reached s t (pollTrace s.cfg l)
        (if l = s.cfg.readyLevel then { upc := q.upc + 1, cnt := 0, src := q.src } else q) ∧
      t.env.busyIn = rest := by
  obtain ⟨t, l', hrun, hpoll⟩ := exec_status_polls h.caps
  obtain ⟨rfl, hrest⟩ := hpoll.answer l rest hbusy
  have hupc : q.upc < 30 := by have := upc_of_wait h.row; omega
  have hafter : afterStep s = (true, some { upc := q.upc + 1, cnt := 0, src := q.src }) := by
    simp [afterStep, h.seq, h.inflight, hupc]
  have hposition := hpoll.position
  rw [hafter, h.inflight, h.seq, ← apply_ite (Prod.mk true), ← apply_ite some] at hposition
  obtain ⟨hinflight, hseq⟩ := Prod.mk.inj hposition
  exact ⟨t, (step_of_waits h).trans hrun, ⟨hpoll.trace, hpoll.latches, hinflight, hseq, hpoll.host, hpoll.caps⟩, hrest⟩

/-! ### Runs in flight -/

/-- A run that has got nowhere yet. -/
theorem Waits.reached_refl {s : State} {q : SeqPos} (h : Waits s q) : Reached s s [] q :=
  ⟨by simp, rfl, h.inflight, h.seq, ⟨rfl, rfl, rfl, rfl, rfl, rfl⟩, h.caps⟩

/-- A run on from where a run has got to. -/
theorem Reached.trans {s t u : State} {es fs : List Event} {p q : SeqPos} (h : Reached s t es p) (k : Reached t u fs q) :
    Reached s u (es ++ fs) q := by
  obtain ⟨htrace, hpinl, -, -, hhost, -⟩ := h
  obtain ⟨ktrace, kpinl, kinflight, kseq, khost, kcaps⟩ := k
  exact ⟨by rw [ktrace, htrace, List.append_assoc], by rw [kpinl, hpinl, List.foldl_append], kinflight, kseq,
    hhost.trans khost, kcaps⟩

/-- A run keeps the configuration. -/
theorem Reached.cfg_eq {s t : State} {es : List Event} {q : SeqPos} (h : Reached s t es q) : t.cfg = s.cfg := by
  obtain ⟨-, -, -, -, ⟨hcfg, -⟩, -⟩ := h
  exact hcfg

/-- A run that has got to the position of a wait stands at that wait. -/
theorem Waits.of_reached {s t : State} {es : List Event} {q : SeqPos} (h : Waits s q) (k : Reached s t es q) : Waits t q := by
  have hcfg := k.cfg_eq
  obtain ⟨-, -, hinflight, hseq, -, hcaps⟩ := k
  exact ⟨hinflight, hseq, by rw [hcfg]; exact h.row, hcaps⟩

/-- A run of `m + n` steps is a run of `m`, then one of `n`. -/
theorem runFor_add (m n : Nat) (s : State) : runFor (m + n) s = andThen (runFor m s) (runFor n) := by
  induction m generalizing s with
  | zero => rw [Nat.zero_add, runFor, andThen_next]
  | succ m ih =>
    rw [Nat.add_right_comm, runFor, runFor]
    cases step s with
    | next t => exact ih t
    | fault r => rfl
    | refused r => rfl

/-- A run of one step is a step. -/
theorem runFor_one (s : State) : runFor 1 s = step s := by
  rw [runFor]
  cases step s <;> rfl

/-! ### A panel that is not ready, and the poll that finds it ready -/

/-- The pattern of `n` polls that find the panel not ready (R162). -/
def unreadyTrace (c : Cfg) (n : Nat) : List Event := (List.replicate n (pollTrace c (notReady c))).flatten

theorem unreadyTrace_succ (c : Cfg) (n : Nat) : unreadyTrace c (n + 1) = pollTrace c (notReady c) ++ unreadyTrace c n := by
  simp [unreadyTrace, List.replicate_succ]

/-- `n` polls that find the panel not ready use up their answers and stay at the wait (R162). -/
theorem runFor_of_waits_unready {s : State} {q : SeqPos} {n : Nat} {rest : List Level} (h : Waits s q)
    (hbusy : s.env.busyIn = List.replicate n (notReady s.cfg) ++ rest) :
    ∃ t, runFor n s = .next t ∧ Reached s t (unreadyTrace s.cfg n) q ∧ t.env.busyIn = rest := by
  induction n generalizing s with
  | zero => exact ⟨s, rfl, h.reached_refl, hbusy⟩
  | succ n ih =>
    obtain ⟨t, hstep, hreach, hrest⟩ := step_of_waits_scripted h hbusy
    rw [if_neg (notReady_ne s.cfg)] at hreach
    have hcfg := hreach.cfg_eq
    rw [← hcfg] at hrest
    obtain ⟨u, hrun, kreach, krest⟩ := ih (h.of_reached hreach) hrest
    refine ⟨u, by rw [runFor, hstep, andThen_next, hrun], ?_, krest⟩
    rw [unreadyTrace_succ, ← hcfg]
    rw [← hcfg] at hreach
    exact hreach.trans kreach

/-- Settles O56: `n` polls that find the panel not ready, whatever `n` is. -/
theorem unreadyPanelHoldsTheOperation : Obligations.UnreadyPanelHoldsTheOperation := by
  intro s q n rest hinflight hseq hrow hcaps hbusy
  obtain ⟨t, hrun, hreach, -⟩ := runFor_of_waits_unready ⟨hinflight, hseq, hrow, hcaps⟩ hbusy
  rw [unreadyTrace, pollTrace_of_unready (notReady_ne s.cfg)] at hreach
  exact ⟨t, hrun, hreach⟩

/-- `W` is the polls that find the panel not ready, and the one that finds it ready (R160). -/
theorem waitTrace_eq (c : Cfg) (k : Nat) : waitTrace c k = unreadyTrace c k ++ pollTrace c c.readyLevel := by
  induction k with
  | zero => rw [waitTrace, pollTrace_of_ready rfl]; rfl
  | succ k ih => rw [waitTrace, ih, unreadyTrace_succ, pollTrace_of_unready (notReady_ne c), List.append_assoc (_ ++ _)]

/-- How many events a command call is in each mode (R154). -/
theorem commandTrace_length (c : Cfg) (b : Byte) :
    (commandTrace c b).length = match c.mode with | .hw4 => 2 | .hw3 => 1 | .sw4 => 51 | .sw3 => 56 := by
  rw [commandTrace, List.length_append, dcWrite_length, byteTrace_length]
  cases c.mode <;> rfl

/-- `W` has a command call and a read for each of its `k + 1` polls, and `k` delays (R163). -/
theorem waitTrace_length (c : Cfg) (k : Nat) :
    (waitTrace c k).length = (k + 1) * ((commandTrace c 0x71#8).length + 1) + k := by
  induction k with
  | zero => simp [waitTrace]
  | succ k ih =>
    rw [waitTrace, List.length_append, List.length_append, ih]
    simp only [List.length_cons, List.length_nil]
    ring

/-- Settles O44: the polls that find the panel not ready stay at the wait (O56), and the next one ends it. -/
theorem waitEndsAtTheFirstReadyPoll : Obligations.WaitEndsAtTheFirstReadyPoll := by
  intro s q k rest hinflight hseq hrow hcaps hbusy
  have hwaits : Waits s q := ⟨hinflight, hseq, hrow, hcaps⟩
  rw [waitAnswers, List.append_assoc] at hbusy
  obtain ⟨t, hrun, hreach, hrest⟩ := runFor_of_waits_unready hwaits hbusy
  rw [← hreach.cfg_eq] at hrest
  obtain ⟨u, hstep, kreach, krest⟩ := step_of_waits_scripted (hwaits.of_reached hreach) hrest
  rw [if_pos rfl, hreach.cfg_eq] at kreach
  have hlength := waitTrace_length s.cfg k
  rw [commandTrace_length] at hlength
  refine ⟨u, ?_, ?_, krest, hlength⟩
  · rw [runFor_add, hrun, andThen_next, runFor_one, hstep]
  · rw [waitTrace_eq]; exact hreach.trans kreach

end Sys2Proof.Machine
end

section
/-!
PROOFS. The statements of 44_protocol_fsm.md about single steps: a step in flight performs the row of the microprogram at UPC
(O10), a placed word is the next executed (O11), the host's side stays (O17), and an update or a clean is accepted (O46).
-/

namespace Sys2Proof.Machine

/-! ### A row of the microprogram, as one step performs it -/

/-- What a step in flight at position `q` does with the row of the microprogram there (R24, R172). -/
def rowStep (s : State) (q : SeqPos) : Micro → Answer
  | .drive l => ownEvent (.gw .rst l) s
  | .delay d => ownEvent (.dly d (s.cfg.duration d)) s
  | .command b => sendCommand b s
  | .payload p => if q.cnt < payloadLen p then sendData (payloadByte s.fb q.cnt p) s else .next (advance s)
  | .wait => pollBusy 0x71#8 s
  | .terminal => .next (complete s)

/-- Each row of the command table but STATUS holds an instruction that sends the row's code (R89, R199). -/
theorem exec_of_mem_commandTable {b : Byte} {i : Instr} (h : (b, i) ∈ commandTable) (hi : i ≠ .status) (s : State) :
    exec i s = sendCommand b s := by
  simp only [commandTable, List.mem_cons, Prod.mk.injEq, List.not_mem_nil, or_false] at h
  rcases h with h | h | h | h | h | h | h | h | h | h | h | h | ⟨-, rfl⟩
  on_goal 13 => exact absurd rfl hi
  all_goals obtain ⟨rfl, rfl⟩ := h; rfl

/-- A command row executes the instruction of its code, which sends the code (R89, R172). -/
theorem command_row {c : Cfg} {src : Src} {upc : Nat} {b : Byte} (h : micro c src upc = .command b) :
    ∃ i, i.isCommand = true ∧ decodeFrame (frameWord b true) = some i ∧ ∀ s, exec i s = sendCommand b s := by
  obtain ⟨i, hcmd, hstatus, hlookup⟩ := micro_command h
  exact ⟨i, hcmd, (decodeFrame_command b).trans hlookup,
    exec_of_mem_commandTable (mem_of_lookup_eq_some hlookup) hstatus⟩

/-- In flight, the fetch takes the row at UPC (R172). -/
theorem fetch_inflight {s : State} {q : SeqPos} (hi : s.inflight = true) (hq : s.seq = some q) :
    fetch s = fetchMicro q s := by
  simp only [fetch, hi, if_true, hq]

/-- In flight, a step performs the row at UPC (R24, R172). -/
theorem step_eq_rowStep {s : State} {q : SeqPos} (hi : s.inflight = true) (hq : s.seq = some q) :
    step s = rowStep s q (micro s.cfg q.src q.upc) := by
  have hfetch := fetch_inflight hi hq
  cases hm : micro s.cfg q.src q.upc with
  | drive l => simp only [fetchMicro, hm] at hfetch; simp only [step, hfetch, rowStep]
  | delay d => simp only [fetchMicro, hm] at hfetch; simp only [step, hfetch, rowStep, delayEvent]
  | terminal => simp only [fetchMicro, hm] at hfetch; simp only [step, hfetch, rowStep]
  | command b =>
    obtain ⟨i, -, hdec, hexec⟩ := command_row hm
    simp only [fetchMicro, hm] at hfetch
    rw [stepRunsTheDecodedInstruction s s _ i hfetch hdec, hexec, rowStep]
  | wait =>
    simp only [fetchMicro, hm] at hfetch
    rw [stepRunsTheDecodedInstruction s s _ .status hfetch (decodeFrame_command 0x71#8)]
    rfl
  | payload p =>
    simp only [fetchMicro, hm] at hfetch
    rw [rowStep]
    split
    case isTrue hlt =>
      rw [if_pos hlt] at hfetch
      rw [stepRunsTheDecodedInstruction s s _ _ hfetch (decodeFrame_data _)]
      rfl
    case isFalse hge =>
      rw [if_neg hge] at hfetch
      simp only [step, hfetch]

/-- A move of the sequencer's own, while every call returns: its event, and the row is complete (R173). -/
theorem ownEvent_of_returns {s : State} (e : Event) (h : CapsReturn s) :
    ownEvent e s = .next (advance (record [e] s)) := by
  rw [ownEvent, callAll_of_returns _ h, andThen_next]

/-- Settles O10: the step performs the row, and a frame's row is the frame's instruction. -/
theorem stepPerformsTheMicroprogram : Obligations.StepPerformsTheMicroprogram := by
  intro s q hi hq
  rw [step_eq_rowStep hi hq]
  refine ⟨fun b hm => ?_, fun p hm hlt => ?_, fun p hm hge => ?_, fun hm => ?_, fun l hm hcaps => ?_,
    fun d hm hcaps => ?_, fun hm => ?_⟩
  · obtain ⟨i, hcmd, hdec, hexec⟩ := command_row hm
    exact ⟨i, hcmd, hdec, by rw [hm, rowStep, hexec]⟩
  · rw [hm, rowStep, if_pos hlt]; rfl
  · rw [hm, rowStep, if_neg (by omega)]
  · rw [hm]; rfl
  · rw [hm, rowStep, ownEvent_of_returns _ hcaps]
  · rw [hm, rowStep, ownEvent_of_returns _ hcaps]
  · rw [hm]; rfl

/-- Settles O17: a step in flight is one of the moves of the sequencer, which keep the host's side. -/
theorem operationInFlightLeavesTheHostSide : Obligations.OperationInFlightLeavesTheHostSide := by
  intro s t hi h
  obtain ⟨hhost, -⟩ := step_inflight_moves hi h
  exact hhost

/-! ### Acceptance -/

/-- Settles O46: the gate lets both operations pass. -/
theorem screenOperationsAreAccepted : Obligations.ScreenOperationsAreAccepted := by
  intro s h
  rw [exec, execUpdateScreen, hostGate_of_accepts _ h, exec, execCleanScreen, hostGate_of_accepts _ h]
  exact ⟨rfl, rfl⟩

/-! ### Placing one code word -/

/-- A step from the microprogram index where a command stands executes that command (R172, log 17). -/
theorem step_placeAt_commandUpc {i : Instr} (hi : i.isCommand = true) (s : State) :
    step (placeAt (commandUpc i) s) = exec i (placeAt (commandUpc i) s) := by
  rw [step_eq_rowStep (q := { upc := commandUpc i, cnt := 0, src := .fb }) rfl rfl]
  cases i <;> simp only [Instr.isCommand, Bool.false_eq_true] at hi
  all_goals rfl

/-- What a memory reads at address 0 after a write there, in canonical form or not: the write stands first (R16). -/
theorem memRead_memWrite_zero (m : Memory) (v : Byte) : memRead (memWrite m 0 v) 0 = v := by
  cases m with
  | nil => rfl
  | cons cell m =>
    obtain ⟨k, b⟩ := cell
    rw [memWrite]
    split
    · rfl
    · rw [if_pos (by omega)]; rfl

/-- A step from the placement of a data byte executes the data frame of that byte (R172, log 17). -/
theorem step_placeAt_data {s : State} (hn : 0 < s.cfg.n) (d : Byte) :
    step (placeAt 21 (s.setFb (memWrite s.fb 0 d))) = exec (.data d) (placeAt 21 (s.setFb (memWrite s.fb 0 d))) := by
  have hrow : micro s.cfg .fb 21 = .payload (.image s.cfg.n) := rfl
  rw [step_eq_rowStep (q := { upc := 21, cnt := 0, src := .fb }) rfl rfl]
  have hbyte := memRead_memWrite_zero s.fb d
  simp only [placeAt, State.setSeq_cfg, State.setInflight_cfg, State.setFb_cfg, hrow, rowStep, payloadLen, if_pos hn,
    payloadByte, State.setSeq_fb, State.setInflight_fb, State.setFb_fb, hbyte]
  rfl

/-- A placed frame is the next executed (log 17). -/
theorem step_placeFrame {s : State} (hn : 0 < s.cfg.n) {fw : FrameWord} {i : Instr} (hdec : decodeFrame fw = some i) :
    step (placeFrame fw s) = exec i (placeFrame fw s) := by
  rw [placeFrame, hdec]
  cases hD : frameD fw with
  | true =>
    obtain rfl : Instr.data (frameValue fw) = i := by simpa [decodeFrame, hD] using hdec
    exact step_placeAt_data hn _
  | false =>
    have hmem : (frameValue fw, i) ∈ commandTable := mem_of_lookup_eq_some (by simpa [decodeFrame, hD] using hdec)
    have hcommands : ∀ row ∈ commandTable, row.2.isCommand = true := by decide
    exact step_placeAt_commandUpc (hcommands _ hmem) s

/-- Placing a frame keeps the configuration and the trace. -/
theorem placeFrame_keeps (fw : FrameWord) (s : State) :
    (placeFrame fw s).cfg = s.cfg ∧ (placeFrame fw s).env.trace = s.env.trace := by
  unfold placeFrame
  split
  · exact ⟨rfl, rfl⟩
  · split <;> exact ⟨rfl, rfl⟩

/-- Settles O11: a frame is placed at the row that sends it, and a host code as the first request. -/
theorem placedWordIsTheNextExecuted : Obligations.PlacedWordIsTheNextExecuted := by
  intro s nbits w i hn hdec
  obtain ⟨c, hcode, hdec⟩ := Option.bind_eq_some_iff.1 hdec
  have hplace : s.withFetchWord nbits w = placeCode c s := by simp only [State.withFetchWord, hcode]
  rw [hplace]
  cases c with
  | frame fw => exact ⟨_, step_placeFrame hn hdec, placeFrame_keeps fw s⟩
  | host op =>
    obtain ⟨j, hj, hstep⟩ := step_of_request (s := placeHost op s) rfl rfl
    obtain rfl : i = j := Option.some.inj (hdec.symm.trans hj)
    exact ⟨_, hstep, rfl, rfl⟩

end Sys2Proof.Machine
end

section
/-!
PROOFS. The statements of 44_protocol_fsm.md about runs in flight: the six states of the protocol (O47 to O52), the whole operation
(O53), and what R182 counts of it (O54).

One theorem runs any number of rows of the microprogram (`rows_run`). Each state of the protocol is a block of rows, and so is the
whole operation; what the rules write out for it is what its rows emit.
-/

namespace Sys2Proof.Machine

/-! ### What a row emits -/

/-- The data bytes of a payload, in the order in which they are sent (R24, R176). -/
def payloadBytes (m : Memory) (p : Payload) : List Byte := (List.range (payloadLen p)).map (payloadByte m · p)

/-- The events of a row, whose wait finds the panel not ready `k` times (R160, R172). -/
def rowTrace (c : Cfg) (m : Memory) (k : Nat) : Micro → List Event
  | .drive l => [.gw .rst l]
  | .delay d => [.dly d (c.duration d)]
  | .command b => commandTrace c b
  | .payload p => (payloadBytes m p).flatMap (dataTrace c)
  | .wait => waitTrace c k
  | .terminal => []

/-- The busy answers a row uses up: those of its wait (R160). -/
def rowAnswers (c : Cfg) (k : Nat) : Micro → List Level
  | .wait => waitAnswers c k
  | .drive _ | .delay _ | .command _ | .payload _ | .terminal => []

/-- The steps a row takes: one for each data byte or poll, and one for a payload without bytes (logs 11 and 29). -/
def rowSteps (k : Nat) : Micro → Nat
  | .payload p => max 1 (payloadLen p)
  | .wait => k + 1
  | .drive _ | .delay _ | .command _ | .terminal => 1

/-- The start of row `upc`; no position from 31 on (R24, R180). -/
def rowStart (src : Src) (upc : Nat) : Option SeqPos :=
  if upc < 31 then some { upc := upc, cnt := 0, src := src } else none

/-! ### Where a run has got to -/

/-- Every call returns, and the position is `pos`, with INFLIGHT 1 exactly when there is one (R24, R25). -/
structure Stands (s : State) (pos : Option SeqPos) : Prop where
  inflight : s.inflight = pos.isSome
  seq : s.seq = pos
  caps : CapsReturn s

/-- A run has got from `s` to `t`, in flight or at its end: these events, this position, these answers left, the host's side kept. -/
structure Arrived (s t : State) (es : List Event) (pos : Option SeqPos) (busy : List Level) : Prop where
  trace : t.env.trace = s.env.trace ++ es
  latches : t.pinl = es.foldl latch s.pinl
  host : KeepsHostSide s t
  stands : Stands t pos
  answers : t.env.busyIn = busy

section Arrived

variable {s t u : State} {es fs : List Event} {pos pos' : Option SeqPos} {q : SeqPos} {busy busy' : List Level}

/-- A run that has got nowhere yet. -/
theorem Stands.arrived_refl (h : Stands s pos) : Arrived s s [] pos s.env.busyIn :=
  ⟨by simp, rfl, ⟨rfl, rfl, rfl, rfl, rfl, rfl⟩, h, rfl⟩

/-- A run on from where a run has got to. -/
theorem Arrived.trans (h : Arrived s t es pos busy) (k : Arrived t u fs pos' busy') : Arrived s u (es ++ fs) pos' busy' :=
  ⟨by rw [k.trace, h.trace, List.append_assoc], by rw [k.latches, h.latches, List.foldl_append], h.host.trans k.host,
    k.stands, k.answers⟩

/-- A run in flight has reached its position. -/
theorem Arrived.reached (h : Arrived s t es (some q) busy) : Reached s t es q :=
  ⟨h.trace, h.latches, h.stands.inflight, h.stands.seq, h.host, h.stands.caps⟩

theorem Reached.arrived (h : Reached s t es q) (hbusy : t.env.busyIn = busy) : Arrived s t es (some q) busy := by
  obtain ⟨htrace, hpinl, hinflight, hseq, hhost, hcaps⟩ := h
  exact ⟨htrace, hpinl, hhost, ⟨hinflight, hseq, hcaps⟩, hbusy⟩

/-- A frame sent, before its row is complete. -/
theorem FrameSent.arrived (h : FrameSent s t es) (hs : Stands s pos) (hseq : t.seq = s.seq)
    (hinflight : t.inflight = s.inflight) : Arrived s t es pos s.env.busyIn := by
  obtain ⟨htrace, hpinl, -, hhost, hcaps, hbusy, -⟩ := h
  exact ⟨htrace, hpinl, hhost, ⟨hinflight.trans hs.inflight, hseq.trans hs.seq, hcaps⟩, hbusy⟩

/-- Events of the sequencer's own, before their row is complete. -/
theorem Stands.arrived_record (h : Stands s pos) (es : List Event) : Arrived s (record es s) es pos s.env.busyIn :=
  ⟨rfl, rfl, ⟨rfl, rfl, rfl, rfl, rfl, rfl⟩, ⟨h.inflight, h.seq, h.caps⟩, rfl⟩

/-- A complete row leads to the start of the next, or ends the operation (R24, R180). -/
theorem Arrived.advance (h : Arrived s t es (some q) busy) :
    Arrived s (Machine.advance t) es (rowStart q.src (q.upc + 1)) busy := by
  obtain ⟨hhost, henv, hpinl, -⟩ := advance_keeps t
  refine ⟨by rw [henv, h.trace], hpinl.trans h.latches, h.host.trans hhost, ?_, by rw [henv, h.answers]⟩
  have hcaps : CapsReturn (Machine.advance t) := by rw [CapsReturn, henv]; exact h.stands.caps
  obtain ⟨hnone, -⟩ | ⟨p, hp, hlt, hadv⟩ | ⟨p, hp, hge, hadv⟩ := advance_cases t
  · simp [h.stands.seq] at hnone
  · obtain rfl : q = p := Option.some.inj (h.stands.seq.symm.trans hp)
    rw [rowStart, if_pos (by exact hlt)]
    exact ⟨by rw [hadv]; exact h.stands.inflight, by rw [hadv]; rfl, hcaps⟩
  · obtain rfl : q = p := Option.some.inj (h.stands.seq.symm.trans hp)
    rw [rowStart, if_neg (by exact Nat.not_lt.2 hge)]
    exact ⟨by rw [hadv]; rfl, by rw [hadv]; rfl, hcaps⟩

/-- A byte before the last of its row raises CNT (R24). -/
theorem Arrived.advanceByte_of_lt {len : Nat} (h : Arrived s t es (some q) busy) (hlt : q.cnt + 1 < len) :
    Arrived s (advanceByte len t) es (some { q with cnt := q.cnt + 1 }) busy := by
  have hadv : advanceByte len t = t.setSeq (some { q with cnt := q.cnt + 1 }) := by
    simp only [advanceByte, h.stands.seq, if_pos hlt]
  rw [hadv]
  exact ⟨h.trace, h.latches, h.host, ⟨h.stands.inflight, rfl, h.stands.caps⟩, h.answers⟩

/-- The last byte of a row completes it (R24). -/
theorem Arrived.advanceByte_of_last {len : Nat} (h : Arrived s t es (some q) busy) (hlast : len = q.cnt + 1) :
    Arrived s (advanceByte len t) es (rowStart q.src (q.upc + 1)) busy := by
  have hadv : advanceByte len t = Machine.advance t := by
    simp only [advanceByte, h.stands.seq, if_neg (show ¬ q.cnt + 1 < len by omega)]
  rw [hadv]
  exact h.advance

end Arrived

/-! ### One row -/

section Row

variable {s : State} {q : SeqPos}

/-- `write_data`, while every call returns: its frame is sent (O37), and the sequence position stays (R151). -/
theorem writeData_sends (b : Byte) (h : CapsReturn s) :
    ∃ t, writeData b s = .next t ∧ FrameSent s t (dataTrace s.cfg b) ∧ t.seq = s.seq ∧ t.inflight = s.inflight := by
  obtain ⟨-, t, hrun, hsent⟩ := commandChannelBracketsTheByte s b h
  obtain ⟨-, hseq, hinflight⟩ := moves_writeData hrun
  exact ⟨t, hrun, hsent, hseq, hinflight⟩

/-- The number of data bytes of a payload row (R24). -/
theorem stepLen_of_payload {p : Payload} (hq : s.seq = some q) (hrow : micro s.cfg q.src q.upc = .payload p) :
    stepLen s = payloadLen p := by
  simp only [stepLen, hq, hrow]

/-- A payload row sends its `m + 1` bytes from CNT on, one in each step, and is complete (R24, R176). -/
theorem payload_run {p : Payload} {m : Nat} (hs : Stands s (some q)) (hrow : micro s.cfg q.src q.upc = .payload p)
    (hlen : q.cnt + (m + 1) = payloadLen p) : ∃ t, runFor (m + 1) s = .next t ∧
      Arrived s t (((List.range' q.cnt (m + 1)).map (payloadByte s.fb · p)).flatMap (dataTrace s.cfg))
        (rowStart q.src (q.upc + 1)) s.env.busyIn := by
  induction m generalizing s q with
  | zero =>
    obtain ⟨t, hrun, hsent, hseq, hinflight⟩ := writeData_sends (payloadByte s.fb q.cnt p) hs.caps
    refine ⟨advanceByte (stepLen s) t, ?_, ?_⟩
    · rw [Nat.zero_add, runFor_one, step_eq_rowStep hs.inflight hs.seq, hrow, rowStep, if_pos (by omega), sendData, hrun,
        andThen_next]
    · rw [stepLen_of_payload hs.seq hrow]
      simpa using (hsent.arrived hs hseq hinflight).advanceByte_of_last hlen.symm
  | succ m ih =>
    obtain ⟨t, hrun, hsent, hseq, hinflight⟩ := writeData_sends (payloadByte s.fb q.cnt p) hs.caps
    have hbyte := (hsent.arrived hs hseq hinflight).advanceByte_of_lt (len := payloadLen p) (by omega)
    obtain ⟨hcfg, hfb, -⟩ := hbyte.host
    obtain ⟨u, hrest, hrestArrived⟩ := ih hbyte.stands (by rw [hcfg]; exact hrow) (by simp only; omega)
    refine ⟨u, ?_, ?_⟩
    · rw [runFor, step_eq_rowStep hs.inflight hs.seq, hrow, rowStep, if_pos (by omega), sendData, hrun, andThen_next,
        andThen_next, stepLen_of_payload hs.seq hrow, hrest]
    · rw [hcfg, hfb, hbyte.answers] at hrestArrived
      rw [List.range'_succ, List.map_cons, List.flatMap_cons]
      exact hbyte.trans hrestArrived

/-- A row runs from its start to the start of the next one, or to the end of the operation (R24, R172, R180). -/
theorem row_run {src : Src} {upc k : Nat} {rest : List Level} (hupc : upc < 31) (hs : Stands s (rowStart src upc))
    (hbusy : s.env.busyIn = rowAnswers s.cfg k (micro s.cfg src upc) ++ rest) :
    ∃ t, runFor (rowSteps k (micro s.cfg src upc)) s = .next t ∧
      Arrived s t (rowTrace s.cfg s.fb k (micro s.cfg src upc)) (rowStart src (upc + 1)) rest := by
  rw [rowStart, if_pos hupc] at hs
  have hstep := step_eq_rowStep hs.inflight hs.seq
  simp only at hstep
  cases hrow : micro s.cfg src upc with
  | terminal => exact absurd hrow (micro_ne_terminal _ _ hupc)
  | drive x | delay x =>
    rw [hrow] at hstep hbusy
    obtain rfl : s.env.busyIn = rest := hbusy
    refine ⟨_, ?_, (hs.arrived_record _).advance⟩
    rw [rowSteps, runFor_one, hstep]
    exact ownEvent_of_returns _ hs.caps
  | command b =>
    rw [hrow] at hstep hbusy
    obtain rfl : s.env.busyIn = rest := hbusy
    obtain ⟨t, hrun, hsent, hseq, hinflight⟩ := writeCommand_sends b hs.caps
    refine ⟨advance t, ?_, (hsent.arrived hs hseq hinflight).advance⟩
    rw [rowSteps, runFor_one, hstep, rowStep, sendCommand, hrun, andThen_next]
  | wait =>
    rw [hrow] at hbusy
    obtain ⟨t, hrun, hreach, hrest, -⟩ :=
      waitEndsAtTheFirstReadyPoll s _ k rest hs.inflight hs.seq hrow hs.caps hbusy
    refine ⟨t, hrun, ?_⟩
    have hnext : upc + 1 < 31 := by have := upc_of_wait hrow; omega
    rw [rowStart, if_pos hnext]
    exact hreach.arrived hrest
  | payload p =>
    rw [hrow] at hstep hbusy
    obtain rfl : s.env.busyIn = rest := hbusy
    rw [rowSteps, rowTrace, payloadBytes, List.range_eq_range']
    cases hlen : payloadLen p with
    | zero =>
      refine ⟨advance s, ?_, hs.arrived_refl.advance⟩
      rw [Nat.max_eq_left (Nat.zero_le 1), runFor_one, hstep, rowStep, if_neg (by omega)]
    | succ m =>
      rw [Nat.max_eq_right (by omega)]
      exact payload_run hs hrow (by simp only; omega)

end Row

/-! ### Rows one after another -/

/-- The answers that `n` rows from `upc` on use up, the wait of row `r` finding the panel not ready `k r` times. -/
def blockAnswers (c : Cfg) (src : Src) (k : Nat → Nat) (upc n : Nat) : List Level :=
  (List.range' upc n).flatMap fun r => rowAnswers c (k r) (micro c src r)

/-- The events of these rows. -/
def blockTrace (c : Cfg) (m : Memory) (src : Src) (k : Nat → Nat) (upc n : Nat) : List Event :=
  (List.range' upc n).flatMap fun r => rowTrace c m (k r) (micro c src r)

/-- The steps these rows take. -/
def blockSteps (c : Cfg) (src : Src) (k : Nat → Nat) (upc n : Nat) : Nat :=
  ((List.range' upc n).map fun r => rowSteps (k r) (micro c src r)).sum

/-- `n` rows run from the start of the first to the start of the row after the last, or to the end (R24, R172, R180). -/
theorem rows_run {s : State} {src : Src} {k : Nat → Nat} {upc n : Nat} {rest : List Level} (hend : upc + n ≤ 31)
    (hs : Stands s (rowStart src upc)) (hbusy : s.env.busyIn = blockAnswers s.cfg src k upc n ++ rest) :
    ∃ t, runFor (blockSteps s.cfg src k upc n) s = .next t ∧
      Arrived s t (blockTrace s.cfg s.fb src k upc n) (rowStart src (upc + n)) rest := by
  induction n generalizing s upc with
  | zero =>
    obtain rfl : s.env.busyIn = rest := hbusy
    exact ⟨s, rfl, hs.arrived_refl⟩
  | succ n ih =>
    rw [blockAnswers, List.range'_succ, List.flatMap_cons, List.append_assoc] at hbusy
    obtain ⟨t, hrun, hrow⟩ := row_run (by omega) hs hbusy
    obtain ⟨hcfg, hfb, -⟩ := hrow.host
    obtain ⟨u, hrest, hblock⟩ := ih (by omega) hrow.stands (by rw [hcfg]; exact hrow.answers)
    rw [hcfg] at hrest
    rw [hcfg, hfb] at hblock
    refine ⟨u, ?_, ?_⟩
    · rw [blockSteps, List.range'_succ, List.map_cons, List.sum_cons, runFor_add, hrun, andThen_next]
      exact hrest
    · rw [blockTrace, List.range'_succ, List.flatMap_cons, show upc + (n + 1) = upc + 1 + n by omega]
      exact hrow.trans hblock

/-! ### The rows that make up each state of the protocol -/

theorem payloadBytes_bytes (m : Memory) (l : List Byte) : payloadBytes m (.bytes l) = l := by
  refine List.ext_getElem (by simp [payloadBytes, payloadLen]) fun i h1 h2 => ?_
  simp [payloadBytes, payloadByte, h2]

theorem payloadBytes_zeros (m : Memory) (n : Nat) : payloadBytes m (.zeros n) = List.replicate n 0x00#8 := by
  simp [payloadBytes, payloadLen, payloadByte]

/-- The image row sends the framebuffer in index order, or white (R170, R171, R176). -/
theorem payloadBytes_imagePayload (c : Cfg) (m : Memory) (src : Src) :
    payloadBytes m (imagePayload c src) = imageBytes c m src := by
  cases src with
  | fb => rfl
  | white => exact payloadBytes_zeros m c.n

section Blocks

variable (c : Cfg) (m : Memory) (src : Src) (k : Nat → Nat)

/-- Rows 0 to 3 are RESET (R173). -/
theorem blockTrace_reset : blockTrace c m src k 0 4 = resetTrace c := rfl

/-- Rows 4 to 7 are POWER_CONFIG (R174). -/
theorem blockTrace_power : blockTrace c m src k 4 4 = powerTrace c (k 7) := by
  have hrows : blockTrace c m src k 4 4 = [.command 0x01#8, .payload (.bytes c.pwrPayload), .command 0x04#8,
    .wait].flatMap (rowTrace c m (k 7)) := rfl
  simp [hrows, rowTrace, payloadBytes_bytes, powerTrace, packetTrace]

/-- Rows 8 to 17 are PANEL_CONFIG (R175). -/
theorem blockTrace_panel : blockTrace c m src k 8 10 = panelTrace c := by
  have hrows : blockTrace c m src k 8 10 = [.command 0x00#8, .payload (.bytes [c.psrByte]), .command 0x61#8,
    .payload (.bytes [c.resHH, c.resHL, c.resVH, c.resVL]), .command 0x15#8, .payload (.bytes c.p15Payload),
    .command 0x50#8, .payload (.bytes [c.cdiA, c.cdiB]), .command 0x60#8,
    .payload (.bytes c.tconPayload)].flatMap (rowTrace c m 0) := rfl
  simp [hrows, rowTrace, payloadBytes_bytes, panelTrace, packetTrace]

/-- Rows 18 to 21 are IMAGE_TRANSFER (R176). -/
theorem blockTrace_image : blockTrace c m src k 18 4 = imageTrace c m src := by
  have hrows : blockTrace c m src k 18 4 = [.command 0x10#8, .payload (.zeros c.n), .command 0x13#8,
    .payload (imagePayload c src)].flatMap (rowTrace c m 0) := rfl
  simp [hrows, rowTrace, payloadBytes_zeros, payloadBytes_imagePayload, imageTrace, packetTrace]

/-- Rows 22 to 24 are REFRESH (R177). -/
theorem blockTrace_refresh : blockTrace c m src k 22 3 = refreshTrace c (k 24) := by
  have hrows : blockTrace c m src k 22 3 = [.command 0x12#8, .delay .tRefresh,
    .wait].flatMap (rowTrace c m (k 24)) := rfl
  simp [hrows, rowTrace, refreshTrace]

/-- Rows 25 to 30 are SLEEP (R178). -/
theorem blockTrace_sleep : blockTrace c m src k 25 6 = sleepTrace c (k 28) := by
  have hrows : blockTrace c m src k 25 6 = [.command 0x50#8, .payload (.bytes [0xF7#8]), .command 0x02#8, .wait,
    .command 0x07#8, .payload (.bytes [0xA5#8])].flatMap (rowTrace c m (k 28)) := rfl
  simp [hrows, rowTrace, payloadBytes_bytes, sleepTrace, packetTrace]

/-- The 31 rows are the six states, one after another (R172, R183). -/
theorem blockTrace_screen : blockTrace c m src k 0 31 = screenTrace c m src (k 7) (k 24) (k 28) := by
  rw [screenTrace, ← blockTrace_reset c m src k, ← blockTrace_power c m src k, ← blockTrace_panel c m src k,
    ← blockTrace_image c m src k, ← blockTrace_refresh c m src k, ← blockTrace_sleep c m src k]
  simp only [blockTrace, ← List.flatMap_append]
  rfl

end Blocks

/-! ### The six states -/

theorem AtStep.stands {s : State} {upc : Nat} {src : Src} (h : AtStep s upc src) (hupc : upc < 31) :
    Stands s (rowStart src upc) := by
  obtain ⟨hinflight, hseq, hcaps⟩ := h
  rw [rowStart, if_pos hupc]
  exact ⟨hinflight, hseq, hcaps⟩

/-- Settles O47: rows 0 to 3, a step each; the write of RST HIGH is the last of that pin. -/
theorem resetStatePulsesThePanel : Obligations.ResetStatePulsesThePanel := by
  intro s src h
  obtain ⟨t, hrun, hblock⟩ := rows_run (k := fun _ => 0) (n := 4) (by decide) (h.stands (by decide)) rfl
  rw [blockTrace_reset] at hblock
  exact ⟨t, hrun, hblock.reached, by rw [hblock.latches]; rfl, hblock.answers⟩

/-- Settles O48: rows 4 to 7. -/
theorem powerConfigSendsItsPackets : Obligations.PowerConfigSendsItsPackets := by
  intro s src k rest h hbusy
  have hanswers : blockAnswers s.cfg src (fun _ => k) 4 4 = waitAnswers s.cfg k := List.append_nil _
  obtain ⟨t, hrun, hblock⟩ := rows_run (n := 4) (by decide) (h.stands (by decide)) (by rw [hanswers, hbusy])
  rw [blockTrace_power] at hblock
  exact ⟨_, t, hrun, hblock.reached, hblock.answers⟩

/-- Settles O49: rows 8 to 17. -/
theorem panelConfigSendsItsPackets : Obligations.PanelConfigSendsItsPackets := by
  intro s src h
  obtain ⟨t, hrun, hblock⟩ := rows_run (k := fun _ => 0) (n := 10) (by decide) (h.stands (by decide)) rfl
  rw [blockTrace_panel] at hblock
  exact ⟨_, t, hrun, hblock.reached, hblock.answers⟩

/-- Settles O50: rows 18 to 21. -/
theorem imageTransferSendsEveryByte : Obligations.ImageTransferSendsEveryByte := by
  intro s src h
  obtain ⟨t, hrun, hblock⟩ := rows_run (k := fun _ => 0) (n := 4) (by decide) (h.stands (by decide)) rfl
  rw [blockTrace_image] at hblock
  exact ⟨_, t, hrun, hblock.reached, hblock.answers⟩

/-- Settles O51: rows 22 to 24. -/
theorem refreshSettlesThenWaits : Obligations.RefreshSettlesThenWaits := by
  intro s src k rest h hbusy
  have hanswers : blockAnswers s.cfg src (fun _ => k) 22 3 = waitAnswers s.cfg k := List.append_nil _
  obtain ⟨t, hrun, hblock⟩ := rows_run (n := 3) (by decide) (h.stands (by decide)) (by rw [hanswers, hbusy])
  rw [blockTrace_refresh] at hblock
  exact ⟨_, t, hrun, hblock.reached, hblock.answers⟩

/-- Settles O52: rows 25 to 30, after which there is no position. -/
theorem sleepCompletesTheOperation : Obligations.SleepCompletesTheOperation := by
  intro s src k rest h hbusy
  have hanswers : blockAnswers s.cfg src (fun _ => k) 25 6 = waitAnswers s.cfg k := List.append_nil _
  obtain ⟨t, hrun, hblock⟩ := rows_run (n := 6) (by decide) (h.stands (by decide)) (by rw [hanswers, hbusy])
  rw [blockTrace_sleep] at hblock
  exact ⟨_, t, hrun, hblock.trace, hblock.stands.inflight, hblock.stands.seq, hblock.host, hblock.answers⟩

/-! ### The whole operation -/

/-- How often each wait finds the panel not ready: `k1`, `k2`, `k3` times in rows 7, 24 and 28. -/
def waitCounts (k1 k2 k3 : Nat) : Nat → Nat
  | 7 => k1
  | 24 => k2
  | _ => k3

/-- From row 0 the operation runs to its end, and emits the whole sequence (R172, R180). -/
theorem screen_run {s : State} {src : Src} {k1 k2 k3 : Nat} {rest : List Level} (h : AtStep s 0 src)
    (hbusy : s.env.busyIn = waitAnswers s.cfg k1 ++ (waitAnswers s.cfg k2 ++ (waitAnswers s.cfg k3 ++ rest))) :
    ∃ n t, runFor n s = .next t ∧ Arrived s t (screenTrace s.cfg s.fb src k1 k2 k3) none rest := by
  have hanswers : blockAnswers s.cfg src (waitCounts k1 k2 k3) 0 31 =
      waitAnswers s.cfg k1 ++ (waitAnswers s.cfg k2 ++ (waitAnswers s.cfg k3 ++ [])) := rfl
  obtain ⟨t, hrun, hblock⟩ := rows_run (n := 31) (k := waitCounts k1 k2 k3) (rest := rest) (by decide)
    (h.stands (by decide)) (by simp [hanswers, hbusy])
  rw [blockTrace_screen] at hblock
  exact ⟨_, t, hrun, hblock⟩

/-- The operation code that asks for an update, or for a clean (R94). -/
def screenOp : Src → OpCode
  | .fb => 0b100#3
  | .white => 0b101#3

/-- An idle block accepts a requested update or clean (R93, R170, R171). -/
theorem step_of_screen_request {s : State} {r : Request} {more : List Request} {src : Src} (h : Accepts s)
    (hr : s.env.requests = r :: more) (hop : r.op = screenOp src) :
    step s = .next (acceptScreen src (loadRequest r more s)) := by
  obtain ⟨i, hdec, hstep⟩ := step_of_request h.1 hr
  obtain ⟨hupdate, hclean⟩ := screenOperationsAreAccepted (loadRequest r more s) h
  rw [hstep]
  cases src with
  | fb =>
    obtain rfl : Instr.updateScreen = i := by rw [hop] at hdec; exact Option.some.inj hdec
    exact hupdate
  | white =>
    obtain rfl : Instr.cleanScreen = i := by rw [hop] at hdec; exact Option.some.inj hdec
    exact hclean

/-! ### What R182 counts -/

/-- The events of a byte: chip-select, bit cells, and the TX of the hardware modes (R131 to R135). -/
def isByteEvent : Event → Bool
  | .gw .sda _ | .gw .sck _ | .gw .cs _ | .dly .tBit _ | .tx8 _ | .tx9 _ => true
  | .gw .busy _ | .gw .rst _ | .gw .dc _ | .gr _ _ => false
  | .dly .tRstLow _ | .dly .tRstHigh _ | .dly .tRefresh _ | .dly .tPoll _ => false

theorem isByteEvent_of_mem_byteTrace {c : Cfg} {v : Byte} {b : Bool} {e : Event} (he : e ∈ byteTrace c v b) :
    isByteEvent e = true := by
  cases hsw : c.mode.isSw with
  | true =>
    simp only [byteTrace_of_soft v b hsw, cellTrace, List.mem_append, List.mem_flatMap, List.mem_cons, List.not_mem_nil,
      or_false] at he
    obtain (rfl | ⟨-, -, rfl | rfl | rfl | rfl | rfl | rfl⟩) | rfl := he <;> rfl
  | false =>
    cases hm : c.mode with
    | hw4 | hw3 => simp only [byteTrace, hm, List.mem_singleton] at he; subst he; rfl
    | sw4 | sw3 => simp [hm, Mode.isSw] at hsw

/-- A byte's event is no write of the reset pin or of `DC`, no busy read, and no delay but that of a bit cell. -/
theorem byteEvent_uncounted {e : Event} (h : isByteEvent e = true) :
    isResetWrite e = false ∧ isBusyRead e = false ∧ isStepDelay e = false ∧ ∀ p, (latch p e).dc = p.dc := by
  match e, h with
  | .gw .sda _, _ | .gw .sck _, _ | .gw .cs _, _ | .dly .tBit _, _ | .tx8 _, _ | .tx9 _, _ =>
    exact ⟨rfl, rfl, rfl, fun _ => rfl⟩

/-- What counting the events that `p` picks finds: `f` in each frame, `g` in each busy read, `d` in each poll delay. -/
structure Counts (c : Cfg) (p : Event → Bool) (f g d : Nat) : Prop where
  command : ∀ v, (commandTrace c v).countP p = f
  data : ∀ v, (dataTrace c v).countP p = f
  read : ∀ l, [Event.gr .busy l].countP p = g
  poll : [Event.dly .tPoll (c.duration .tPoll)].countP p = d

/-- How many frames a completed operation sends: 13 commands, one for each poll, and all data bytes (R182). -/
def frameCount (c : Cfg) (k1 k2 k3 : Nat) : Nat :=
  (13 + (k1 + 1) + (k2 + 1) + (k3 + 1)) +
    (c.pwrPayload.length + 1 + 4 + c.p15Payload.length + 2 + c.tconPayload.length + c.n + c.n + 1 + 1)

section Counts

variable {c : Cfg} {p : Event → Bool} {f g d : Nat}

/-- What is in no frame is not counted in one. -/
theorem counts_outside_frames (hdc : ∀ l, p (.gw .dc l) = false) (hbyte : ∀ e, isByteEvent e = true → p e = false)
    (hread : ∀ l, [Event.gr .busy l].countP p = g) (hpoll : [Event.dly .tPoll (c.duration .tPoll)].countP p = d) :
    Counts c p 0 g d := by
  have hframe : ∀ l v b, ((if c.mode.is3wire then [] else [Event.gw .dc l]) ++ byteTrace c v b).countP p = 0 := by
    intro l v b
    refine List.countP_eq_zero.2 fun e he => Bool.eq_false_iff.1 ?_
    rcases List.mem_append.1 he with he | he
    · split at he
      · cases he
      · rw [List.mem_singleton.1 he, hdc]
    · exact hbyte e (isByteEvent_of_mem_byteTrace he)
  exact ⟨fun v => hframe .low v true, fun v => hframe .high v false, hread, hpoll⟩

theorem Counts.packet (h : Counts c p f g d) (code : Byte) (l : List Byte) :
    (packetTrace c code l).countP p = (1 + l.length) * f := by
  have hdata : (l.flatMap (dataTrace c)).countP p = l.length * f := by
    induction l with
    | nil => simp
    | cons v l ih => rw [List.flatMap_cons, List.countP_append, h.data, ih, List.length_cons]; ring
  rw [packetTrace, List.countP_append, h.command, hdata]
  ring

theorem Counts.wait (h : Counts c p f g d) (k : Nat) : (waitTrace c k).countP p = (k + 1) * (f + g) + k * d := by
  induction k with
  | zero => simp [waitTrace, h.command, h.read]
  | succ k ih =>
    rw [waitTrace, List.countP_append, List.countP_append, h.command, ih, ← List.singleton_append, List.countP_append, h.read,
      h.poll]
    ring

theorem imageBytes_length (c : Cfg) (m : Memory) (src : Src) : (imageBytes c m src).length = c.n := by
  cases src <;> simp [imageBytes]

/-- What a completed operation holds of the events that `p` picks (R182). -/
theorem Counts.screen (h : Counts c p f g d) (m : Memory) (src : Src) (k1 k2 k3 : Nat) :
    (screenTrace c m src k1 k2 k3).countP p =
      (resetTrace c).countP p + [Event.dly .tRefresh (c.duration .tRefresh)].countP p + frameCount c k1 k2 k3 * f +
        ((k1 + 1) + (k2 + 1) + (k3 + 1)) * g + (k1 + k2 + k3) * d := by
  simp only [screenTrace, powerTrace, panelTrace, imageTrace, refreshTrace, sleepTrace, List.countP_append, h.packet, h.wait,
    h.command, frameCount, imageBytes_length, List.length_replicate, List.length_cons, List.length_nil]
  ring

end Counts

theorem counts_resetWrites (c : Cfg) : Counts c isResetWrite 0 0 0 := by
  refine counts_outside_frames (fun _ => rfl) (fun e he => ?_) (fun _ => rfl) rfl
  obtain ⟨hreset, -⟩ := byteEvent_uncounted he
  exact hreset

theorem counts_busyReads (c : Cfg) : Counts c isBusyRead 0 1 0 := by
  refine counts_outside_frames (fun _ => rfl) (fun e he => ?_) (fun _ => rfl) rfl
  obtain ⟨-, hread, -⟩ := byteEvent_uncounted he
  exact hread

theorem counts_stepDelays (c : Cfg) : Counts c isStepDelay 0 0 1 := by
  refine counts_outside_frames (fun _ => rfl) (fun e he => ?_) (fun _ => rfl) rfl
  obtain ⟨-, -, hdelay, -⟩ := byteEvent_uncounted he
  exact hdelay

/-- All events: every frame has as many as any other (R154). -/
theorem counts_all (c : Cfg) : Counts c (fun _ => true) (commandTrace c 0x00#8).length 1 1 := by
  refine ⟨fun v => ?_, fun v => ?_, fun _ => rfl, rfl⟩
  · rw [List.countP_true, commandTrace_length, commandTrace_length]
  · rw [List.countP_true, dataTrace, commandTrace, List.length_append, List.length_append, dcWrite_length, dcWrite_length,
      byteTrace_length, byteTrace_length]

/-- Settles O54: the events of the whole sequence, counted. -/
theorem wholeOperationCounts : Obligations.WholeOperationCounts := by
  intro s src k1 k2 k3 rest h hbusy
  obtain ⟨n, t, hrun, harrived⟩ := screen_run h hbusy
  refine ⟨n, t, _, hrun, harrived.stands.inflight, harrived.trace, ?_, ?_, ?_, ?_⟩
  · rw [(counts_resetWrites s.cfg).screen, show (resetTrace s.cfg).countP isResetWrite = 2 from rfl]
    simp [isResetWrite]
  · rw [(counts_busyReads s.cfg).screen, show (resetTrace s.cfg).countP isBusyRead = 0 from rfl]
    simp [isBusyRead]
  · rw [(counts_stepDelays s.cfg).screen, show (resetTrace s.cfg).countP isStepDelay = 2 from rfl]
    simp [isStepDelay]; omega
  · rw [← List.countP_true, (counts_all s.cfg).screen, commandTrace_length, frameCount, List.countP_true]
    cases s.cfg.mode <;> simp only [resetTrace, List.length_cons, List.length_nil] <;> omega

/-! ### Where the latches rest -/

/-- What each of some events keeps of the latches, they keep together (R26). -/
theorem foldl_latch_keeps {α : Type} (f : PinLatches → α) {es : List Event} (h : ∀ e ∈ es, ∀ p, f (latch p e) = f p)
    (p : PinLatches) : f (es.foldl latch p) = f p :=
  List.foldlRecOn es latch (motive := fun p' => f p' = f p) rfl fun p' hp e he => (h e he p').trans hp

/-- Only a write of the reset pin moves its latch (R26). -/
theorem latch_rst {e : Event} (h : isResetWrite e = false) (p : PinLatches) : (latch p e).rst = p.rst := by
  match e, h with
  | .gw .busy _, _ | .gw .dc _, _ | .gw .sda _, _ | .gw .sck _, _ | .gw .cs _, _ => rfl
  | .gr _ _, _ | .dly _ _, _ | .tx8 _, _ | .tx9 _, _ => rfl

/-- A byte does not write `DC` (R26, R150). -/
theorem foldl_latch_byteTrace_dc (c : Cfg) (v : Byte) (b : Bool) (p : PinLatches) :
    ((byteTrace c v b).foldl latch p).dc = p.dc := by
  refine foldl_latch_keeps PinLatches.dc (fun e he => ?_) p
  obtain ⟨-, -, -, hdc⟩ := byteEvent_uncounted (isByteEvent_of_mem_byteTrace he)
  exact hdc

/-- Where a data frame leaves `DC` in 4-wire modes (R151). -/
theorem foldl_latch_dataTrace_dc {c : Cfg} (v : Byte) (p : PinLatches) (h : c.mode.is3wire = false) :
    ((dataTrace c v).foldl latch p).dc = .high := by
  rw [dataTrace, h, List.foldl_append, foldl_latch_byteTrace_dc]
  rfl

/-- Where a data frame leaves the lines of a software mode (R139). -/
theorem foldl_latch_dataTrace_lines {c : Cfg} (v : Byte) (p : PinLatches) (h : c.mode.isSw = true) :
    ((dataTrace c v).foldl latch p).cs = c.csActive.other ∧ ((dataTrace c v).foldl latch p).sck = .high ∧
      ((dataTrace c v).foldl latch p).sda = Level.ofBit (v.getLsbD 0) := by
  obtain ⟨es, hes⟩ := byteTrace_ends_in_last_cell v false h
  rw [dataTrace, hes, List.foldl_append, List.foldl_append, foldl_latch_cell_cs]
  exact ⟨rfl, rfl, rfl⟩

/-- The last events of an operation are those of its last data byte (R178). -/
theorem screenTrace_ends (c : Cfg) (m : Memory) (src : Src) (k1 k2 k3 : Nat) :
    ∃ es, screenTrace c m src k1 k2 k3 = es ++ dataTrace c 0xA5#8 := by
  have hpacket : packetTrace c 0x07#8 [0xA5#8] = commandTrace c 0x07#8 ++ dataTrace c 0xA5#8 := by simp [packetTrace]
  rw [screenTrace, sleepTrace, hpacket, ← List.append_assoc _ (commandTrace c 0x07#8), ← List.append_assoc]
  exact ⟨_, rfl⟩

/-- The reset pin is written in RESET only, and left HIGH (R173, R180). -/
theorem foldl_latch_screenTrace_rst (c : Cfg) (m : Memory) (src : Src) (k1 k2 k3 : Nat) (p : PinLatches) :
    ((screenTrace c m src k1 k2 k3).foldl latch p).rst = .high := by
  have hcount := (counts_resetWrites c).screen m src k1 k2 k3
  simp only [screenTrace, List.append_assoc, List.countP_append (l₁ := resetTrace c)] at hcount ⊢
  rw [show (resetTrace c).countP isResetWrite = 2 from rfl] at hcount
  rw [List.foldl_append, foldl_latch_keeps PinLatches.rst]
  · rfl
  · refine fun e he => latch_rst (Bool.eq_false_iff.2 (List.countP_eq_zero.1 ?_ e he))
    simpa [isResetWrite] using hcount

/-- Settles O53: the request is accepted, and the operation runs from row 0 to its end. -/
theorem wholeOperationEmitsTheSequence : Obligations.WholeOperationEmitsTheSequence := by
  intro s r more src k1 k2 k3 rest hacc hcaps hr hop hbusy
  have hop : r.op = screenOp src := by cases src <;> exact hop
  obtain ⟨n, t, hrun, harrived⟩ :=
    screen_run (s := acceptScreen src (loadRequest r more s)) ⟨rfl, rfl, hcaps⟩ hbusy
  obtain ⟨hcfg, hfb, hreq, hres, -, hrequests⟩ := harrived.host
  obtain ⟨es, hends⟩ := screenTrace_ends s.cfg s.fb src k1 k2 k3
  have hlatches : t.pinl = (dataTrace s.cfg 0xA5#8).foldl latch (es.foldl latch s.pinl) := by
    rw [← List.foldl_append, ← hends]; exact harrived.latches
  refine ⟨n + 1, t, ?_, harrived.trace, harrived.stands.inflight, harrived.stands.seq, hfb, hres, hcfg, hreq, hrequests,
    harrived.answers, ?_, fun h4 => ?_, fun hsw => ?_⟩
  · rw [runFor, step_of_screen_request hacc hr hop, andThen_next, hrun]
  · rw [harrived.latches]; exact foldl_latch_screenTrace_rst ..
  · rw [hlatches]; exact foldl_latch_dataTrace_dc _ _ h4
  · rw [hlatches]; exact foldl_latch_dataTrace_lines _ _ hsw

end Sys2Proof.Machine
end

section
/-!
PROOFS. The statement of 44_protocol_fsm.md that compares an update with a clean (O55). Two runs that differ in SRC only do the same
step by step, as long as the bytes that row 21 sends agree; once the operation has ended they are the same run.
-/

namespace Sys2Proof.Machine

/-! ### The same state with white as its source -/

/-- The position with white as its source. -/
def SeqPos.toWhite (q : SeqPos) : SeqPos := { q with src := .white }

/-- The state whose operation in flight, if there is one, sends white. -/
def toWhite (s : State) : State := s.setSeq (s.seq.map SeqPos.toWhite)

theorem toWhite_of_no_position {s : State} (h : s.seq = none) : toWhite s = s := by
  cases s
  subst h
  rfl

theorem toWhite_seq_of_some {s : State} {q : SeqPos} (h : s.seq = some q) : (toWhite s).seq = some q.toWhite := by
  simp [toWhite, h]

/-- Where the first answer is a next state, the second is the same with white as its source. -/
def WhiteToo (a a' : Answer) : Prop := ∀ t, a = .next t → a' = .next (toWhite t)

theorem whiteToo_next {s s' : State} (h : s' = toWhite s) : WhiteToo (.next s) (.next s') := by
  rintro t ⟨⟩
  rw [h]

theorem WhiteToo.andThen {a a' : Answer} {f f' : State → Answer} (h : WhiteToo a a')
    (hf : ∀ t, WhiteToo (f t) (f' (toWhite t))) : WhiteToo (andThen a f) (andThen a' f') := by
  intro u hu
  obtain ⟨t, ha, ht⟩ := andThen_eq_next hu
  rw [h t ha, andThen_next]
  exact hf t u ht

/-- Only row 21 depends on SRC (R172). -/
theorem micro_eq_of_ne (c : Cfg) (src src' : Src) {upc : Nat} (h : upc ≠ 21) : micro c src upc = micro c src' upc := by
  unfold micro
  split
  on_goal 22 => exact absurd rfl h
  all_goals rfl

section Source

variable (s : State)

/-- Capability calls do not look at the position. -/
theorem whiteToo_callAll (es : List Event) : WhiteToo (callAll es s) (callAll es (toWhite s)) := by
  have hcaps : (toWhite s).env.capFail = s.env.capFail := rfl
  intro t h
  rw [callAll] at h ⊢
  rw [hcaps]
  split at h
  · cases h; rfl
  · split at h
    case isTrue hk => rw [if_pos hk]; cases h; rfl
    case isFalse hk => rename_i how _; cases how <;> cases h

theorem whiteToo_sendBits (n : Nat) : WhiteToo (sendBits n s) (sendBits n (toWhite s)) := by
  induction n generalizing s with
  | zero => exact whiteToo_next rfl
  | succ n ih =>
    refine WhiteToo.andThen ?_ ih
    exact (whiteToo_callAll s (cell s.cfg (s.shr.getLsbD (s.bitn.toNat - 1)))).andThen fun t => whiteToo_next rfl

theorem noteTx_toWhite : noteTx (toWhite s) = toWhite (noteTx s) := by
  have hin : (toWhite s).env.txIn = s.env.txIn := rfl
  unfold noteTx dropTx txAnswer
  rw [hin]
  cases s.env.txIn <;> rfl

theorem loadFrame_toWhite (v : Byte) (b : Bool) : loadFrame v b (toWhite s) = toWhite (loadFrame v b s) := by
  have hcfg : (toWhite s).cfg = s.cfg := rfl
  unfold loadFrame
  rw [hcfg]
  split <;> rfl

theorem whiteToo_writeByte (v : Byte) (b : Bool) : WhiteToo (writeByte v b s) (writeByte v b (toWhite s)) := by
  unfold writeByte
  rw [loadFrame_toWhite]
  refine WhiteToo.andThen ?_ fun t => whiteToo_next rfl
  change WhiteToo _ (if (loadFrame v b s).cfg.mode.isSw then _ else _)
  split
  · exact (whiteToo_callAll _ _).andThen fun t => (whiteToo_sendBits t _).andThen fun u => whiteToo_callAll u _
  · exact (whiteToo_callAll _ _).andThen fun t => whiteToo_next (noteTx_toWhite t)

/-- A write of `DC`, then a byte: `write_command` and `write_data`. -/
theorem whiteToo_selectDc_writeByte (l : Level) (v : Byte) (b : Bool) :
    WhiteToo (andThen (selectDc l s) (writeByte v b)) (andThen (selectDc l (toWhite s)) (writeByte v b)) := by
  refine WhiteToo.andThen ?_ fun t => whiteToo_writeByte t v b
  change WhiteToo (if s.cfg.mode.is3wire then _ else _) (if s.cfg.mode.is3wire then _ else _)
  split
  · exact whiteToo_next rfl
  · exact whiteToo_callAll s _

theorem advance_toWhite : advance (toWhite s) = toWhite (advance s) := by
  unfold advance
  cases hq : s.seq with
  | none => simp [toWhite, hq]
  | some q =>
    simp only [toWhite_seq_of_some hq]
    change (if q.upc + 1 < terminalUpc then _ else _) = _
    split <;> rfl

theorem advanceByte_toWhite (len : Nat) : advanceByte len (toWhite s) = toWhite (advanceByte len s) := by
  unfold advanceByte
  cases hq : s.seq with
  | none => simp [toWhite, hq]
  | some q =>
    simp only [toWhite_seq_of_some hq]
    change (if q.cnt + 1 < len then _ else _) = _
    split
    · rfl
    · exact advance_toWhite s

theorem dropBusy_toWhite : dropBusy (toWhite s) = toWhite (dropBusy s) := by
  have hin : (toWhite s).env.busyIn = s.env.busyIn := rfl
  unfold dropBusy
  rw [hin]
  cases s.env.busyIn <;> rfl

theorem whiteToo_pollBusy (b : Byte) : WhiteToo (pollBusy b s) (pollBusy b (toWhite s)) := by
  rw [pollBusy_eq, pollBusy_eq]
  refine (whiteToo_selectDc_writeByte s .low b true).andThen fun t =>
    (whiteToo_callAll t _).andThen fun u => ?_
  rw [dropBusy_toWhite]
  change WhiteToo (if busyAnswer t = (dropBusy u).cfg.readyLevel then _ else _)
    (if busyAnswer t = (dropBusy u).cfg.readyLevel then _ else _)
  split
  · exact whiteToo_next (advance_toWhite _)
  · exact whiteToo_callAll _ _

/-- A payload row has as many bytes in an update as in a clean (R170, R171). -/
theorem stepLen_toWhite : stepLen (toWhite s) = stepLen s := by
  unfold stepLen
  cases hq : s.seq with
  | none => simp [toWhite, hq]
  | some q =>
    have hcfg : (toWhite s).cfg = s.cfg := rfl
    simp only [toWhite_seq_of_some hq, hcfg, SeqPos.toWhite]
    by_cases hupc : q.upc = 21
    · rw [hupc]; cases q.src <;> rfl
    · rw [micro_eq_of_ne s.cfg .white q.src hupc]

/-- A row that is the same in both does the same. -/
theorem whiteToo_rowStep (q : SeqPos) (row : Micro) : WhiteToo (rowStep s q row) (rowStep (toWhite s) q.toWhite row) := by
  cases row with
  | drive x | delay x => exact (whiteToo_callAll s _).andThen fun t => whiteToo_next (advance_toWhite t)
  | command b =>
    exact (whiteToo_selectDc_writeByte s .low b true).andThen fun t => whiteToo_next (advance_toWhite t)
  | payload p =>
    change WhiteToo (if q.cnt < payloadLen p then _ else _) (if q.cnt < payloadLen p then _ else _)
    split
    · refine (whiteToo_selectDc_writeByte s .high _ false).andThen fun t => whiteToo_next ?_
      rw [stepLen_toWhite, advanceByte_toWhite]
    · exact whiteToo_next (advance_toWhite s)
  | wait => exact whiteToo_pollBusy s _
  | terminal => exact whiteToo_next rfl

end Source

/-- The framebuffer is white (R171). -/
def FbWhite (s : State) : Prop := ∀ a, a < s.cfg.n → memRead s.fb a = 0x00#8

/-- On a white framebuffer the row of a clean does what the row of the update does (R171). -/
theorem rowStep_white {s : State} (hwhite : FbWhite s) (q : SeqPos) (src : Src) :
    rowStep s q (micro s.cfg .white q.upc) = rowStep s q (micro s.cfg src q.upc) := by
  by_cases hupc : q.upc = 21
  case neg => rw [micro_eq_of_ne s.cfg .white src hupc]
  case pos =>
    cases src with
    | white => rfl
    | fb =>
      rw [hupc]
      change (if q.cnt < s.cfg.n then sendData 0x00#8 s else _) = if q.cnt < s.cfg.n then sendData (memRead s.fb q.cnt) s else _
      split
      case isTrue hlt => rw [hwhite _ hlt]
      case isFalse => rfl

/-- On a white framebuffer a step in flight does the same with white as its source (R171). -/
theorem whiteToo_step {s : State} (hi : s.inflight = true) (hwhite : FbWhite s) :
    WhiteToo (step s) (step (toWhite s)) := by
  intro t h
  obtain ⟨q, hq, -⟩ := step_inflight hi h
  rw [step_eq_rowStep hi hq] at h
  rw [step_eq_rowStep (s := toWhite s) hi (toWhite_seq_of_some hq)]
  exact (rowStep_white (s := toWhite s) hwhite q.toWhite q.src).trans (whiteToo_rowStep s q _ t h)

/-! ### The two runs -/

/-- A complete row that ends the operation discards the position (R180). -/
theorem seq_of_advance_ended {u : State} (hi : u.inflight = true) (h : (advance u).inflight = false) :
    (advance u).seq = none := by
  obtain ⟨-, hadv⟩ | ⟨q, -, -, hadv⟩ | ⟨q, -, -, hadv⟩ := advance_cases u
  · rw [hadv, hi] at h; cases h
  · rw [hadv, State.setSeq_inflight, hi] at h; cases h
  · rw [hadv]; rfl

theorem seq_of_advanceByte_ended {u : State} {len : Nat} (hi : u.inflight = true)
    (h : (advanceByte len u).inflight = false) : (advanceByte len u).seq = none := by
  obtain ⟨q, -, -, hadv⟩ | hadv := advanceByte_cases len u
  · rw [hadv, State.setSeq_inflight, hi] at h; cases h
  · rw [hadv] at h ⊢; exact seq_of_advance_ended hi h

/-- A step in flight that ends the operation discards the position (R180). -/
theorem seq_of_step_ended {s t : State} (hi : s.inflight = true) (h : step s = .next t) (ht : t.inflight = false) :
    t.seq = none := by
  obtain ⟨q, hq, u, -, -, hu, hmove⟩ := step_inflight hi h
  rw [hi] at hu
  obtain ⟨-, rfl⟩ | ⟨-, rfl⟩ | ⟨-, rfl | rfl⟩ | ⟨-, rfl⟩ | ⟨-, rfl⟩ := hmove
  · exact seq_of_advance_ended hu ht
  · rw [hu] at ht; cases ht
  · exact seq_of_advance_ended hu ht
  · exact seq_of_advanceByte_ended hu ht
  · exact seq_of_advance_ended hu ht
  · rfl

/-- The second run is where the first is: in the same state, or in flight with white as its source on a white framebuffer. -/
def Agree (s u : State) : Prop := u = s ∨ (u = toWhite s ∧ s.inflight = true ∧ FbWhite s)

theorem Agree.step {s t u v : State} (h : Agree s u) (hs : Machine.step s = .next t) (hu : Machine.step u = .next v) :
    Agree t v := by
  obtain rfl | ⟨rfl, hi, hwhite⟩ := h
  · exact .inl (Host.Outcome.next.inj (hu.symm.trans hs))
  · obtain rfl : v = toWhite t := Host.Outcome.next.inj (hu.symm.trans (whiteToo_step hi hwhite t hs))
    cases ht : t.inflight with
    | true =>
      obtain ⟨hcfg, hfb, -⟩ := operationInFlightLeavesTheHostSide s t hi hs
      exact .inr ⟨rfl, ht, by rw [FbWhite, hcfg, hfb]; exact hwhite⟩
    | false =>
      exact .inl (toWhite_of_no_position (seq_of_step_ended hi hs ht))

theorem Agree.runFor {s t u v : State} {n : Nat} (h : Agree s u) (hs : Machine.runFor n s = .next t)
    (hu : Machine.runFor n u = .next v) : Agree t v := by
  induction n generalizing s u with
  | zero => cases hs; cases hu; exact h
  | succ n ih =>
    obtain ⟨s', hs', hs⟩ := andThen_eq_next hs
    obtain ⟨u', hu', hu⟩ := andThen_eq_next hu
    exact ih (h.step hs' hu') hs hu

/-- Settles O55: the clean is the update with white as its source, step by step. -/
theorem updateAndCleanAgreeOnWhite : Obligations.UpdateAndCleanAgreeOnWhite := by
  intro s t u n hwhite ht hu
  have hstart : Agree (acceptScreen .fb s) (acceptScreen .white s) := .inr ⟨rfl, rfl, hwhite⟩
  obtain rfl | ⟨rfl, -⟩ := hstart.runFor ht hu
  · exact ⟨rfl, rfl, rfl⟩
  · exact ⟨rfl, rfl, rfl⟩

end Sys2Proof.Machine
end

section
/-!
PROOFS. The statements of 44_protocol_fsm.md about failing calls: what an abort leaves (O57), where a failing call cuts a frame
(O58), and that the next operation starts from the state an abort leaves (O59).
-/

namespace Sys2Proof.Machine

/-! ### What an abort leaves -/

/-- If the answer is an abort, it was taken in a state that the moves of the sequencer lead to (R181). -/
def AbortsAfterMoves (s : State) (a : Answer) : Prop :=
  ∀ l, a = .fault (.aborted l) → ∃ u, Moves s u ∧ l = abortState u

theorem abortsAfterMoves_next (s t : State) : AbortsAfterMoves s (.next t) := by
  intro l h
  cases h

/-- A sequence aborts in its first part, or in its second after the moves of the first. -/
theorem AbortsAfterMoves.andThen {s : State} {a : Answer} {f : State → Answer} (h : AbortsAfterMoves s a)
    (hmoves : ∀ t, a = .next t → Moves s t) (hf : ∀ t, AbortsAfterMoves t (f t)) : AbortsAfterMoves s (andThen a f) := by
  intro l hl
  obtain hfault | ⟨t, ha, ht⟩ := andThen_eq_fault hl
  · exact h l hfault
  · obtain ⟨u, hu, rfl⟩ := hf t l ht
    exact ⟨u, (hmoves t ha).trans hu, rfl⟩

section Abort

variable {s : State}

/-- Events of the mode, recorded. -/
theorem moves_record {es : List Event} (hlegal : ∀ e ∈ es, eventLegal s.cfg e = true) : Moves s (record es s) :=
  ⟨⟨rfl, rfl, rfl, rfl, rfl, rfl⟩, ⟨es, rfl, rfl, hlegal⟩, fun h => h, fun _ => rfl⟩

/-- An abort uses up the failing call, whichever it was (log 7). -/
theorem abortState_setCapFail (f : Option (Nat × CapEnd)) (s : State) : abortState (s.setCapFail f) = abortState s := rfl

theorem abortsAfterMoves_callAll {es : List Event} (hlegal : ∀ e ∈ es, eventLegal s.cfg e = true) :
    AbortsAfterMoves s (callAll es s) := by
  intro l h
  obtain ⟨k, -, -, rfl⟩ := callAll_eq_aborted h
  rw [abortState_setCapFail]
  exact ⟨_, moves_record fun e he => hlegal e (List.mem_of_mem_take he), rfl⟩

theorem abortsAfterMoves_writeByte (v : Byte) (b : Bool) : AbortsAfterMoves s (writeByte v b s) := by
  intro l h
  obtain ⟨k, rfl⟩ := writeByte_eq_aborted h
  have hload : Moves s (loadFrame v b s) :=
    Moves.of_same (loadFrame_keeps v b s) (by rw [loadFrame_env]) loadFrame_pinl loadFrame_txerr
  refine ⟨_, hload.trans (moves_record fun e he => ?_), rfl⟩
  rw [loadFrame_cfg]
  exact byteTrace_legal _ _ _ e (List.mem_of_mem_take he)

theorem abortsAfterMoves_selectDc (l : Level) : AbortsAfterMoves s (selectDc l s) := by
  unfold selectDc
  split
  case isTrue => exact abortsAfterMoves_next s s
  case isFalse h4 => exact abortsAfterMoves_callAll (by simp [eventLegal, h4])

theorem abortsAfterMoves_writeCommand (b : Byte) : AbortsAfterMoves s (writeCommand b s) :=
  (abortsAfterMoves_selectDc .low).andThen (fun _ h => (moves_selectDc h).1) fun _ => abortsAfterMoves_writeByte b true

theorem abortsAfterMoves_writeData (b : Byte) : AbortsAfterMoves s (writeData b s) :=
  (abortsAfterMoves_selectDc .high).andThen (fun _ h => (moves_selectDc h).1) fun _ => abortsAfterMoves_writeByte b false

theorem abortsAfterMoves_ownEvent {e : Event} (hlegal : eventLegal s.cfg e = true) :
    AbortsAfterMoves s (ownEvent e s) := by
  have hlegal : ∀ e' ∈ [e], eventLegal s.cfg e' = true := by simpa using hlegal
  exact (abortsAfterMoves_callAll hlegal).andThen (fun _ h => (moves_callAll hlegal h).1) fun t => abortsAfterMoves_next t _

theorem abortsAfterMoves_pollBusy (b : Byte) : AbortsAfterMoves s (pollBusy b s) := by
  rw [pollBusy_eq]
  have hread : ∀ t : State, ∀ e ∈ [Event.gr .busy (busyAnswer t)], eventLegal t.cfg e = true := by simp [eventLegal]
  refine (abortsAfterMoves_writeCommand b).andThen (fun _ h => (moves_writeCommand h).1) fun t =>
    (abortsAfterMoves_callAll (hread t)).andThen (fun _ h => (moves_callAll (hread t) h).1) fun u => ?_
  split
  · exact abortsAfterMoves_next u _
  · intro l h
    obtain ⟨hhost, htrace, hpinl, htxerr, -⟩ := dropBusy_keeps u
    obtain ⟨w, hw, rfl⟩ := abortsAfterMoves_callAll (by simp [eventLegal, delayEvent]) l h
    exact ⟨w, (Moves.of_same hhost htrace hpinl htxerr).trans hw, rfl⟩

/-- The delays of the microprogram are not those of the bit cells (R131, R172). -/
theorem micro_delay_ne_tBit {c : Cfg} {src : Src} {upc : Nat} {d : Delay} (h : micro c src upc = .delay d) : d ≠ .tBit := by
  rintro rfl
  unfold micro at h
  split at h <;> cases h

/-- A step in flight that aborts does so after moves of the sequencer (R181). -/
theorem abortsAfterMoves_step (hi : s.inflight = true) : AbortsAfterMoves s (step s) := by
  cases hq : s.seq with
  | none => simp [step, fetch, hi, hq, AbortsAfterMoves]
  | some q =>
    rw [step_eq_rowStep hi hq]
    cases hm : micro s.cfg q.src q.upc with
    | drive l => exact abortsAfterMoves_ownEvent rfl
    | delay d => exact abortsAfterMoves_ownEvent (by simp [eventLegal, micro_delay_ne_tBit hm])
    | command b =>
      exact (abortsAfterMoves_writeCommand b).andThen (fun _ h => (moves_writeCommand h).1) fun t => abortsAfterMoves_next t _
    | payload p =>
      rw [rowStep]
      split
      · exact (abortsAfterMoves_writeData _).andThen (fun _ h => (moves_writeData h).1) fun t => abortsAfterMoves_next t _
      · exact abortsAfterMoves_next s _
    | wait => exact abortsAfterMoves_pollBusy _
    | terminal => exact abortsAfterMoves_next s _

end Abort

/-- The gate adds no abort to what stands behind it. -/
theorem hostGate_ne_aborted {s l : State} {go : State → Answer} (h : go s ≠ .fault (.aborted l)) :
    hostGate s go ≠ .fault (.aborted l) := by
  unfold hostGate
  split
  · simp
  · split
    · exact h
    · simp

/-- No host operation aborts: none calls a capability (R110 to R118, R170, R171). -/
theorem hostOp_ne_aborted {i : Instr} (hi : i.isCommand = false) (hd : ∀ d, i ≠ .data d) (s l : State) :
    exec i s ≠ .fault (.aborted l) := by
  cases i with
  | setPixel => rw [exec, execSetPixel]; exact hostGate_ne_aborted (by simp)
  | drawLine => rw [exec, execDrawLine]; exact hostGate_ne_aborted (by simp)
  | fill => rw [exec, execFill]; exact hostGate_ne_aborted (by simp)
  | mapValue =>
    rw [exec, execMapValue]
    refine hostGate_ne_aborted ?_
    split
    · rw [mapFault]; simp
    · simp
  | updateScreen => rw [exec, execUpdateScreen]; exact hostGate_ne_aborted (by simp)
  | cleanScreen => rw [exec, execCleanScreen]; exact hostGate_ne_aborted (by simp)
  | reserved6 => rw [exec, execReserved6]; simp
  | reserved7 => rw [exec, execReserved7]; simp
  | data d => exact absurd rfl (hd d)
  | _ => cases hi

/-- An idle step does not abort. -/
theorem step_idle_ne_aborted {s : State} (hi : s.inflight = false) (l : State) : step s ≠ .fault (.aborted l) := by
  cases hr : s.env.requests with
  | nil => rw [step_of_no_request hi hr]; simp
  | cons r rest =>
    obtain ⟨i, hdec, hstep⟩ := step_of_request hi hr
    obtain ⟨hcmd, hdata⟩ := decodeHost_isHostOp hdec
    rw [hstep]
    exact hostOp_ne_aborted hcmd hdata _ l

/-- Settles O57: only a step in flight aborts, after moves that keep what an abort keeps. -/
theorem abortDiscardsTheOperation : Obligations.AbortDiscardsTheOperation := by
  intro s l h
  cases hi : s.inflight with
  | false => exact absurd h (step_idle_ne_aborted hi l)
  | true =>
    obtain ⟨u, ⟨hhost, ⟨es, htrace, hpinl, -⟩, hsticky, hsoft⟩, rfl⟩ := abortsAfterMoves_step hi l h
    exact ⟨rfl, abortState_inflight, abortState_seq, hhost, abortState_capFail, hsticky, hsoft, es, htrace, hpinl⟩

/-- Settles O59: an abort keeps the configuration and the requests, and leaves the block idle. -/
theorem restartAfterAnAbort : Obligations.RestartAfterAnAbort := by
  intro s l r more h hc hr
  obtain ⟨-, hidle, -, ⟨hcfg, -, -, -, -, hrequests⟩, -⟩ := abortDiscardsTheOperation s l h
  have haccepts : Accepts l := ⟨hidle, by rw [hcfg]; exact hc⟩
  rw [← hrequests] at hr
  exact ⟨fun hop => ⟨_, step_of_screen_request (src := .fb) haccepts hr hop, rfl, rfl⟩,
    fun hop => ⟨_, step_of_screen_request (src := .white) haccepts hr hop, rfl, rfl⟩⟩

/-! ### Where a failing call cuts -/

/-- The answer is that of a call which ends in `how` after the events `es`, the position still being that of `s` (R181, R238). -/
def StopsAfter (how : CapEnd) (s : State) (es : List Event) (a : Answer) : Prop :=
  ∃ u, a = capFault how u ∧ u.env.trace = s.env.trace ++ es ∧ u.inflight = s.inflight ∧ u.seq = s.seq

/-- A call that is to fail after `k` of the events `es` stops the run there. -/
def Cuts (s : State) (es : List Event) (a : Answer) : Prop :=
  ∀ k how, s.env.capFail = some (k, how) → k < es.length → StopsAfter how s (es.take k) a

/-- A call that is to fail after more events than `es` lets them pass, and the position stays. -/
def Passes (s : State) (es : List Event) (a : Answer) : Prop :=
  ∀ k how, s.env.capFail = some (k, how) → es.length ≤ k → ∃ t, a = .next t ∧ t.env.capFail = some (k - es.length, how) ∧
    t.env.trace = s.env.trace ++ es ∧ t.inflight = s.inflight ∧ t.seq = s.seq

section Cut

variable {s : State} {es fs : List Event} {a : Answer} {f : State → Answer}

/-- Where there is no event, none is cut off. -/
theorem cuts_nil (s : State) (a : Answer) : Cuts s [] a := by
  intro k how _ hk
  cases hk

/-- A cut ends a sequence. -/
theorem StopsAfter.andThen {how : CapEnd} (h : StopsAfter how s es a) (f : State → Answer) :
    StopsAfter how s es (andThen a f) := by
  obtain ⟨u, rfl, hu⟩ := h
  refine ⟨u, ?_, hu⟩
  cases how <;> rfl

/-- A sequence is cut in its first part, or in its second after the first has passed. -/
theorem Cuts.andThen (h : Cuts s es a) (hpass : Passes s es a) (hf : ∀ t, a = .next t → Cuts t fs (f t)) :
    Cuts s (es ++ fs) (andThen a f) := by
  intro k how hcap hk
  rw [List.length_append] at hk
  by_cases hlt : k < es.length
  · rw [List.take_append_of_le_length hlt.le]
    exact (h k how hcap hlt).andThen f
  · obtain ⟨t, ha, htcap, htrace, hinflight, hseq⟩ := hpass k how hcap (by omega)
    obtain ⟨u, hu, utrace, uinflight, useq⟩ := hf t ha _ how htcap (by omega)
    refine ⟨u, by rw [ha, andThen_next, hu], ?_, uinflight.trans hinflight, useq.trans hseq⟩
    rw [utrace, htrace, List.append_assoc, List.take_append, List.take_of_length_le (show es.length ≤ k by omega)]

/-- A sequence passes when both its parts do. -/
theorem Passes.andThen (h : Passes s es a) (hf : ∀ t, a = .next t → Passes t fs (f t)) :
    Passes s (es ++ fs) (andThen a f) := by
  intro k how hcap hk
  rw [List.length_append] at hk
  obtain ⟨t, ha, htcap, htrace, hinflight, hseq⟩ := h k how hcap (by omega)
  obtain ⟨u, hu, ucap, utrace, uinflight, useq⟩ := hf t ha _ how htcap (by omega)
  refine ⟨u, by rw [ha, andThen_next, hu], ?_, ?_, uinflight.trans hinflight, useq.trans hseq⟩
  · rw [ucap, List.length_append, Nat.sub_sub]
  · rw [utrace, htrace, List.append_assoc]

/-- What is cut off at its events is cut off as R181 and R238 say. -/
theorem Cuts.cutsOff {run : State → Answer} (h : Cuts s es (run s)) : CutsOff run s es := by
  refine fun k hk => ⟨fun hcap => ?_, fun hcap => ?_⟩
  · obtain ⟨u, hrun, htrace, -⟩ := h k .aborts hcap hk
    exact ⟨_, hrun, htrace, rfl, rfl⟩
  · obtain ⟨u, hrun, hu⟩ := h k .neverReturns hcap hk
    exact ⟨u, hrun, hu⟩

theorem cuts_callAll (es : List Event) (s : State) : Cuts s es (callAll es s) := by
  intro k how hcap hk
  exact ⟨_, callAll_of_fail hcap hk, by simp, by simp, by simp⟩

theorem passes_callAll (es : List Event) (s : State) : Passes s es (callAll es s) := by
  intro k how hcap hk
  exact ⟨_, callAll_of_later hcap hk, by simp, by simp, by simp, by simp⟩

theorem cuts_writeByte (v : Byte) (b : Bool) (s : State) : Cuts s (byteTrace s.cfg v b) (writeByte v b s) := by
  intro k how hcap hk
  exact ⟨_, writeByte_of_fail v b hcap hk, by simp, by simp, by simp⟩

theorem passes_writeByte (v : Byte) (b : Bool) (s : State) : Passes s (byteTrace s.cfg v b) (writeByte v b s) := by
  intro k how hcap hk
  have hrun := writeByte_of_later v b hcap hk
  obtain ⟨-, hseq, hinflight⟩ := moves_writeByte hrun
  obtain ⟨-, -, hkeep⟩ := byteDone_keeps s.cfg ((record (byteTrace s.cfg v b) (loadFrame v b s)).setCapFail
    (some (k - (byteTrace s.cfg v b).length, how)))
  exact ⟨_, hrun, hkeep, by simp [byteDone_trace], hinflight, hseq⟩

/-- The write of `DC`, where the mode has it (R150, R151, R152). -/
theorem selectDc_eq_callAll (l : Level) (s : State) :
    selectDc l s = callAll (if s.cfg.mode.is3wire then [] else [.gw .dc l]) s := by
  unfold selectDc
  split
  · rw [callAll_nil]
  · rfl

/-- A write of `DC`, then a byte: `write_command` and `write_data`. -/
theorem cuts_selectDc_writeByte (l : Level) (v : Byte) (b : Bool) (s : State) :
    Cuts s ((if s.cfg.mode.is3wire then [] else [.gw .dc l]) ++ byteTrace s.cfg v b)
      (andThen (selectDc l s) (writeByte v b)) := by
  rw [selectDc_eq_callAll]
  refine (cuts_callAll _ s).andThen (passes_callAll _ s) fun t ht => ?_
  obtain ⟨g, rfl, -⟩ := callAll_eq_next ht
  exact cuts_writeByte v b _

theorem passes_selectDc_writeByte (l : Level) (v : Byte) (b : Bool) (s : State) :
    Passes s ((if s.cfg.mode.is3wire then [] else [.gw .dc l]) ++ byteTrace s.cfg v b)
      (andThen (selectDc l s) (writeByte v b)) := by
  rw [selectDc_eq_callAll]
  refine (passes_callAll _ s).andThen fun t ht => ?_
  obtain ⟨g, rfl, -⟩ := callAll_eq_next ht
  exact passes_writeByte v b _

/-- A part whose events are all, followed by what calls nothing. -/
theorem Cuts.andThen_silent (h : Cuts s es a) (hpass : Passes s es a) (f : State → Answer) :
    Cuts s es (Machine.andThen a f) := by
  have hcut := h.andThen hpass (f := f) fun t _ => cuts_nil t _
  rwa [List.append_nil] at hcut

theorem cuts_ownEvent (e : Event) (s : State) : Cuts s [e] (ownEvent e s) :=
  (cuts_callAll _ s).andThen_silent (passes_callAll _ s) _

theorem cuts_sendCommand (b : Byte) (s : State) : Cuts s (commandTrace s.cfg b) (sendCommand b s) :=
  (cuts_selectDc_writeByte .low b true s).andThen_silent (passes_selectDc_writeByte .low b true s) _

theorem cuts_sendData (b : Byte) (s : State) : Cuts s (dataTrace s.cfg b) (sendData b s) :=
  (cuts_selectDc_writeByte .high b false s).andThen_silent (passes_selectDc_writeByte .high b false s) _

/-- A poll whose busy read is of `l`, if the run gets there (R160, R238). -/
theorem cuts_pollBusy {code : Byte} {l : Level} (hl : ∀ t, writeCommand code s = .next t → busyAnswer t = l) :
    Cuts s (commandTrace s.cfg code ++ ([.gr .busy l] ++
      if l = s.cfg.readyLevel then [] else [.dly .tPoll (s.cfg.duration .tPoll)])) (pollBusy code s) := by
  rw [pollBusy_eq]
  refine (cuts_selectDc_writeByte .low code true s).andThen (passes_selectDc_writeByte .low code true s) fun t ht => ?_
  rw [hl t ht]
  refine (cuts_callAll _ t).andThen (passes_callAll _ t) fun u hu => ?_
  obtain ⟨⟨⟨hcfg, -⟩, -⟩, -⟩ := moves_writeCommand ht
  obtain ⟨g, rfl, -⟩ := callAll_eq_next hu
  obtain ⟨⟨dcfg, -⟩, dtrace, -, -, dseq, dinflight, dcap, -⟩ := dropBusy_keeps ((record [.gr .busy l] t).setCapFail g)
  rw [dcfg, State.setCapFail_cfg, record_cfg, hcfg]
  split
  · exact cuts_nil _ _
  · intro k how hcap hk
    obtain ⟨w, hw, wtrace, winflight, wseq⟩ := cuts_callAll _ _ k how (dcap.trans hcap) hk
    exact ⟨w, hw, by rw [wtrace, dtrace], by rw [winflight, dinflight], by rw [wseq, dseq]⟩

/-- `write_command` uses up no busy answer (R150). -/
theorem busyIn_of_writeCommand {b : Byte} {t : State} (h : writeCommand b s = .next t) : t.env.busyIn = s.env.busyIn := by
  obtain ⟨u, hdc, hbyte⟩ := andThen_eq_next h
  rw [selectDc_eq_callAll] at hdc
  obtain ⟨g, rfl, -⟩ := callAll_eq_next hdc
  obtain ⟨g', rfl, -⟩ := writeByte_eq_next hbyte
  obtain ⟨-, hbusy, -⟩ := byteDone_keeps _ ((record (byteTrace _ b true) (loadFrame b true _)).setCapFail g')
  exact hbusy.trans (by simp)

/-- The level a poll reads, if it gets to its busy read; the first scripted answer, where one is scripted (R13, R160). -/
theorem exists_pollLevel (code : Byte) (s : State) : ∃ l, (∀ x rest, s.env.busyIn = x :: rest → l = x) ∧
    ∀ t, writeCommand code s = .next t → busyAnswer t = l := by
  cases hcmd : writeCommand code s with
  | next u =>
    refine ⟨busyAnswer u, fun x rest hx => (busyAnswer_of_scripted ((busyIn_of_writeCommand hcmd).trans hx)).1, ?_⟩
    rintro t ⟨⟩
    rfl
  | fault r | refused r => exact ⟨busyAnswer s, fun x rest hx => (busyAnswer_of_scripted hx).1, by simp⟩

end Cut

/-- Settles O58: every frame is a sequence of calls, and so are the poll and the events of the sequencer's own. -/
theorem failingCallCutsTheFrame : Obligations.FailingCallCutsTheFrame := by
  intro s
  obtain ⟨l, hscript, hl⟩ := exists_pollLevel 0x71#8 s
  refine ⟨fun d => (cuts_sendData d s).cutsOff, fun p hp => ?_, ⟨l, hscript, ?_⟩,
    fun q hi hq => ⟨fun l hm => ?_, fun d hm => ?_⟩⟩
  · have htable : ∀ p ∈ [(Instr.panelSet, 0x00#8), (.pwrSet, 0x01#8), (.pwrOff, 0x02#8), (.pwrOn, 0x04#8),
        (.deepSleep, 0x07#8), (.dataOld, 0x10#8), (.refresh, 0x12#8), (.dataNew, 0x13#8), (.panelSet2, 0x15#8),
        (.vcomCdi, 0x50#8), (.tconSet, 0x60#8), (.resSet, 0x61#8)], (p.2, p.1) ∈ commandTable ∧ p.1 ≠ .status := by
      decide
    obtain ⟨hmem, hne⟩ := htable p hp
    refine Cuts.cutsOff ?_
    rw [exec_of_mem_commandTable hmem hne]
    exact cuts_sendCommand p.2 s
  · rw [List.append_assoc]
    exact Cuts.cutsOff (run := exec .status) (cuts_pollBusy hl)
  · refine Cuts.cutsOff ?_
    rw [step_eq_rowStep hi hq, hm]
    exact cuts_ownEvent _ s
  · refine Cuts.cutsOff ?_
    rw [step_eq_rowStep hi hq, hm]
    exact cuts_ownEvent _ s

end Sys2Proof.Machine
end

section
/-!
PROOFS. The statements of 45_panel_commands.md: what a command frame (O41) and a data frame (O42) send and where they leave the
position, and what no frame changes (O45). The poll, STATUS, is O43.
-/

namespace Sys2Proof.Machine

/-! ### Moving the position after a frame -/

/-- Counting a byte changes nothing but INFLIGHT and the position (R24). -/
theorem advanceByte_keeps (len : Nat) (s : State) : KeepsHostSide s (advanceByte len s) ∧ (advanceByte len s).env = s.env ∧
    (advanceByte len s).pinl = s.pinl ∧ (advanceByte len s).txerr = s.txerr := by
  obtain ⟨q, -, -, h⟩ | h := advanceByte_cases len s <;> rw [h]
  · exact ⟨⟨rfl, rfl, rfl, rfl, rfl, rfl⟩, rfl, rfl, rfl⟩
  · exact advance_keeps s

/-- Counting a byte of the row that `s` stands at leaves INFLIGHT and the position as R24 writes it. -/
theorem advanceByte_position {s t : State} (hinflight : t.inflight = s.inflight) (hseq : t.seq = s.seq) :
    ((advanceByte (stepLen s) t).inflight, (advanceByte (stepLen s) t).seq) = afterByte s := by
  have hstep : ((advance t).inflight, (advance t).seq) = afterStep s :=
    (advance_position t).trans (afterStep_congr hinflight hseq)
  cases hq : s.seq with
  | none => simp [advanceByte, afterByte, hseq, hq, hinflight]
  | some q =>
    by_cases hlt : q.cnt + 1 < stepLen s
    · simp [advanceByte, afterByte, hseq, hq, hlt, hinflight]
    · simpa only [advanceByte, afterByte, hseq, hq, hlt, if_false] using hstep

/-- A frame that was sent stays sent when only INFLIGHT, the position and the working registers change after it. -/
theorem FrameSent.of_keeps {s u t : State} {es : List Event} (h : FrameSent s u es)
    (hkeeps : KeepsHostSide u t ∧ t.env = u.env ∧ t.pinl = u.pinl ∧ t.txerr = u.txerr) : FrameSent s t es := by
  obtain ⟨htrace, hpinl, htxerr, hhost, hcaps, hbusy, htx⟩ := h
  obtain ⟨khost, kenv, kpinl, ktxerr⟩ := hkeeps
  rw [FrameSent, CapsReturn, kenv, kpinl, ktxerr]
  exact ⟨htrace, hpinl, htxerr, hhost.trans khost, hcaps, hbusy, htx⟩

/-! ### Frames -/

/-- Each row of the command table but STATUS holds an instruction that sends the row's code and completes its step (R89, R199). -/
theorem sendsCommand_of_mem_commandTable {b : Byte} {i : Instr} (h : (b, i) ∈ commandTable) (hi : i ≠ .status) :
    SendsCommand i b := by
  intro s hcaps
  obtain ⟨t, hrun, hsent, hseq, hinflight⟩ := writeCommand_sends b hcaps
  refine ⟨advance t, ?_, hsent.of_keeps (advance_keeps t), ?_⟩
  · rw [exec_of_mem_commandTable h hi, sendCommand, hrun, andThen_next]
  · exact (advance_position t).trans (afterStep_congr hinflight hseq)

/-- Settles O41: each of the twelve stands in the command table with its code. -/
theorem commandFramesSendTheirCode : Obligations.CommandFramesSendTheirCode := by
  unfold Obligations.CommandFramesSendTheirCode
  and_intros <;> exact sendsCommand_of_mem_commandTable (by decide) (by decide)

/-- Settles O42: the byte is sent as `write_data` sends it, and then counted. -/
theorem dataFrameSendsItsByte : Obligations.DataFrameSendsItsByte := by
  intro s d hcaps
  obtain ⟨t, hrun, hsent, hseq, hinflight⟩ := writeData_sends d hcaps
  refine ⟨advanceByte (stepLen s) t, ?_, hsent.of_keeps (advanceByte_keeps _ t), advanceByte_position hinflight hseq⟩
  rw [exec, execData, sendData, hrun, andThen_next]

/-- Settles O45: what the frame sends keeps the host's side, and so does the move of the position after it. -/
theorem framesLeaveTheHostSide : Obligations.FramesLeaveTheHostSide := by
  intro i s t hi h
  obtain ⟨u, ⟨hhost, -⟩, -, -, rfl | ⟨-, rfl⟩ | ⟨-, rfl⟩⟩ := frame_next hi h
  · obtain ⟨hmoved, -⟩ := advance_keeps u
    exact hhost.trans hmoved
  · exact hhost
  · obtain ⟨hmoved, -⟩ := advanceByte_keeps (stepLen s) u
    exact hhost.trans hmoved

end Sys2Proof.Machine
end

section
/-!
PROOFS. The statements of 60_exceptions.md: a step faults for one of two causes (O20), `map_value` with `in_hi = in_lo` is one of
them (O31), and while an operation is in flight the six host operations are refused (O33).
-/

namespace Sys2Proof.Machine

/-! ### Refusals in flight -/

/-- The gate refuses every operation while one is in flight (R237, R268). -/
theorem hostGate_of_inflight {s : State} (go : State → Answer) (hi : s.inflight = true) :
    hostGate s go = .refused .busy := by
  simp [hostGate, hi]

/-- Settles O33: each of the six operations stands behind the gate. -/
theorem hostOperationsAreRefusedInFlight : Obligations.HostOperationsAreRefusedInFlight := by
  intro s hi i hmem
  obtain ⟨go, hgo⟩ := exec_eq_hostGate hmem s
  rw [hgo, hostGate_of_inflight go hi]

/-! ### The division by zero -/

/-- An accepted `map_value` with `in_hi = in_lo` does not divide: it takes the fault of R236. -/
theorem exec_mapValue_of_eq {s : State} (h : Accepts s) (heq : operand s 2 = operand s 1) :
    exec .mapValue s = mapFault s := by
  rw [exec, execMapValue, hostGate_of_accepts _ h, if_pos heq]

/-- Settles O31: the fault writes RES and counts one free value, so putting both back gives the state before. -/
theorem mapValueDividingByZeroFaults : Obligations.MapValueDividingByZeroFaults :=
  fun _ h heq => ⟨_, exec_mapValue_of_eq h heq, rfl⟩

/-! ### The causes of a fault -/

/-- What stands behind the gate and faults was accepted (R237, U5). -/
theorem hostGate_eq_fault {s : State} {go : State → Answer} {f : Fault} (h : hostGate s go = .fault f) :
    Accepts s ∧ go s = .fault f := by
  cases hi : s.inflight with
  | true => rw [hostGate_of_inflight go hi] at h; cases h
  | false =>
    cases hc : cfgLegal s.cfg with
    | false => rw [hostGate_of_illegal go hi hc] at h; cases h
    | true => exact ⟨⟨hi, hc⟩, by rwa [hostGate_of_accepts go ⟨hi, hc⟩] at h⟩

/-- An accepted host operation completes, but for a `map_value` that would divide by zero (R230). -/
theorem exec_completes_of_accepts {i : Instr}
    (hmem : i ∈ [Instr.setPixel, .drawLine, .fill, .mapValue, .updateScreen, .cleanScreen]) {s : State} (h : Accepts s)
    (hdiv : i = .mapValue → operand s 2 ≠ operand s 1) : ∃ t, exec i s = .next t := by
  obtain ⟨hupdate, hclean⟩ := screenOperationsAreAccepted s h
  simp only [List.mem_cons, List.not_mem_nil, or_false] at hmem
  rcases hmem with rfl | rfl | rfl | rfl | rfl | rfl
  · exact ⟨_, exec_setPixel h⟩
  · exact ⟨_, exec_drawLine h⟩
  · exact ⟨_, exec_fill h⟩
  · exact ⟨_, exec_mapValue h (hdiv rfl)⟩
  · exact ⟨_, hupdate⟩
  · exact ⟨_, hclean⟩

/-- Of the operations a host code selects, only a `map_value` that would divide by zero faults (R230, R236). -/
theorem exec_request_fault {op : OpCode} {i : Instr} (hdec : decodeHost op = some i) {s : State} {f : Fault}
    (h : exec i s = .fault f) : i = .mapValue ∧ operand s 2 = operand s 1 := by
  obtain hmem | hrow | hrow := hostTable_rows _ (mem_of_lookup_eq_some hdec)
  · obtain ⟨go, hgo⟩ := exec_eq_hostGate hmem s
    obtain ⟨hacc, -⟩ := hostGate_eq_fault (hgo ▸ h)
    by_contra hne
    obtain ⟨t, ht⟩ := exec_completes_of_accepts hmem hacc fun hi heq => hne ⟨hi, heq⟩
    rw [ht] at h
    cases h
  · obtain ⟨-, rfl⟩ := Prod.mk.inj hrow
    cases h
  · obtain ⟨-, rfl⟩ := Prod.mk.inj hrow
    cases h

/-- While every capability call returns, a step in flight at a position completes (R230, R238). -/
theorem step_completes_of_returns {s : State} {q : SeqPos} (hi : s.inflight = true) (hq : s.seq = some q)
    (h : CapsReturn s) : ∃ t, step s = .next t := by
  rw [step_eq_rowStep hi hq]
  cases micro s.cfg q.src q.upc with
  | drive l => exact ⟨_, ownEvent_of_returns _ h⟩
  | delay d => exact ⟨_, ownEvent_of_returns _ h⟩
  | command b =>
    obtain ⟨t, hsend, -⟩ := writeCommand_sends b h
    exact ⟨advance t, by rw [rowStep, sendCommand, hsend, andThen_next]⟩
  | payload p =>
    rw [rowStep]
    split
    · obtain ⟨t, hsend, -⟩ := writeData_sends (payloadByte s.fb q.cnt p) h
      exact ⟨advanceByte (stepLen s) t, by rw [sendData, hsend, andThen_next]⟩
    · exact ⟨_, rfl⟩
  | wait =>
    obtain ⟨t, -, hpoll, -⟩ := exec_status_polls h
    exact ⟨t, hpoll⟩
  | terminal => exact ⟨_, rfl⟩

/-- A step in flight that faults has a capability call set to fail (R238). -/
theorem capFail_of_step_inflight_fault {s : State} {f : Fault} (hi : s.inflight = true) (h : step s = .fault f) :
    ∃ k how, s.env.capFail = some (k, how) := by
  cases hq : s.seq with
  | none => simp [step, fetch, hi, hq] at h
  | some q =>
    cases hcap : s.env.capFail with
    | none =>
      obtain ⟨t, ht⟩ := step_completes_of_returns hi hq hcap
      rw [ht] at h
      cases h
    | some p => exact ⟨p.1, p.2, rfl⟩

/-- An idle step that faults was taking a `map_value` request with `in_hi = in_lo` (R236). -/
theorem request_of_step_idle_fault {s : State} {f : Fault} (hi : s.inflight = false) (h : step s = .fault f) :
    ∃ r rest, s.env.requests = r :: rest ∧ r.op = 0b011#3 ∧ r.a2 = r.a1 := by
  cases hr : s.env.requests with
  | nil => rw [step_of_no_request hi hr] at h; cases h
  | cons r rest =>
    obtain ⟨i, hdec, hstep⟩ := step_of_request hi hr
    obtain ⟨rfl, hop⟩ := exec_request_fault hdec (hstep ▸ h)
    exact ⟨r, rest, rfl, (Code.host.inj (encode_of_decodeHost hdec)).symm, BitVec.eq_of_toInt_eq hop⟩

/-- Settles O20: in flight only a failing call faults, idle only the division by zero. -/
theorem everyFaultHasItsCause : Obligations.EveryFaultHasItsCause := by
  intro s f h
  cases hi : s.inflight with
  | true => exact .inl ⟨rfl, capFail_of_step_inflight_fault hi h⟩
  | false => exact .inr ⟨rfl, request_of_step_idle_fault hi h⟩

end Sys2Proof.Machine
end

section
/-!
PROOFS. The statement of 70_reset_and_hazards.md: no step changes the configuration (O12).
-/

namespace Sys2Proof.Machine

/-- Settles O12: an idle step waits or performs a host operation, and neither writes CFG; in flight CFG belongs to the host's
side, which every move of the sequencer keeps. -/
theorem configurationNeverChanges : Obligations.ConfigurationNeverChanges := by
  intro s t h
  cases hi : s.inflight with
  | false =>
    obtain ⟨hcfg, -, -, -⟩ := step_idle_keepsBus hi h
    exact hcfg
  | true =>
    obtain ⟨⟨hcfg, -⟩, -⟩ := step_inflight_moves hi h
    exact hcfg

end Sys2Proof.Machine
end
